-- ==== Sys2Proof/Word.lean ====
section
/-! DEFINITION. The word types: the 64-bit machine word of commands, responses and constants (R6 W_K, R51, R35),
and the byte a host may carry words in (R45). -/

namespace Sys2Proof

/-- A command, extension or response word, and the machine integer of W_K = 64 bits (R6, R51, R35). -/
abbrev Word := BitVec 64

/-- A byte of a word in transit (R45). No command sees bytes. -/
abbrev Byte := BitVec 8

end Sys2Proof
end

