-- ==== Sys2Proof/Syntax.lean ====
section
/-! DEFINITION. The command set (R53, R57, R59): operand kinds and one constructor of `Instr` per row of
spec/opcode_table.json. -/

namespace Sys2Proof

/-- A register-file slot, 0 to 31 (R20). -/
abbrev Slot := Fin 32

/-- A digit-stream buffer, 0 to 3 (R27). -/
abbrev StreamNo := Fin 4

/-- The engine mode: 0 basic, 1 practical (R29, R54). -/
inductive EngineMode where
  | basic
  | practical
deriving DecidableEq, Repr

/-- An engine register selector, 0 to 8 (R30, R94). -/
inductive EngineSel where
  | res | root | mc | sref | resp | q | qm | d | dm
deriving DecidableEq, Repr

/-- A control and status register, 0 to 4 (R31). -/
inductive Csr where
  | fsr | esr | eiter | etotal | elastd
deriving DecidableEq, Repr

/-- The commands. Field order is that of the assembler syntax (R59); immediates are read as in R56. -/
inductive Instr where
  /-- `CREATE xd, width` (R61). -/
  | create (rd : Slot) (width : Nat)
  /-- `FREE xd` (R62). -/
  | free (rd : Slot)
  /-- `DUP xd, xa` (R63). -/
  | dup (rd ra : Slot)
  /-- `RAND xd` (R64). -/
  | rand (rd : Slot)
  /-- `SETSIGN xd, s` (R65). -/
  | setsign (rd : Slot) (signed : Bool)
  /-- `RDST xa` (R66). -/
  | rdst (ra : Slot)
  /-- `RDW xa, k` (R67). -/
  | rdw (ra : Slot) (k : Nat)
  /-- `ABS xd, xa` (R68). -/
  | abs (rd ra : Slot)
  /-- `NEG xd` (R69). -/
  | neg (rd : Slot)
  /-- `CMP xa, xb` (R70). -/
  | cmp (ra rb : Slot)
  /-- `CMPC xa, k` (R71). -/
  | cmpc (ra : Slot) (k : Int)
  /-- `LSL xd, n` (R72). -/
  | lsl (rd : Slot) (n : Nat)
  /-- `LSR xd, n` (R73). -/
  | lsr (rd : Slot) (n : Nat)
  /-- `LOAD xd, xa, pos` (R75). -/
  | load (rd ra : Slot) (pos : Nat)
  /-- `LOADC xd, value, pos, bitcount` (R76). -/
  | loadc (rd : Slot) (value : Word) (pos bitcount : Nat)
  /-- `EXTRACT xa, xd, pos` (R78). -/
  | extract (ra rd : Slot) (pos : Int)
  /-- `ADD xd, xa, pos` (R80). -/
  | add (rd ra : Slot) (pos : Nat)
  /-- `SUB xd, xa, pos` (R81). -/
  | sub (rd ra : Slot) (pos : Nat)
  /-- `MUL xd, xa, xb` (R82). -/
  | mul (rd ra rb : Slot)
  /-- `ISQRT xd, xa` (R83). -/
  | isqrt (rd ra : Slot)
  /-- `DIGITS dsk, xa, bpd` (R85). -/
  | digits (ds : StreamNo) (ra : Slot) (bpd : Nat)
  /-- `DREAD dsk, i` (R86). -/
  | dread (ds : StreamNo) (i : Nat)
  /-- `ESTART xa, xb, xd, mode` (R89). -/
  | estart (ra rb rd : Slot) (mode : EngineMode)
  /-- `ESTEP` (R90). -/
  | estep
  /-- `ERUN xa, xb, xd, mode` (R93). -/
  | erun (ra rb rd : Slot) (mode : EngineMode)
  /-- `EGET xd, sel` (R94). -/
  | eget (rd : Slot) (sel : EngineSel)
  /-- `RDCSR c` (R109). -/
  | rdcsr (csr : Csr)
deriving DecidableEq, Repr

/-- The rows of the opcode map, by name (R57). -/
inductive Opcode where
  | create | free | dup | rand | setsign | rdst | rdw
  | abs | neg | cmp | cmpc | lsl | lsr
  | load | loadc | extract
  | add | sub | mul | isqrt
  | digits | dread
  | estart | estep | erun | eget
  | rdcsr
deriving DecidableEq, Repr

/-- The fields of a header word, format H (R52). -/
structure Header where
  op : BitVec 6
  rd : BitVec 5 := 0
  ra : BitVec 5 := 0
  rb : BitVec 5 := 0
  rsv : BitVec 3 := 0
  imm8 : BitVec 8 := 0
  imm32 : BitVec 32 := 0
deriving DecidableEq, Repr

/-- The fields of a header word, other than OP and RSV, that a command uses (R53); it must leave the others zero. -/
structure FieldUse where
  rd : Bool := false
  ra : Bool := false
  rb : Bool := false
  imm8 : Bool := false
  imm32 : Bool := false
deriving DecidableEq, Repr

/-- Why a command word is not an instruction (R58). -/
inductive DecodeError where
  /-- OP is not in the opcode map. -/
  | illegalOpcode
  /-- RSV or an unused field is not zero, or a field value is out of range. -/
  | badField
deriving DecidableEq, Repr

end Sys2Proof
end

