-- ==== Sys2Proof/WellFormed.lean ====
section
/-! DEFINITION. Which terms of `Instr` some command word encodes: the ranges of R56. Slots, buffers, modes, selectors
and CSR numbers are in range by their types (R53, R54). -/

namespace Sys2Proof

/-- `uimm32`: 0..2^32−1 (R56). -/
def isU32 (v : Nat) : Bool := decide (v < 2 ^ 32)

/-- `simm32`: −2^31..2^31−1 (R56). -/
def isS32 (v : Int) : Bool := decide (-2 ^ 31 ≤ v) && decide (v < 2 ^ 31)

/-- `zext_8` (R56). -/
def isU8 (v : Nat) : Bool := decide (v < 2 ^ 8)

/-- `sext_64(X)`: −2^63..2^63−1 (R56). -/
def isS64 (v : Int) : Bool := decide (-2 ^ 63 ≤ v) && decide (v < 2 ^ 63)

/-- The immediates of an instruction are in the ranges of R56. -/
def Instr.wf : Instr → Bool
  | .create _ width => isU32 width
  | .free _ => true
  | .dup _ _ => true
  | .rand _ => true
  | .setsign _ _ => true
  | .rdst _ => true
  | .rdw _ k => isU32 k
  | .abs _ _ => true
  | .neg _ => true
  | .cmp _ _ => true
  | .cmpc _ k => isS64 k
  | .lsl _ n => isU32 n
  | .lsr _ n => isU32 n
  | .load _ _ pos => isU32 pos
  | .loadc _ _ pos bitcount => isU32 pos && isU8 bitcount
  | .extract _ _ pos => isS32 pos
  | .add _ _ pos => isU32 pos
  | .sub _ _ pos => isU32 pos
  | .mul _ _ _ => true
  | .isqrt _ _ => true
  | .digits _ _ bpd => isU8 bpd
  | .dread _ i => isU32 i
  | .estart _ _ _ _ => true
  | .estep => true
  | .erun _ _ _ _ => true
  | .eget _ _ => true
  | .rdcsr _ => true

end Sys2Proof
end

