-- ==== Sys2Proof/Decode.lean ====
section
/-! DEFINITION. The decoder and the encoder of command words, both from the tables of 30_encoding.md: the opcode map
(R57), format H (R52), the fields each command uses (R53), the decode ranges (R54) and the immediates (R56). Decoding
is total: what is not an instruction is rejected by name (R58). -/

namespace Sys2Proof

/-! ### The opcode map -/

/-- The OP value of each row of the opcode map (R57). -/
def Opcode.code : Opcode → BitVec 6
  | .create => 0x01
  | .free => 0x02
  | .dup => 0x03
  | .rand => 0x04
  | .setsign => 0x05
  | .rdst => 0x06
  | .rdw => 0x07
  | .abs => 0x08
  | .neg => 0x09
  | .cmp => 0x0A
  | .cmpc => 0x0B
  | .lsl => 0x0C
  | .lsr => 0x0D
  | .load => 0x0E
  | .loadc => 0x0F
  | .extract => 0x10
  | .add => 0x11
  | .sub => 0x12
  | .mul => 0x13
  | .isqrt => 0x14
  | .digits => 0x18
  | .dread => 0x19
  | .estart => 0x20
  | .estep => 0x21
  | .erun => 0x22
  | .eget => 0x23
  | .rdcsr => 0x30

/-- Every row of the opcode map. -/
def Opcode.all : List Opcode :=
  [.create, .free, .dup, .rand, .setsign, .rdst, .rdw, .abs, .neg, .cmp, .cmpc, .lsl, .lsr, .load, .loadc,
    .extract, .add, .sub, .mul, .isqrt, .digits, .dread, .estart, .estep, .erun, .eget, .rdcsr]

/-- The row whose OP value is `b`; none for an illegal opcode (R57, R58). -/
def Opcode.ofCode (b : BitVec 6) : Option Opcode :=
  Opcode.all.find? fun o => o.code == b

/-- The fields each command uses (R53). -/
def Opcode.uses : Opcode → FieldUse
  | .create => { rd := true, imm32 := true }
  | .free => { rd := true }
  | .dup => { rd := true, ra := true }
  | .rand => { rd := true }
  | .setsign => { rd := true, imm8 := true }
  | .rdst => { ra := true }
  | .rdw => { ra := true, imm32 := true }
  | .abs => { rd := true, ra := true }
  | .neg => { rd := true }
  | .cmp => { ra := true, rb := true }
  | .cmpc => { ra := true }
  | .lsl => { rd := true, imm32 := true }
  | .lsr => { rd := true, imm32 := true }
  | .load => { rd := true, ra := true, imm32 := true }
  | .loadc => { rd := true, imm8 := true, imm32 := true }
  | .extract => { rd := true, ra := true, imm32 := true }
  | .add => { rd := true, ra := true, imm32 := true }
  | .sub => { rd := true, ra := true, imm32 := true }
  | .mul => { rd := true, ra := true, rb := true }
  | .isqrt => { rd := true, ra := true }
  | .digits => { rd := true, ra := true, imm8 := true }
  | .dread => { rd := true, imm32 := true }
  | .estart => { rd := true, ra := true, rb := true, imm8 := true }
  | .estep => {}
  | .erun => { rd := true, ra := true, rb := true, imm8 := true }
  | .eget => { rd := true, imm8 := true }
  | .rdcsr => { imm8 := true }

/-- CMPC and LOADC alone have an extension word, and OP alone says so (R51). -/
def twoWords (op : BitVec 6) : Bool := op == 0x0B || op == 0x0F

/-! ### Format H -/

/-- The fields of a header word at the bit positions of R52. -/
def Header.unpack (h : Word) : Header where
  op := h.extractLsb' 58 6
  rd := h.extractLsb' 53 5
  ra := h.extractLsb' 48 5
  rb := h.extractLsb' 43 5
  rsv := h.extractLsb' 40 3
  imm8 := h.extractLsb' 32 8
  imm32 := h.extractLsb' 0 32

/-- A header word from its fields, most significant first (R52). -/
def Header.pack (f : Header) : Word :=
  f.op ++ f.rd ++ f.ra ++ f.rb ++ f.rsv ++ f.imm8 ++ f.imm32

/-- The fields a command does not use are zero (R53). -/
def Header.unusedZero (u : FieldUse) (f : Header) : Bool :=
  (u.rd || f.rd == 0) && (u.ra || f.ra == 0) && (u.rb || f.rb == 0) && (u.imm8 || f.imm8 == 0) &&
    (u.imm32 || f.imm32 == 0)

/-! ### Operand fields -/

/-- A register slot from a 5-bit field (R52). -/
def slotOf (b : BitVec 5) : Slot := ⟨b.toNat, b.isLt⟩

/-- A digit-stream buffer from RD; a value above 3 is out of range (R54). -/
def streamOf (b : BitVec 5) : Option StreamNo :=
  if h : b.toNat < 4 then some ⟨b.toNat, h⟩ else none

/-- SETSIGN's mode from IMM8; above 1 is out of range (R54). -/
def signOf (b : BitVec 8) : Option Bool :=
  if b = 0 then some false else if b = 1 then some true else none

/-- The engine mode from IMM8; above 1 is out of range (R54). -/
def modeOf (b : BitVec 8) : Option EngineMode :=
  if b = 0 then some .basic else if b = 1 then some .practical else none

/-- The IMM8 value of an engine register selector (R30). -/
def EngineSel.code : EngineSel → BitVec 8
  | .res => 0
  | .root => 1
  | .mc => 2
  | .sref => 3
  | .resp => 4
  | .q => 5
  | .qm => 6
  | .d => 7
  | .dm => 8

/-- The engine register selector from IMM8; above 8 is out of range (R54). -/
def selOf (b : BitVec 8) : Option EngineSel :=
  [EngineSel.res, .root, .mc, .sref, .resp, .q, .qm, .d, .dm].find? fun s => s.code == b

/-- The IMM8 value of a CSR number (R31). -/
def Csr.code : Csr → BitVec 8
  | .fsr => 0
  | .esr => 1
  | .eiter => 2
  | .etotal => 3
  | .elastd => 4

/-- The CSR from IMM8; above 4 is out of range (R54). -/
def csrOf (b : BitVec 8) : Option Csr :=
  [Csr.fsr, .esr, .eiter, .etotal, .elastd].find? fun c => c.code == b

/-! ### Decoding -/

/-- The instruction of a legal opcode from the header's fields and the extension word; none where a field value is
out of range (R53, R54, R56). -/
def operands (f : Header) (x : Word) : Opcode → Option Instr
  | .create => some (.create (slotOf f.rd) f.imm32.toNat)
  | .free => some (.free (slotOf f.rd))
  | .dup => some (.dup (slotOf f.rd) (slotOf f.ra))
  | .rand => some (.rand (slotOf f.rd))
  | .setsign => (signOf f.imm8).map (.setsign (slotOf f.rd))
  | .rdst => some (.rdst (slotOf f.ra))
  | .rdw => some (.rdw (slotOf f.ra) f.imm32.toNat)
  | .abs => some (.abs (slotOf f.rd) (slotOf f.ra))
  | .neg => some (.neg (slotOf f.rd))
  | .cmp => some (.cmp (slotOf f.ra) (slotOf f.rb))
  | .cmpc => some (.cmpc (slotOf f.ra) x.toInt)
  | .lsl => some (.lsl (slotOf f.rd) f.imm32.toNat)
  | .lsr => some (.lsr (slotOf f.rd) f.imm32.toNat)
  | .load => some (.load (slotOf f.rd) (slotOf f.ra) f.imm32.toNat)
  | .loadc => some (.loadc (slotOf f.rd) x f.imm32.toNat f.imm8.toNat)
  | .extract => some (.extract (slotOf f.ra) (slotOf f.rd) f.imm32.toInt)
  | .add => some (.add (slotOf f.rd) (slotOf f.ra) f.imm32.toNat)
  | .sub => some (.sub (slotOf f.rd) (slotOf f.ra) f.imm32.toNat)
  | .mul => some (.mul (slotOf f.rd) (slotOf f.ra) (slotOf f.rb))
  | .isqrt => some (.isqrt (slotOf f.rd) (slotOf f.ra))
  | .digits => (streamOf f.rd).map fun k => .digits k (slotOf f.ra) f.imm8.toNat
  | .dread => (streamOf f.rd).map fun k => .dread k f.imm32.toNat
  | .estart => (modeOf f.imm8).map (.estart (slotOf f.ra) (slotOf f.rb) (slotOf f.rd))
  | .estep => some .estep
  | .erun => (modeOf f.imm8).map (.erun (slotOf f.ra) (slotOf f.rb) (slotOf f.rd))
  | .eget => (selOf f.imm8).map (.eget (slotOf f.rd))
  | .rdcsr => (csrOf f.imm8).map .rdcsr

/-- The instruction of a header word and its extension word (ignored by one-word commands). ILLEGAL_OPCODE is
found first, then a nonzero RSV or unused field, then a field value out of range (R58, R53, R54, R114). -/
def decode (h x : Word) : Except DecodeError Instr :=
  let f := Header.unpack h
  match Opcode.ofCode f.op with
  | none => .error .illegalOpcode
  | some o =>
    if f.rsv = 0 ∧ f.unusedZero o.uses = true then
      match operands f x o with
      | some i => .ok i
      | none => .error .badField
    else .error .badField

/-! ### Words as bytes -/

/-- The word of up to eight bytes, least significant first (R45). -/
def wordOfBytes : List Byte → Word
  | [] => 0
  | b :: bs => (wordOfBytes bs <<< 8) ||| b.setWidth 64

/-- The eight bytes of a word, least significant first (R45). -/
def bytesOfWord (w : Word) : List Byte :=
  (List.range 8).map fun k => w.extractLsb' (8 * k) 8

/-- Decode the command at the front of a byte stream and give the bytes after it: header, then the extension word of a
two-word command (R51, R45). `none` where the stream ends inside the command, which then is not complete. -/
def decodeBytes (bs : List Byte) : Option (Except DecodeError Instr × List Byte) :=
  if bs.length < 8 then none
  else
    let h := wordOfBytes (bs.take 8)
    if twoWords (Header.unpack h).op then
      if bs.length < 16 then none
      else some (decode h (wordOfBytes ((bs.drop 8).take 8)), bs.drop 16)
    else some (decode h 0, bs.drop 8)

/-- The header and extension word of an instruction whose bits are numbered as the opcode table numbers them: the
first word is bits 63..0, the second bits 127..64; bits at and above `nbits` are 0. -/
def tableWords (nbits w : Nat) : Word × Word :=
  let v := w % 2 ^ nbits
  (BitVec.ofNat 64 v, BitVec.ofNat 64 (v / 2 ^ 64))

/-- What the decoder reads from an instruction whose bits are `w` in the opcode table's numbering, laid out as bytes
with each word least significant byte first (R45). -/
def decodeTableWord (nbits w : Nat) : Option Instr :=
  let hx := tableWords nbits w
  match decodeBytes (bytesOfWord hx.1 ++ bytesOfWord hx.2) with
  | some (.ok i, _) => some i
  | _ => none

/-! ### Encoding -/

/-- The opcode-map row of an instruction (R57). -/
def Instr.opcode : Instr → Opcode
  | .create _ _ => .create
  | .free _ => .free
  | .dup _ _ => .dup
  | .rand _ => .rand
  | .setsign _ _ => .setsign
  | .rdst _ => .rdst
  | .rdw _ _ => .rdw
  | .abs _ _ => .abs
  | .neg _ => .neg
  | .cmp _ _ => .cmp
  | .cmpc _ _ => .cmpc
  | .lsl _ _ => .lsl
  | .lsr _ _ => .lsr
  | .load _ _ _ => .load
  | .loadc _ _ _ _ => .loadc
  | .extract _ _ _ => .extract
  | .add _ _ _ => .add
  | .sub _ _ _ => .sub
  | .mul _ _ _ => .mul
  | .isqrt _ _ => .isqrt
  | .digits _ _ _ => .digits
  | .dread _ _ => .dread
  | .estart _ _ _ _ => .estart
  | .estep => .estep
  | .erun _ _ _ _ => .erun
  | .eget _ _ => .eget
  | .rdcsr _ => .rdcsr

/-- A slot's 5-bit field (R52). -/
def slotField (s : Slot) : BitVec 5 := BitVec.ofNat 5 s.val

/-- A buffer number in the RD field (R53). -/
def streamField (k : StreamNo) : BitVec 5 := BitVec.ofNat 5 k.val

/-- SETSIGN's IMM8 (R53). -/
def signField (s : Bool) : BitVec 8 := if s then 1 else 0

/-- The engine mode's IMM8 (R53). -/
def modeField : EngineMode → BitVec 8
  | .basic => 0
  | .practical => 1

/-- The header fields of an instruction: its OP, the fields R59 gives its operands, zero elsewhere (R53). -/
def Instr.header (i : Instr) : Header :=
  let op := i.opcode.code
  match i with
  | .create rd width => { op, rd := slotField rd, imm32 := BitVec.ofNat 32 width }
  | .free rd => { op, rd := slotField rd }
  | .dup rd ra => { op, rd := slotField rd, ra := slotField ra }
  | .rand rd => { op, rd := slotField rd }
  | .setsign rd s => { op, rd := slotField rd, imm8 := signField s }
  | .rdst ra => { op, ra := slotField ra }
  | .rdw ra k => { op, ra := slotField ra, imm32 := BitVec.ofNat 32 k }
  | .abs rd ra => { op, rd := slotField rd, ra := slotField ra }
  | .neg rd => { op, rd := slotField rd }
  | .cmp ra rb => { op, ra := slotField ra, rb := slotField rb }
  | .cmpc ra _ => { op, ra := slotField ra }
  | .lsl rd n => { op, rd := slotField rd, imm32 := BitVec.ofNat 32 n }
  | .lsr rd n => { op, rd := slotField rd, imm32 := BitVec.ofNat 32 n }
  | .load rd ra pos => { op, rd := slotField rd, ra := slotField ra, imm32 := BitVec.ofNat 32 pos }
  | .loadc rd _ pos bitcount =>
    { op, rd := slotField rd, imm8 := BitVec.ofNat 8 bitcount, imm32 := BitVec.ofNat 32 pos }
  | .extract ra rd pos => { op, rd := slotField rd, ra := slotField ra, imm32 := BitVec.ofInt 32 pos }
  | .add rd ra pos => { op, rd := slotField rd, ra := slotField ra, imm32 := BitVec.ofNat 32 pos }
  | .sub rd ra pos => { op, rd := slotField rd, ra := slotField ra, imm32 := BitVec.ofNat 32 pos }
  | .mul rd ra rb => { op, rd := slotField rd, ra := slotField ra, rb := slotField rb }
  | .isqrt rd ra => { op, rd := slotField rd, ra := slotField ra }
  | .digits k ra bpd => { op, rd := streamField k, ra := slotField ra, imm8 := BitVec.ofNat 8 bpd }
  | .dread k i => { op, rd := streamField k, imm32 := BitVec.ofNat 32 i }
  | .estart ra rb rd mode =>
    { op, rd := slotField rd, ra := slotField ra, rb := slotField rb, imm8 := modeField mode }
  | .estep => { op }
  | .erun ra rb rd mode =>
    { op, rd := slotField rd, ra := slotField ra, rb := slotField rb, imm8 := modeField mode }
  | .eget rd sel => { op, rd := slotField rd, imm8 := sel.code }
  | .rdcsr c => { op, imm8 := c.code }

/-- The extension word of CMPC (its constant) and LOADC (its value); none for the others (R51, R56). -/
def Instr.extension : Instr → Option Word
  | .cmpc _ k => some (BitVec.ofInt 64 k)
  | .loadc _ value _ _ => some value
  | .create _ _ | .free _ | .dup _ _ | .rand _ | .setsign _ _ | .rdst _ | .rdw _ _ | .abs _ _ | .neg _ | .cmp _ _
  | .lsl _ _ | .lsr _ _ | .load _ _ _ | .extract _ _ _ | .add _ _ _ | .sub _ _ _ | .mul _ _ _ | .isqrt _ _
  | .digits _ _ _ | .dread _ _ | .estart _ _ _ _ | .estep | .erun _ _ _ _ | .eget _ _ | .rdcsr _ => none

/-- The words of an instruction (R51, R52). -/
def encode (i : Instr) : List Word :=
  i.header.pack :: i.extension.toList

/-- Decode a command given as its words, with no word left over (R51). -/
def decodeWords : List Word → Option (Except DecodeError Instr)
  | [h] => if twoWords (Header.unpack h).op then none else some (decode h 0)
  | [h, x] => if twoWords (Header.unpack h).op then some (decode h x) else none
  | _ => none

end Sys2Proof
end

