-- ==== Sys2Proof/Config.lean ====
section
/-! DEFINITION. The configuration: every parameter of R7 that a model takes as an argument, the constraints the
spec puts on them (92_eei_decisions.md "Open parameters"), the example set EX1 (D44), and the free values of the
model: the bits that the random-bit source supplies after those the host has listed (R36), and the fuel of RAND (R129). -/

namespace Sys2Proof

/-- One entry of OVERRIDES: in iteration `iteration`, row `fromRow` is replaced by `toRow` (R7, R103, D35). -/
structure Override where
  iteration : Nat
  fromRow : Int
  toRow : Int
deriving DecidableEq, Repr

/-- The parameters of R7, under the spec's names. A parameter that R7 types as a natural number is a `Nat`, so the
ESTART checks that it is not negative (R89 check 2) cannot fail (DEDUCED, safe: log entry 3). The table is
TROWS rows of TCOLS integers (R28). -/
structure Config where
  /-- MAX_WIDTH, the largest register width (D9). -/
  maxWidth : Nat
  /-- MAX_DIGITS, the largest digit count of a buffer (D19). -/
  maxDigits : Nat
  /-- MUL_OVF_AT_MIN (D16). -/
  mulOvfAtMin : Bool
  /-- m, the digit width; the radix is 2^m. -/
  m : Nat
  /-- n, the root digit count. -/
  n : Nat
  /-- Z, the guard-bit count. -/
  z : Nat
  /-- ITER_P, the practical-mode iteration count (D29). -/
  iterP : Nat
  /-- alpha and beta: the practical digit set is {-alpha..+beta}. -/
  alpha : Nat
  beta : Nat
  /-- np and ns: the residual sample has np+2 bits, the root estimate ns+1. -/
  np : Nat
  ns : Nat
  /-- FRAC_P and FRAC_S, the fractional bit counts of the samples (D33). -/
  fracP : Nat
  fracS : Nat
  /-- TROWS and TCOLS, the table dimensions. -/
  trows : Nat
  tcols : Nat
  /-- TABLE[row][col] (R28). -/
  table : Vector (Vector Int tcols) trows
  /-- ORIGIN, the table origin offset. -/
  origin : Int
  /-- SYMMETRIC, whether the table is sign-symmetric (D34). -/
  symmetric : Bool
  /-- COL_BASE, the column origin (D33). -/
  colBase : Int
  /-- OVERRIDES, in list order (D35). -/
  overrides : List Override
  /-- P_BASE and S_BASE, the sample cursor bases (D31). -/
  pBase : Int
  sBase : Int
  /-- FD_POS, FD_T3 and FD_T2, the first-digit selector (D36; any integers). -/
  fdPos : Int
  fdT3 : Int
  fdT2 : Int
  /-- RES_WIDTH_T and RES_WIDTH_P, when given (D27). -/
  resWidthT : Option Nat
  resWidthP : Option Nat
deriving DecidableEq, Repr

namespace Config

/-- The constraints on the parameters that no command checks: 1 ≤ MAX_WIDTH < 2^32 (D9), MAX_DIGITS ≥ 1 (D19),
and a given residual width is at least 1 (92_eei_decisions.md "Open parameters"). -/
def wf (c : Config) : Bool :=
  decide (1 ≤ c.maxWidth) && decide (c.maxWidth < 2 ^ 32) && decide (1 ≤ c.maxDigits) &&
    decide (c.resWidthT ≠ some 0) && decide (c.resWidthP ≠ some 0)

/-- EX1 of D44, with MAX_WIDTH = 2^20, MAX_DIGITS = 2^16 and MUL_OVF_AT_MIN = true, the values of
95_test_vectors.md where a vector names none. An example, "not part of the hardware" (D44): DESIGN CHOICE, log
entry 2. -/
def ex1 : Config where
  maxWidth := 2 ^ 20
  maxDigits := 2 ^ 16
  mulOvfAtMin := true
  m := 2
  n := 10
  z := 4
  iterP := 14
  alpha := 3
  beta := 3
  np := 8
  ns := 3
  fracP := 2
  fracS := 0
  trows := 64
  tcols := 8
  table := Vector.ofFn fun row => Vector.ofFn fun col =>
    min 3 ((4 * (63 - (row.val : Int)) + 2 * col.val + 19) / (4 * col.val + 34))
  origin := 63
  symmetric := true
  colBase := 8
  overrides := []
  pBase := 21
  sBase := -10
  fdPos := 31
  fdT3 := 3
  fdT2 := 1
  resWidthT := none
  resWidthP := none

/-- FREE VALUE (log entry 4). The bit that the random-bit source supplies at its k-th call after the bits listed in the
state (R36). No body: nothing can be proved of its values. -/
opaque furtherBit (k : Nat) : Bool

/-- FREE VALUE (log entry 17). How many draws beyond those that begin in the listed bits a RAND makes before the model
reads it as a hang (R129: "A model that runs RAND under fuel reads an exhausted fuel as a hang"). No body. -/
opaque drawFuel : Nat

end Config

end Sys2Proof
end

