-- ==== Sys2Proof/Machine/State.lean ====
section
/-! DEFINITION. The machine's state as plain data: everything 10_state.md gives the core (R20 to R38), the four
host channels (R34), and the value of it all after reset (R38). The core has no memory and no program counter
(R39, R19), so State has neither. -/

namespace Sys2Proof.Machine

/-- A bit register `(w, bits, signed, ovf, unf)` (R21). -/
structure Reg where
  w : Nat
  bits : BitVec w
  signed : Bool
  ovf : Bool
  unf : Bool
deriving DecidableEq, Repr

/-- A Digit List: the digits d_1, ..., d_count, most significant first; the count header is their number (R27, R43). -/
structure DigitList where
  digits : List Nat
deriving DecidableEq, Repr

/-- The result bits of ESR, bits 3 to 8 (R33); written only when a run completes (R92). -/
structure Report where
  resZero : Bool := false
  rootOk : Bool := false
  resOvf : Bool := false
  resUnf : Bool := false
  theoZero : Bool := false
  theoRootOk : Bool := false
deriving DecidableEq, Repr

/-- The recurrence engine's state: the items of R29, the nine engine registers of R30 (`none` where NULL) and ESR's
result bits (R33). -/
structure Engine where
  /-- ACTIVE, ESR bit 0. -/
  active : Bool
  /-- DONE, ESR bit 1. -/
  done : Bool
  /-- MODE, ESR bit 2. -/
  mode : EngineMode
  /-- EITER, iterations completed. -/
  eiter : Nat
  /-- I, the iterations of this run (ETOTAL). -/
  total : Nat
  /-- K, the subtraction alignment. -/
  k : Nat
  /-- BD, the multiplier digits of B. -/
  bd : DigitList
  /-- SD, the root digits of S·2^Z. -/
  sd : DigitList
  /-- wA, the width of the A operand. -/
  wA : Nat
  /-- ER[0], RES. -/
  res : Option Reg
  /-- ER[1], ROOT. -/
  root : Option Reg
  /-- ER[2], MC. -/
  mc : Option Reg
  /-- ER[3], SREF. -/
  sref : Option Reg
  /-- ER[4], RESP. -/
  resp : Option Reg
  /-- ER[5], Q. -/
  q : Option Reg
  /-- ER[6], QM. -/
  qm : Option Reg
  /-- ER[7], D. -/
  d : Option Reg
  /-- ER[8], DM. -/
  dm : Option Reg
  /-- ELASTD, the last digit appended to the reported root. -/
  elastd : Int
  /-- ESR bits 3 to 8. -/
  report : Report
deriving DecidableEq, Repr

/-- The fault causes (R113). -/
inductive Cause where
  | nullReg | zeroWidth | signMismatch | signRequired | bitcount | slotBusy | aliased | widthLimit
  | tableIndex | digitRange | cfgEven | cfgZm | cfgOther | digitCount | engineState
  | illegalOpcode | badField | negativeSqrt | digitIndex | nullStream | unsignedRequired
deriving DecidableEq, Repr

/-- What FSR records of a fault: CAUSE and FOP (R32). -/
structure FaultRecord where
  cause : Cause
  fop : BitVec 6
deriving DecidableEq, Repr

/-- The status of a response (R35). -/
inductive Status where
  | ok | fault | refused
deriving DecidableEq, Repr

/-- The response to one command (R35). -/
structure Response where
  status : Status
  code : BitVec 8
  value : Word
deriving DecidableEq, Repr

/-- What the host sends to the core on the command and reset channels (R34). -/
inductive HostEvent where
  /-- One 64-bit word of a command. -/
  | word (w : Word)
  /-- A reset request. -/
  | reset
deriving DecidableEq, Repr

/-- The state of the core and of its host channels. -/
structure State where
  /-- The configuration and the SRT table: static parameters no command writes (R7, R28, R38). -/
  cfg : Config
  /-- x[0..31], the register file: `none` is a free slot (R20). -/
  regs : Vector (Option Reg) 32
  /-- DS[0..3], the digit-stream buffers: `none` is EMPTY (R27). -/
  streams : Vector (Option DigitList) 4
  /-- The recurrence engine (R29). -/
  engine : Engine
  /-- FSR: `none` when not FAULTED (R32). -/
  fsr : Option FaultRecord
  /-- What the host has sent and the core has not yet taken, in the order sent (R34, R48). -/
  input : List HostEvent
  /-- The responses given, oldest first (R34, R35). -/
  responses : List Response
  /-- The bits the random-bit source will supply next, in the order drawn (R34, R36). -/
  randomBits : List Bool
  /-- The model's own: how many bits RAND has drawn past the listed random bits (log entry 4). -/
  furtherDrawn : Nat
deriving DecidableEq, Repr

/-- The reasons the machine stops. A contract violation is none of them: the core takes it (R112) and goes on. -/
inductive Fault where
  /-- Raised by RAND alone: the random-bit source never supplies an accepted pattern, so the command does not end
  (R64, R129, U5 "stuck"). Safe. -/
  | randomSourceHang
deriving DecidableEq, Repr

/-- The reasons a step is refused. -/
inductive Refusal where
  /-- Raised by exec for an instruction that has no meaning yet. Safe. No instruction is refused so. -/
  | notModelled (mnemonic : String)
  /-- Raised by step, not by an instruction: the host asserts reset between the two words of a command, which the
  spec allows only between commands and gives no effect (R124, U6). Safe. -/
  | resetDuringCommand
deriving DecidableEq, Repr

/-- The outcome of one step. -/
abbrev Answer := Host.Outcome State Fault Refusal

/-- The engine after reset: idle, every item 0 or empty, every engine register NULL (R38). -/
def Engine.reset : Engine where
  active := false
  done := false
  mode := .basic
  eiter := 0
  total := 0
  k := 0
  bd := ⟨[]⟩
  sd := ⟨[]⟩
  wA := 0
  res := none
  root := none
  mc := none
  sref := none
  resp := none
  q := none
  qm := none
  d := none
  dm := none
  elastd := 0
  report := {}

/-- The core with configuration `cfg` after reset (R38, R124), its channels empty: "all slots free, all digit-stream
buffers EMPTY, the engine idle with no registers, all CSRs 0 and the core not FAULTED". -/
def State.resetWith (cfg : Config) : State where
  cfg := cfg
  regs := Vector.replicate 32 none
  streams := Vector.replicate 4 none
  engine := Engine.reset
  fsr := none
  input := []
  responses := []
  randomBits := []
  furtherDrawn := 0

/-- The machine right after reset. Its configuration is the example EX1 (D44), where the spec leaves the choice to the
implementation: DESIGN CHOICE, unsafe, log entry 2. No claim should rest on it; `State.resetWith` is the general
case. -/
def State.reset : State := State.resetWith Config.ex1

end Sys2Proof.Machine
end

