-- ==== Sys2Proof/Machine/Flags.lean ====
section
/-! DEFINITION. The value of a register, its range, storing into it, and the sticky flags (R10, R11, R12, R24, R25).
Every flag any command sets is set by the operations of this file or by `loadBits` (R74). -/

namespace Sys2Proof.Machine

/-- A new register: all bits zero, flags clear (R61, R25). -/
def Reg.zero (w : Nat) (signed : Bool) : Reg := ⟨w, 0, signed, false, false⟩

/-- val(r) (R10). -/
def Reg.val (r : Reg) : Int :=
  if r.signed then (r.bits.toNat : Int) - (if r.bits.msb then 2 ^ r.w else 0) else r.bits.toNat

/-- `v ∈ range(w, signed)` (R11). For w ≥ 1, `-2^w ≤ 2v < 2^w` is `-2^(w-1) ≤ v ≤ 2^(w-1) - 1`. -/
def inRange (w : Nat) (signed : Bool) (v : Int) : Bool :=
  if signed then decide (-(2 ^ w : Int) ≤ 2 * v) && decide (2 * v < (2 ^ w : Int))
  else decide (0 ≤ v) && decide (v < (2 ^ w : Int))

/-- fits(r, v) (R11). -/
def Reg.fits (r : Reg) (v : Int) : Bool := inRange r.w r.signed v

/-- store(r, v): the low w bits of the two's-complement pattern of v (R11). -/
def Reg.store (r : Reg) (v : Int) : Reg := { r with bits := BitVec.ofInt r.w v }

/-- `set r.ovf if c` (R12). -/
def Reg.setOvf (r : Reg) (c : Bool) : Reg := { r with ovf := r.ovf || c }

/-- `set r.unf if c` (R12). -/
def Reg.setUnf (r : Reg) (c : Bool) : Reg := { r with unf := r.unf || c }

/-- Store an exact result, and latch overflow when it does not fit (R79, R11, R12). -/
def Reg.storeExact (r : Reg) (v : Int) : Reg := (r.store v).setOvf (!r.fits v)

end Sys2Proof.Machine
end

