-- ==== Sys2Proof/Machine/Operands.lean ====
section
/-! DEFINITION. The kernel's operations on bit registers (R68 to R84), and the forms its operands take: bit fields at
a position, literals, digit lists, random patterns. The commands (40 to 44) and the engine (45 to 47) share them. -/

namespace Sys2Proof.Machine

/-! ### Bit fields (R74, R77) -/

/-- dst's implied sign-extension value: bit w−1 when dst is signed, 0 when it is unsigned (R74). -/
def Reg.extension (r : Reg) : Bool := r.signed && r.bits.msb

/-- One source bit of `load_bits` (R74): bit `b` at position `j`; `true` when the copy aborts. -/
def Reg.loadBit (dst : Reg) (j : Nat) (b : Bool) : Reg × Bool :=
  if j < dst.w then ({ dst with bits := (dst.bits &&& ~~~BitVec.twoPow dst.w j) ||| (if b then BitVec.twoPow dst.w j else 0) }, false)
  else if b != dst.extension then (dst.setOvf true, true)
  else (dst, false)

/-- `load_bits` as R74 writes it: source bits in ascending order, stopping at the first that does not match. The
meaning uses `loadBits`, which is this in closed form. -/
def Reg.loadBitsLoop (dst : Reg) (p : Nat) : List Bool → Reg
  | [] => dst
  | b :: bs =>
    let t := dst.loadBit p b
    if t.2 then t.1 else t.1.loadBitsLoop (p + 1) bs

/-- The bits of dst with the source pattern written at p, as far as it lies below dst's width (R74). -/
def insertBits {w n : Nat} (dst : BitVec w) (src : BitVec n) (p : Nat) : BitVec w :=
  if w ≤ p then dst
  else (dst &&& ~~~((BitVec.allOnes n).setWidth w <<< p)) ||| (src.setWidth w <<< p)

/-- `load_bits(dst, src_bits, src_w, p)` (R74): the in-range source bits are written, and overflow is latched when a
source bit beyond dst's width differs from the sign-extension value dst then has. -/
def Reg.loadBits (dst : Reg) {n : Nat} (src : BitVec n) (p : Nat) : Reg :=
  let out : Reg := { dst with bits := insertBits dst.bits src p }
  let beyond := src >>> (dst.w - p)
  let expected := if out.extension then BitVec.allOnes n >>> (dst.w - p) else 0
  out.setOvf (beyond != expected)

/-- The bit of src that `extract_bits` reads at position j: zero below bit 0, sign extension above the width (R77). -/
def Reg.bitAt (src : Reg) (j : Int) : Bool :=
  if j < 0 then false
  else if j < src.w then src.bits.getLsbD j.toNat
  else src.extension

/-- The value of the bit field of src at position p, counted up from p: floor(val/2^p), or val·2^(−p) below bit 0
(R77). Positions beyond the source's width, or further below bit 0 than the sample is wide, read as the nearest that
matters. -/
def Reg.field (src : Reg) (sampleWidth : Nat) (p : Int) : Int :=
  if 0 ≤ p then src.val / 2 ^ min p.toNat src.w else src.val * 2 ^ min (-p).toNat sampleWidth

/-- `extract_bits(src, smp, p)` (R77): every bit of the sample is replaced; its mode and flags stay. -/
def Reg.extractBits (src smp : Reg) (p : Int) : Reg := smp.store (src.field smp.w p)

/-! ### Sign, compare and shift (R68 to R73) -/

/-- The absolute value in a new unsigned register with clear flags (R68). -/
def Reg.absolute (r : Reg) : Reg := (Reg.zero r.w false).store r.val.natAbs

/-- Negate in place (R69). -/
def Reg.negate (r : Reg) : Reg := r.storeExact (-r.val)

/-- The response of a three-way compare: less −1, equal 0, greater +1 (R70). -/
def compareWord (a b : Int) : Word :=
  if a < b then BitVec.allOnes 64 else if a = b then 0 else 1

/-- Shift left in place (R72). A count beyond the width acts as the width does, which keeps the exact value small. -/
def Reg.lsl (r : Reg) (n : Nat) : Reg := r.storeExact (r.val * 2 ^ min n r.w)

/-- Shift right in place: floor, and underflow when a discarded bit was 1 (R73). A count beyond the width acts as the
width does. -/
def Reg.lsr (r : Reg) (n : Nat) : Reg :=
  let k := min n r.w
  let q := r.val / 2 ^ k
  (r.store q).setUnf (decide (q * 2 ^ k ≠ r.val))

/-! ### Add, subtract, multiply, square root (R79 to R83) -/

/-- Add `sign` times the addend at bit position p, in place (R80, R81). A position beyond the width acts as the width
does. -/
def Reg.addAt (r a : Reg) (sign : Int) (p : Nat) : Reg :=
  r.storeExact (r.val + sign * (a.val * 2 ^ min p r.w))

/-- The product of two registers into a third; overflow when it does not fit, and, under MUL_OVF_AT_MIN, when a
signed product is −2^(w−1) (R82). -/
def Reg.mulInto (ovfAtMin : Bool) (r a b : Reg) : Reg :=
  let p := a.val * b.val
  (r.storeExact p).setOvf (ovfAtMin && r.signed && decide (2 * p = -(2 ^ r.w : Int)))

/-- The shift-and-test loop of R83 from trial bit 4^(k−1) downwards. -/
def isqrtLoop : Nat → Nat → Nat → Nat
  | 0, _, res => res
  | k + 1, v, res =>
    let bit := 4 ^ k
    if res + bit ≤ v then isqrtLoop k (v - (res + bit)) (res / 2 + bit)
    else isqrtLoop k v (res / 2)

/-- ⌊√v⌋ by shift-and-test, from the largest power of four ≤ v (R83). -/
def isqrt (v : Nat) : Nat := if v = 0 then 0 else isqrtLoop (v.log2 / 2 + 1) v 0

/-! ### Digit lists (R27, R84) -/

/-- Element 0 of a Digit List (R27). -/
def DigitList.count (l : DigitList) : Nat := l.digits.length

/-- Element k of a Digit List: the count at 0, digit d_k at 1..count, nothing (0) beyond (R27, R86). -/
def DigitList.element (l : DigitList) (k : Nat) : Nat := (l.count :: l.digits).getD k 0

/-- `ceil(w / bpd)` (R84). -/
def digitCount (w bpd : Nat) : Nat := (w + bpd - 1) / bpd

/-- `digit_list(r, bpd)` (R84): digits of the magnitude, most significant first. -/
def Reg.digitList (r : Reg) (bpd : Nat) : DigitList :=
  let count := digitCount r.w bpd
  ⟨(List.range count).map fun j => r.val.natAbs / 2 ^ (bpd * (count - (j + 1))) % 2 ^ bpd⟩

/-! ### Random patterns (R36, R64) -/

/-- How many 1 bits a pattern has. -/
def popcount {w : Nat} (b : BitVec w) : Nat := (List.range w).countP fun i => b.getLsbD i

/-- RAND accepts a pattern: not all zero and, for a signed register of width ≥ 2, not a single 1 bit (R64). -/
def accepted {w : Nat} (signed : Bool) (b : BitVec w) : Bool :=
  b != 0 && !(signed && decide (2 ≤ w) && popcount b == 1)

/-- The number whose bit k is the k-th bit drawn (R64). -/
def natOfBits : List Bool → Nat
  | [] => 0
  | b :: bs => b.toNat + 2 * natOfBits bs

end Sys2Proof.Machine
end

