-- ==== Sys2Proof/Machine/Ops.lean ====
section
/-! DEFINITION. The named operations over the state: register-file, buffer and CSR accesses, responses (R35), taking
a fault (R112), reset, which is the only way out of one (R111, R124), and the frame every command shares. -/

namespace Sys2Proof.Machine

/-! ### Register file and buffers (R20, R27) -/

/-- x[i] (R13). -/
def State.reg (s : State) (i : Slot) : Option Reg := s.regs[i]

/-- x[i] <- r; `none` frees the slot (R13). -/
def State.setReg (s : State) (i : Slot) (r : Option Reg) : State := { s with regs := s.regs.set i r }

/-- DS[k] (R27). -/
def State.stream (s : State) (k : StreamNo) : Option DigitList := s.streams[k]

/-- DS[k] <- l (R85). -/
def State.setStream (s : State) (k : StreamNo) (l : DigitList) : State :=
  { s with streams := s.streams.set k (some l) }

/-! ### Checks (R15) -/

/-- A check of a command's rule: `raise Fatal(c)` unless p holds. -/
def require (p : Prop) [Decidable p] (c : Cause) : Except Cause Unit := if p then .ok () else .error c

/-- The register in a slot a command names as an operand; NULL_REG when the slot is free (R22, R53). -/
def State.operand (s : State) (i : Slot) : Except Cause Reg :=
  match s.reg i with
  | some r => .ok r
  | none => .error .nullReg

/-- The slot a command fills must be free; SLOT_BUSY otherwise (R53). -/
def State.freeSlot (s : State) (i : Slot) : Except Cause Unit := require (s.reg i = none) .slotBusy

/-! ### Responses (R35) -/

/-- Give a response to the host. -/
def State.respond (s : State) (r : Response) : State := { s with responses := s.responses ++ [r] }

/-- The response of a command that completes with value v. -/
def okResponse (v : Word) : Response := ⟨.ok, 0, v⟩

/-- The response of a command refused in the FAULTED state (R112). -/
def refusedResponse : Response := ⟨.refused, 0, 0⟩

/-- The STATUS number (R35). -/
def Status.code : Status → Word
  | .ok => 0
  | .fault => 1
  | .refused => 2

/-- RESP0 = STATUS | (CODE << 8) (R35). -/
def Response.resp0 (r : Response) : Word := r.status.code ||| (r.code.setWidth 64 <<< 8)

/-- RESP1 = VALUE (R35). -/
def Response.resp1 (r : Response) : Word := r.value

/-! ### Faults and reset (R112, R113, R124) -/

/-- The fault codes (R113). -/
def Cause.code : Cause → BitVec 8
  | .nullReg => 0x01
  | .zeroWidth => 0x02
  | .signMismatch => 0x03
  | .signRequired => 0x04
  | .bitcount => 0x05
  | .slotBusy => 0x06
  | .aliased => 0x07
  | .widthLimit => 0x08
  | .tableIndex => 0x09
  | .digitRange => 0x0A
  | .cfgEven => 0x0B
  | .cfgZm => 0x0C
  | .cfgOther => 0x0D
  | .digitCount => 0x0E
  | .engineState => 0x0F
  | .illegalOpcode => 0x10
  | .badField => 0x11
  | .negativeSqrt => 0x12
  | .digitIndex => 0x13
  | .nullStream => 0x15
  | .unsignedRequired => 0x16

/-- TAKING A FAULT, the one entry every contract violation goes through (R112): FSR records CAUSE and FOP, the core is
FAULTED, the response is (FAULT, CODE, 0). There is no vector and no saved state but FSR (R116). -/
def State.takeFault (s : State) (fop : BitVec 6) (c : Cause) : State :=
  { s with fsr := some ⟨c, fop⟩ }.respond ⟨.fault, c.code, 0⟩

/-- RESET by the host, the one way out of FAULTED (R111, R124): every piece of core state gets its value of R38. The
configuration, the random-bit source and what the host has sent and received are outside the core and stay. -/
def State.hostReset (s : State) : State :=
  { State.resetWith s.cfg with
    input := s.input, responses := s.responses, randomBits := s.randomBits, furtherDrawn := s.furtherDrawn }

/-! ### The frame of a command (R15, R112) -/

/-- In the FAULTED state a command gets the response REFUSED and has no effect (R112, U3). -/
def State.unlessFaulted (s : State) (k : Answer) : Answer :=
  match s.fsr with
  | some _ => .next (s.respond refusedResponse)
  | none => k

/-- A command whose rule either completes with a new state and a response value, or raises a cause with no other
effect (R15, R112). -/
def State.command (s : State) (o : Opcode) (body : Except Cause (State × Word)) : Answer :=
  s.unlessFaulted <|
    match body with
    | .ok (t, v) => .next (t.respond (okResponse v))
    | .error c => .next (s.takeFault o.code c)

/-! ### Control and status registers (R31, R32, R33) -/

/-- A one-bit field at bit position k of a word. -/
def bitField (b : Bool) (k : Nat) : Word := (BitVec.ofBool b).setWidth 64 <<< k

/-- FSR: FAULTED at bit 0, CAUSE at 15:8, FOP at 21:16; 0 when not FAULTED (R32). -/
def fsrWord : Option FaultRecord → Word
  | none => 0
  | some f => 1 ||| (f.cause.code.setWidth 64 <<< 8) ||| (f.fop.setWidth 64 <<< 16)

/-- ESR (R33). -/
def Engine.esr (e : Engine) : Word :=
  bitField e.active 0 ||| bitField e.done 1 ||| bitField (e.mode == .practical) 2 |||
    bitField e.report.resZero 3 ||| bitField e.report.rootOk 4 ||| bitField e.report.resOvf 5 |||
    bitField e.report.resUnf 6 ||| bitField e.report.theoZero 7 ||| bitField e.report.theoRootOk 8

/-- The contents of a CSR (R31). -/
def State.csr (s : State) : Csr → Word
  | .fsr => fsrWord s.fsr
  | .esr => s.engine.esr
  | .eiter => BitVec.ofNat 64 s.engine.eiter
  | .etotal => BitVec.ofNat 64 s.engine.total
  | .elastd => BitVec.ofInt 64 s.engine.elastd

end Sys2Proof.Machine
end

