-- ==== Sys2Proof/Machine/DigitStreams.lean ====
section
/-! DEFINITION. Digit streams: DIGITS, DREAD (R85, R86). -/

namespace Sys2Proof.Machine

/-- DIGITS (R85). -/
def execDigits (ds : StreamNo) (ra : Slot) (bpd : Nat) (s : State) : Answer :=
  s.command .digits do
    let a ← s.operand ra
    require (1 ≤ bpd ∧ bpd ≤ 63) .bitcount
    require (digitCount a.w bpd ≤ s.cfg.maxDigits) .widthLimit
    return (s.setStream ds (a.digitList bpd), 0)

/-- The digit list of a buffer; NULL_STREAM when it is EMPTY (R86). -/
def State.streamOperand (s : State) (ds : StreamNo) : Except Cause DigitList :=
  match s.stream ds with
  | some l => .ok l
  | none => .error .nullStream

/-- DREAD (R86). -/
def execDread (ds : StreamNo) (i : Nat) (s : State) : Answer :=
  s.command .dread do
    let l ← s.streamOperand ds
    require (i ≤ l.count) .digitIndex
    return (s, BitVec.ofNat 64 (l.element i))

end Sys2Proof.Machine
end

