-- ==== Sys2Proof/Machine/EngineConstants.lean ====
section
/-! DEFINITION. The engine's derived constants (R8, R88) and the widths of its registers (R30). -/

namespace Sys2Proof

/-- ov = ⌈Z/m⌉ (R8). -/
def Config.overhead (c : Config) : Nat := (c.z + c.m - 1) / c.m

/-- delta = ⌊Z/m⌋ + 1 (R8). -/
def Config.delta (c : Config) : Nat := c.z / c.m + 1

/-- I: n + ov in basic mode, ITER_P in practical mode (R8, C5). -/
def Config.iterations (c : Config) : EngineMode → Nat
  | .basic => c.n + c.overhead
  | .practical => c.iterP

/-- K = m·(2·I + 1 − n) − 2·Z (R88). -/
def Config.alignment (c : Config) (total : Nat) : Int := (c.m : Int) * (2 * total + 1 - c.n) - 2 * c.z

/-- WRT, the width of RES (R30). -/
def Config.resWidth (c : Config) (total wA wB wS : Nat) : Nat :=
  c.resWidthT.getD (1 + c.m * (2 * total + 1 - c.n) + max (wA + wB) (2 * wS))

/-- WRP, the width of RESP (R30). -/
def Config.respWidth (c : Config) (total k wA wB : Nat) : Nat :=
  c.resWidthP.getD (1 + max (wA + wB + c.m * (2 * total + 1 - c.n)) (k + 2 * c.m * total))

/-- The widest register a run creates (R89 check 8). -/
def Config.widestRegister (c : Config) (mode : EngineMode) (wA wB wS : Nat) : Nat :=
  let total := c.iterations mode
  let k := (c.alignment total).toNat
  let common :=
    max (max (max (c.resWidth total wA wB wS) (c.m * total + c.m + 1)) (max (wA + c.m * total) (wA + c.m * (total - 1))))
      (wS + c.z)
  match mode with
  | .basic => common
  | .practical => max common (max (c.respWidth total k wA wB) (c.m * total + c.m + 4))

end Sys2Proof
end

