-- ==== Sys2Proof/Machine/EngineBasic.lean ====
section
/-! DEFINITION. The basic update, which is also the theoretical track of practical mode (R95, R96). -/

namespace Sys2Proof.Machine

/-- t_i, the precomputed root digit of iteration i: SD padded with leading zeros to I digits (R95). -/
def Engine.rootDigit (e : Engine) (i : Nat) : Nat :=
  let j : Int := (i : Int) - ((e.total : Int) - e.sd.count)
  if 1 ≤ j ∧ j ≤ e.sd.count then e.sd.element j.toNat else 0

/-- UT = [2·ROOT·r | t], the doubled shifted root with the digit appended (R96). -/
def rootTerm (c : Config) (total t : Nat) (root : Reg) : Reg :=
  ((Reg.zero (c.m * total + 1) false).loadBits root.bits (c.m + 1)).loadBits (BitVec.ofNat c.m t) 0

/-- LQT = t·(2·ROOT·r + t), the linear-quadratic term (R96). -/
def linearQuadratic (c : Config) (total t : Nat) (root : Reg) : Reg :=
  Reg.mulInto c.mulOvfAtMin (Reg.zero (c.m * total + c.m + 1) false) ((Reg.zero c.m false).store t)
    (rootTerm c total t root)

/-- The basic update of one iteration with digit t and partial product PP: the new RES and ROOT (R96). -/
def basicUpdate (c : Config) (total k t : Nat) (pp res root : Reg) : Reg × Reg :=
  let shifted := (res.lsl (2 * c.m)).addAt pp 1 c.m
  (shifted.addAt (linearQuadratic c total t root) (-1) k, (root.lsl c.m).loadBits (BitVec.ofNat c.m t) 0)

end Sys2Proof.Machine
end

