-- ==== Sys2Proof/Machine/EnginePractical.lean ====
section
/-! DEFINITION. The practical update: digit selection from the SRT table, the practical residual and the on-the-fly
digit-set conversion (R99 to R105). -/

namespace Sys2Proof.Machine

/-- The practical registers RESP, Q, QM, D, DM (R30). -/
structure Practical where
  resp : Reg
  q : Reg
  qm : Reg
  d : Reg
  dm : Reg
deriving DecidableEq, Repr

/-! ### Digit selection (R100 to R104) -/

/-- The first-digit selector (R101). -/
def firstDigit (c : Config) (resp : Reg) : Int :=
  let f : Int := (resp.extractBits (Reg.zero 3 false) c.fdPos).bits.toNat
  if c.fdT3 ≤ f then 3 else if c.fdT2 ≤ f then 2 else 1

/-- The samples P and S· of iteration i: read at the cursors, and one bit lower when the loose bit is 0 (R102). -/
def samples (c : Config) (i : Nat) (resp q : Reg) : Reg × Reg :=
  let pS := c.sBase + c.m * i
  let pP := c.pBase + c.m * i
  let first := q.extractBits (Reg.zero (c.ns + 1) false) pS
  if first.bits.getLsbD c.ns then (resp.extractBits (Reg.zero (c.np + 2) true) pP, first)
  else (resp.extractBits (Reg.zero (c.np + 2) true) (pP - 1), q.extractBits first (pS - 1))

/-- The row after the overrides: the first one for this iteration and row replaces it (R103, D35). -/
def overriddenRow (c : Config) (i : Nat) (row : Int) : Int :=
  match c.overrides.find? fun o => o.iteration == i && o.fromRow == row with
  | some o => o.toRow
  | none => row

/-- TABLE[row][col]; TABLE_INDEX when either index is out of bounds (R103, R28). -/
def tableEntry (c : Config) (row col : Int) : Except Cause Int :=
  if h : (0 ≤ row ∧ row < c.trows) ∧ (0 ≤ col ∧ col < c.tcols) then
    .ok ((c.table[row.toNat]'(by omega))[col.toNat]'(by omega))
  else .error .tableIndex

/-- The table lookup of iteration i (R103). -/
def tableDigit (c : Config) (i : Nat) (resp q : Reg) : Except Cause Int := do
  let sample := samples c i resp q
  let region := sample.1.val / 2 ^ c.fracP
  let col := (sample.2.bits.toNat : Int) / 2 ^ c.fracS - c.colBase
  let row := if c.symmetric then c.origin - region.natAbs else c.origin - region
  let d ← tableEntry c (overriddenRow c i row) col
  return if c.symmetric && decide (region < 0) then -d else d

/-- The digit selected in iteration i, before its range check (R100). -/
def unchecked (c : Config) (i : Nat) (resp q : Reg) : Except Cause Int :=
  if i < c.delta then .ok 0
  else if i = c.delta then .ok (firstDigit c resp)
  else tableDigit c i resp q

/-- select(i): the selected digit, which must lie in [−alpha, +beta] (R100, R104). -/
def selectDigit (c : Config) (i : Nat) (resp q : Reg) : Except Cause Int := do
  let d ← unchecked c i resp q
  require (-(c.alpha : Int) ≤ d ∧ d ≤ c.beta) .digitRange
  return d

/-! ### On-the-fly conversion (R105) -/

/-- A register of the given width and signed mode, filled with [seed | digit]: the seed's bits from position m up and
the m-bit digit below (R99, R105). -/
def appended (m width : Nat) (seed : Reg) (digit : Int) : Reg :=
  ((Reg.zero width true).loadBits seed.bits m).loadBits (BitVec.ofInt m digit) 0

/-- Write a temporary back into its persistent register: the bits are replaced, the flags are kept and joined
(R105). -/
def Reg.writeBack (x t : Reg) : Reg :=
  { w := t.w, bits := t.bits, signed := x.signed, ovf := x.ovf || t.ovf, unf := x.unf || t.unf }

/-- The next direct root [Q | d] or [QM | r+d] (R105). -/
def nextRoot (c : Config) (total : Nat) (p : Practical) (d : Int) : Reg :=
  if 0 ≤ d then appended c.m (c.m * total + 1) p.q d else appended c.m (c.m * total + 1) p.qm (2 ^ c.m + d)

/-- The next shadow root [Q | d−1] or [QM | r+d−1]; its own test is d > 0 (R105, C6). -/
def nextShadow (c : Config) (total : Nat) (p : Practical) (d : Int) : Reg :=
  if 0 < d then appended c.m (c.m * total + 1) p.q (d - 1)
  else appended c.m (c.m * total + 1) p.qm (2 ^ c.m + d - 1)

/-- The conversion of an iteration with selected digit d (R105). RESP is not part of it. -/
def convert (c : Config) (total : Nat) (p : Practical) (d : Int) : Practical :=
  let qn := nextRoot c total p d
  let qmn := nextShadow c total p d
  let dn := (Reg.zero (c.m * total + 2) true).loadBits qn.bits 1
  let dmn := ((Reg.zero (c.m * total + 2) true).loadBits qmn.bits 1).loadBits (1 : BitVec 1) 0
  { p with q := p.q.writeBack qn, qm := p.qm.writeBack qmn, d := p.d.writeBack dn, dm := p.dm.writeBack dmn }

/-! ### The practical update (R99) -/

/-- U = [D | d] or [DM | r+d], which is 2·r·Q + d (R99, R106). -/
def doubledTerm (c : Config) (total : Nat) (p : Practical) (d : Int) : Reg :=
  if 0 ≤ d then appended c.m (c.m * total + 3) p.d d else appended c.m (c.m * total + 3) p.dm (2 ^ c.m + d)

/-- LQ = d·U, the linear-quadratic term (R99). -/
def practicalQuadratic (c : Config) (total : Nat) (p : Practical) (d : Int) : Reg :=
  Reg.mulInto c.mulOvfAtMin (Reg.zero (c.m * total + c.m + 4) true) ((Reg.zero (c.m + 1) true).store d)
    (doubledTerm c total p d)

/-- The practical update of iteration i with partial product PP: the new practical registers and the selected digit
(R99). -/
def practicalUpdate (c : Config) (total k i : Nat) (pp : Reg) (p : Practical) : Except Cause (Practical × Int) := do
  let shifted := (p.resp.lsl (2 * c.m)).addAt pp 1 c.m
  let d ← selectDigit c i shifted p.q
  let resp := shifted.addAt (practicalQuadratic c total p d) (-1) k
  return ({ convert c total p d with resp := resp }, d)

end Sys2Proof.Machine
end

