-- ==== Sys2Proof/Machine/EngineCommon.lean ====
section
/-! DEFINITION. The recurrence engine's common part: ESTART, ESTEP, ERUN, EGET (R87 to R94). -/

namespace Sys2Proof.Machine

/-! ### Starting a run (R89) -/

/-- The checks of ESTART after its operands are found, in order (R89, checks 2 to 8). R7 types Z, np, ns, FRAC_P and
FRAC_S as natural numbers, so the checks that they are not negative always pass (log entry 3). -/
def startChecks (c : Config) (mode : EngineMode) (a b s : Reg) : Except Cause Unit := do
  let total := c.iterations mode
  require (1 ≤ c.m ∧ c.m ≤ 32 ∧ 1 ≤ c.n) .cfgOther
  require (mode = .practical →
    c.alpha < 2 ^ c.m ∧ c.beta < 2 ^ c.m ∧ c.delta ≤ c.iterP ∧ 1 ≤ c.trows ∧ 1 ≤ c.tcols) .cfgOther
  require (c.n * c.m % 2 = 0) .cfgEven
  require (mode = .practical → c.m ≤ c.z) .cfgZm
  require (a.signed = false ∧ b.signed = false ∧ s.signed = false) .unsignedRequired
  require (digitCount b.w c.m = c.n) .digitCount
  require (mode = .basic → digitCount (s.w + c.z) c.m = total) .digitCount
  require (0 ≤ c.alignment total) .cfgOther
  require (c.widestRegister mode a.w b.w s.w ≤ c.maxWidth) .widthLimit

/-- SZ = S·2^Z (R89). -/
def paddedRoot (c : Config) (s : Reg) : Reg := (Reg.zero (s.w + c.z) false).loadBits s.bits c.z

/-- The engine at the start of a run (R89). -/
def startEngine (c : Config) (mode : EngineMode) (a b s : Reg) : Engine :=
  let total := c.iterations mode
  let k := (c.alignment total).toNat
  let bd := b.digitList c.m
  let first : Int := bd.element 1 * a.val
  let practical (r : Reg) : Option Reg := if mode = .practical then some r else none
  { active := true
    done := false
    mode := mode
    eiter := 0
    total := total
    k := k
    bd := bd
    sd := (paddedRoot c s).digitList c.m
    wA := a.w
    res := some ((Reg.zero (c.resWidth total a.w b.w s.w) true).storeExact first)
    root := some (Reg.zero (c.m * total) false)
    mc := some ((Reg.zero (a.w + c.m * (total - 1)) false).store a.val)
    sref := some { Reg.zero s.w false with bits := s.bits }
    resp := practical ((Reg.zero (c.respWidth total k a.w b.w) true).storeExact first)
    q := practical (Reg.zero (c.m * total + 1) true)
    qm := practical ((Reg.zero (c.m * total + 1) true).store (-1))
    d := practical (Reg.zero (c.m * total + 2) true)
    dm := practical ((Reg.zero (c.m * total + 2) true).store (-1))
    elastd := 0
    report := {} }

/-- The engine that ESTART leaves, or the cause it raises (R89). -/
def State.startRun (s : State) (ra rb rd : Slot) (mode : EngineMode) : Except Cause Engine := do
  let a ← s.operand ra
  let b ← s.operand rb
  let d ← s.operand rd
  startChecks s.cfg mode a b d
  return startEngine s.cfg mode a b d

/-! ### One iteration (R90, R91, R92) -/

/-- An engine register that must be allocated; ENGINE_STATE when it is NULL (R94). -/
def allocated (r : Option Reg) : Except Cause Reg :=
  match r with
  | some x => .ok x
  | none => .error .engineState

/-- The next multiplier digit of iteration i, b_(i+1), 0 beyond n (R90, D28). -/
def Engine.multiplierDigit (c : Config) (e : Engine) (i : Nat) : Nat :=
  if i + 1 ≤ c.n then e.bd.element (i + 1) else 0

/-- The partial product PP = b·MC in wA + m·I bits (R90). -/
def Engine.partialProduct (c : Config) (e : Engine) (i : Nat) (mc : Reg) : Reg :=
  Reg.mulInto c.mulOvfAtMin (Reg.zero (e.wA + c.m * e.total) false)
    ((Reg.zero c.m false).store (e.multiplierDigit c i)) mc

/-- A track's success criteria: its residual is zero, and its root without the guard bits is S (R92). -/
def trackOk (c : Config) (res root sref : Reg) : Bool × Bool :=
  (decide (res.val = 0), decide (root.val / 2 ^ c.z = sref.val))

/-- The success criteria of the theoretical track of a practical run. When c > I the top c − I digits of S·2^Z are never
fed and THEO_ROOT_OK reads 0 (R92, and R95 with 90_conflicts.md C4 for that case). -/
def Engine.theoryOk (c : Config) (e : Engine) (res root sref : Reg) : Bool × Bool :=
  let ok := trackOk c res root sref
  (ok.1, decide (e.sd.count ≤ e.total) && ok.2)

/-- The terminal evaluation from the reported residual and root, and THEO_ZERO and THEO_ROOT_OK, which are 0 in basic
mode (R92). -/
def terminalReport (c : Config) (res root sref : Reg) (theo : Bool × Bool) : Report :=
  let main := trackOk c res root sref
  { resZero := main.1, rootOk := main.2, resOvf := res.ovf, resUnf := res.unf, theoZero := theo.1, theoRootOk := theo.2 }

/-- Commit iteration i: EITER, ELASTD and MC advance (R90, R91), and the last iteration ends the run (R92). -/
def Engine.finish (c : Config) (e : Engine) (i : Nat) (digit : Int) (mc : Reg) (report : Report) : Engine :=
  if i = e.total then
    { e with eiter := i, elastd := digit, mc := some mc, report := report, active := false, done := true }
  else { e with eiter := i, elastd := digit, mc := some (mc.lsl c.m) }

/-- An iteration of a basic run: RES and ROOT (R90, R96). -/
def Engine.basicIteration (c : Config) (e : Engine) (res root mc sref : Reg) : Engine :=
  let i := e.eiter + 1
  let t := e.rootDigit i
  let new := basicUpdate c e.total e.k t (e.partialProduct c i mc) res root
  Engine.finish c { e with res := some new.1, root := some new.2 } i t mc (terminalReport c new.1 new.2 sref (false, false))

/-- An iteration of a practical run: the theoretical track, then the practical one (R90, R99, R107). -/
def Engine.practicalIteration (c : Config) (e : Engine) (res root mc sref : Reg) (p : Practical) :
    Except Cause Engine := do
  let i := e.eiter + 1
  let pp := e.partialProduct c i mc
  let new := basicUpdate c e.total e.k (e.rootDigit i) pp res root
  let out ← practicalUpdate c e.total e.k i pp p
  let x := out.1
  return Engine.finish c
    { e with
      res := some new.1, root := some new.2, resp := some x.resp, q := some x.q, qm := some x.qm, d := some x.d,
      dm := some x.dm }
    i out.2 mc (terminalReport c x.resp x.q sref (e.theoryOk c new.1 new.2 sref))

/-- The practical registers of a run (R30). -/
def Engine.practicalRegs (e : Engine) : Except Cause Practical := do
  return ⟨← allocated e.resp, ← allocated e.q, ← allocated e.qm, ← allocated e.d, ← allocated e.dm⟩

/-- Iteration EITER + 1, computed whole before anything is committed (R90). An active run has its registers allocated
(R30); a state without them, which no run reaches, is ENGINE_STATE like one with no run (log entry 5). -/
def Engine.iterate (c : Config) (e : Engine) : Except Cause Engine := do
  require (e.active = true) .engineState
  let res ← allocated e.res
  let root ← allocated e.root
  let mc ← allocated e.mc
  let sref ← allocated e.sref
  match e.mode with
  | .basic => return e.basicIteration c res root mc sref
  | .practical => e.practicalIteration c res root mc sref (← e.practicalRegs)

/-- `while ACTIVE: ESTEP` (R93): the engine after the last committed iteration, and the cause of the one that raised,
if any. The first argument bounds the iterations. -/
def Engine.runToEnd (c : Config) : Nat → Engine → Engine × Option Cause
  | 0, e => (e, none)
  | fuel + 1, e =>
    if e.active then
      match e.iterate c with
      | .ok e' => Engine.runToEnd c fuel e'
      | .error cause => (e, some cause)
    else (e, none)

/-! ### The commands -/

/-- ESTART (R89). -/
def execEstart (ra rb rd : Slot) (mode : EngineMode) (s : State) : Answer :=
  s.command .estart do
    let e ← s.startRun ra rb rd mode
    return ({ s with engine := e }, 0)

/-- ESTEP (R90). -/
def execEstep (s : State) : Answer :=
  s.command .estep do
    let e ← s.engine.iterate s.cfg
    return ({ s with engine := e }, 0)

/-- ERUN (R93): ESTART, then every iteration. A fault in iteration j leaves iterations 1 to j−1 committed. -/
def execErun (ra rb rd : Slot) (mode : EngineMode) (s : State) : Answer :=
  s.unlessFaulted <|
    match s.startRun ra rb rd mode with
    | .error c => .next (s.takeFault (Opcode.code .erun) c)
    | .ok e =>
      let run := Engine.runToEnd s.cfg e.total e
      let t := { s with engine := run.1 }
      match run.2 with
      | none => .next (t.respond (okResponse 0))
      | some c => .next (t.takeFault (Opcode.code .erun) c)

/-- ER[sel] (R30). -/
def Engine.register (e : Engine) : EngineSel → Option Reg
  | .res => e.res
  | .root => e.root
  | .mc => e.mc
  | .sref => e.sref
  | .resp => e.resp
  | .q => e.q
  | .qm => e.qm
  | .d => e.d
  | .dm => e.dm

/-- EGET (R94). -/
def execEget (rd : Slot) (sel : EngineSel) (s : State) : Answer :=
  s.command .eget do
    s.freeSlot rd
    let r ← allocated (s.engine.register sel)
    return (s.setReg rd (some r), 0)

end Sys2Proof.Machine
end

