-- ==== Sys2Proof/Machine/KernelAddMul.lean ====
section
/-! DEFINITION. Kernel add, subtract, multiply and integer square root: ADD, SUB, MUL, ISQRT (R80 to R83). -/

namespace Sys2Proof.Machine

/-- ADD (R80). -/
def execAdd (rd ra : Slot) (pos : Nat) (s : State) : Answer :=
  s.command .add do
    let a ← s.operand ra
    let r ← s.operand rd
    require (rd ≠ ra) .aliased
    return (s.setReg rd (some (r.addAt a 1 pos)), 0)

/-- SUB (R81). -/
def execSub (rd ra : Slot) (pos : Nat) (s : State) : Answer :=
  s.command .sub do
    let a ← s.operand ra
    let r ← s.operand rd
    require (rd ≠ ra) .aliased
    return (s.setReg rd (some (r.addAt a (-1) pos)), 0)

/-- MUL (R82). -/
def execMul (rd ra rb : Slot) (s : State) : Answer :=
  s.command .mul do
    let a ← s.operand ra
    let b ← s.operand rb
    let r ← s.operand rd
    require (rd ≠ ra ∧ rd ≠ rb) .aliased
    require ((a.signed || b.signed) = true → r.signed = true) .signRequired
    return (s.setReg rd (some (Reg.mulInto s.cfg.mulOvfAtMin r a b)), 0)

/-- ISQRT (R83). -/
def execIsqrt (rd ra : Slot) (s : State) : Answer :=
  s.command .isqrt do
    let a ← s.operand ra
    s.freeSlot rd
    require (0 ≤ a.val) .negativeSqrt
    return (s.setReg rd (some ((Reg.zero a.w false).store (isqrt a.val.toNat))), 0)

end Sys2Proof.Machine
end

