-- ==== Sys2Proof/Machine/KernelArith.lean ====
section
/-! DEFINITION. Kernel sign, compare and shift: ABS, NEG, CMP, CMPC, LSL, LSR (R68 to R73). -/

namespace Sys2Proof.Machine

/-- ABS (R68). -/
def execAbs (rd ra : Slot) (s : State) : Answer :=
  s.command .abs do
    let a ← s.operand ra
    s.freeSlot rd
    return (s.setReg rd (some a.absolute), 0)

/-- NEG (R69). -/
def execNeg (rd : Slot) (s : State) : Answer :=
  s.command .neg do
    let r ← s.operand rd
    require (r.signed = true) .signRequired
    return (s.setReg rd (some r.negate), 0)

/-- CMP (R70). -/
def execCmp (ra rb : Slot) (s : State) : Answer :=
  s.command .cmp do
    let a ← s.operand ra
    let b ← s.operand rb
    return (s, compareWord a.val b.val)

/-- CMPC (R71). -/
def execCmpc (ra : Slot) (k : Int) (s : State) : Answer :=
  s.command .cmpc do
    let a ← s.operand ra
    return (s, compareWord a.val k)

/-- LSL (R72). -/
def execLsl (rd : Slot) (n : Nat) (s : State) : Answer :=
  s.command .lsl do
    let r ← s.operand rd
    return (s.setReg rd (some (r.lsl n)), 0)

/-- LSR (R73). -/
def execLsr (rd : Slot) (n : Nat) (s : State) : Answer :=
  s.command .lsr do
    let r ← s.operand rd
    return (s.setReg rd (some (r.lsr n)), 0)

end Sys2Proof.Machine
end

