-- ==== Sys2Proof/Machine/KernelLoadExtract.lean ====
section
/-! DEFINITION. Kernel bit-field load and extract: LOAD, LOADC, EXTRACT (R75, R76, R78). -/

namespace Sys2Proof.Machine

/-- LOAD (R75). -/
def execLoad (rd ra : Slot) (pos : Nat) (s : State) : Answer :=
  s.command .load do
    let a ← s.operand ra
    let d ← s.operand rd
    require (rd ≠ ra) .aliased
    require (a.signed = d.signed) .signMismatch
    return (s.setReg rd (some (d.loadBits a.bits pos)), 0)

/-- LOADC (R76). -/
def execLoadc (rd : Slot) (value : Word) (pos bitcount : Nat) (s : State) : Answer :=
  s.command .loadc do
    let d ← s.operand rd
    require (1 ≤ bitcount ∧ bitcount ≤ 64) .bitcount
    return (s.setReg rd (some (d.loadBits (value.setWidth bitcount) pos)), 0)

/-- EXTRACT (R78). -/
def execExtract (ra rd : Slot) (pos : Int) (s : State) : Answer :=
  s.command .extract do
    let a ← s.operand ra
    let d ← s.operand rd
    require (rd ≠ ra) .aliased
    return (s.setReg rd (some (a.extractBits d pos)), 0)

end Sys2Proof.Machine
end

