-- ==== Sys2Proof/Machine/KernelRegisters.lean ====
section
/-! DEFINITION. Kernel register management: CREATE, FREE, DUP, RAND, SETSIGN, RDST, RDW (R61 to R67). -/

namespace Sys2Proof.Machine

/-- CREATE (R61). -/
def execCreate (rd : Slot) (width : Nat) (s : State) : Answer :=
  s.command .create do
    s.freeSlot rd
    require (width ≠ 0) .zeroWidth
    require (width ≤ s.cfg.maxWidth) .widthLimit
    return (s.setReg rd (some (Reg.zero width false)), 0)

/-- FREE (R62). -/
def execFree (rd : Slot) (s : State) : Answer :=
  s.command .free do
    let _ ← s.operand rd
    return (s.setReg rd none, 0)

/-- DUP (R63). -/
def execDup (rd ra : Slot) (s : State) : Answer :=
  s.command .dup do
    let a ← s.operand ra
    s.freeSlot rd
    return (s.setReg rd (some a), 0)

/-- The bit that the random-bit source supplies k calls from now: the listed bits, then the free ones (R36, log
entry 4). -/
def State.sourceBit (s : State) (k : Nat) : Bool :=
  s.randomBits.getD k (Config.furtherBit (s.furtherDrawn + (k - s.randomBits.length)))

/-- The random-bit channel after n calls. -/
def State.skipBits (s : State) (n : Nat) : State :=
  { s with randomBits := s.randomBits.drop n, furtherDrawn := s.furtherDrawn + (n - s.randomBits.length) }

/-- `draw RNG(w)`: the next w bits of the source, the first bit drawn becoming bit 0 (R64). -/
def State.drawPattern (s : State) (w : Nat) : BitVec w := BitVec.ofNat w (natOfBits ((List.range w).map s.sourceBit))

/-- Rejection sampling (R64): the first accepted draw and the channel after it; none when the fuel is exhausted. -/
def State.sample (w : Nat) (signed : Bool) : Nat → State → Option (BitVec w × State)
  | 0, _ => none
  | fuel + 1, s =>
    if accepted signed (s.drawPattern w) then some (s.drawPattern w, s.skipBits w)
    else State.sample w signed fuel (s.skipBits w)

/-- The pattern RAND stores and the channel after it (R64). Every draw that begins in the listed bits, or right after
them, is made; beyond them RAND runs under fuel (R129, log entry 17). -/
def State.randomPattern (s : State) (w : Nat) (signed : Bool) : Option (BitVec w × State) :=
  State.sample w signed (Config.drawFuel + (s.randomBits.length + 1)) s

/-- RAND (R64). A source that never supplies an accepted pattern makes it run forever (R129, U5 "stuck"). -/
def execRand (rd : Slot) (s : State) : Answer :=
  s.unlessFaulted <|
    match s.reg rd with
    | none => .next (s.takeFault (Opcode.code .rand) .nullReg)
    | some r =>
      match s.randomPattern r.w r.signed with
      | some (b, t) => .next ((t.setReg rd (some { r with bits := b })).respond (okResponse 0))
      | none => .fault .randomSourceHang

/-- SETSIGN (R65). -/
def execSetsign (rd : Slot) (signed : Bool) (s : State) : Answer :=
  s.command .setsign do
    let r ← s.operand rd
    return (s.setReg rd (some { r with signed := signed }), 0)

/-- The status word of a register (R66). -/
def Reg.statusWord (r : Reg) : Word :=
  BitVec.ofNat 64 r.w ||| bitField r.signed 32 ||| bitField r.ovf 33 ||| bitField r.unf 34

/-- RDST (R66). -/
def execRdst (ra : Slot) (s : State) : Answer :=
  s.command .rdst do
    let r ← s.operand ra
    return (s, r.statusWord)

/-- Word k of a register, bits 64k+63 to 64k, raw; 0 past the last word (R67, R44). -/
def Reg.word (r : Reg) (k : Nat) : Word :=
  if r.w ≤ 64 * k then 0 else BitVec.ofNat 64 (r.bits.toNat / 2 ^ (64 * k))

/-- RDW (R67). -/
def execRdw (ra : Slot) (k : Nat) (s : State) : Answer :=
  s.command .rdw do
    let r ← s.operand ra
    return (s, r.word k)

end Sys2Proof.Machine
end

