-- ==== Sys2Proof/Machine/System.lean ====
section
/-! DEFINITION. System commands: RDCSR (R109), the one command the core executes in the FAULTED state. -/

namespace Sys2Proof.Machine

/-- RDCSR (R109). -/
def execRdcsr (csr : Csr) (s : State) : Answer := .next (s.respond (okResponse (s.csr csr)))

end Sys2Proof.Machine
end

