-- ==== Sys2Proof/Machine/Dispatch.lean ====
section
/-! DEFINITION. One arm per row of the opcode table: every command has its meaning. -/

namespace Sys2Proof.Machine

/-- What a command does (R61 to R109). -/
def exec (i : Instr) (s : State) : Host.Outcome State Fault Refusal :=
  match i with
  | .create rd width => Sys2Proof.Machine.execCreate rd width s
  | .free rd => Sys2Proof.Machine.execFree rd s
  | .dup rd ra => Sys2Proof.Machine.execDup rd ra s
  | .rand rd => Sys2Proof.Machine.execRand rd s
  | .setsign rd signed => Sys2Proof.Machine.execSetsign rd signed s
  | .rdst ra => Sys2Proof.Machine.execRdst ra s
  | .rdw ra k => Sys2Proof.Machine.execRdw ra k s
  | .abs rd ra => Sys2Proof.Machine.execAbs rd ra s
  | .neg rd => Sys2Proof.Machine.execNeg rd s
  | .cmp ra rb => Sys2Proof.Machine.execCmp ra rb s
  | .cmpc ra k => Sys2Proof.Machine.execCmpc ra k s
  | .lsl rd n => Sys2Proof.Machine.execLsl rd n s
  | .lsr rd n => Sys2Proof.Machine.execLsr rd n s
  | .load rd ra pos => Sys2Proof.Machine.execLoad rd ra pos s
  | .loadc rd value pos bitcount => Sys2Proof.Machine.execLoadc rd value pos bitcount s
  | .extract ra rd pos => Sys2Proof.Machine.execExtract ra rd pos s
  | .add rd ra pos => Sys2Proof.Machine.execAdd rd ra pos s
  | .sub rd ra pos => Sys2Proof.Machine.execSub rd ra pos s
  | .mul rd ra rb => Sys2Proof.Machine.execMul rd ra rb s
  | .isqrt rd ra => Sys2Proof.Machine.execIsqrt rd ra s
  | .digits ds ra bpd => Sys2Proof.Machine.execDigits ds ra bpd s
  | .dread ds k => Sys2Proof.Machine.execDread ds k s
  | .estart ra rb rd mode => Sys2Proof.Machine.execEstart ra rb rd mode s
  | .estep => Sys2Proof.Machine.execEstep s
  | .erun ra rb rd mode => Sys2Proof.Machine.execErun ra rb rd mode s
  | .eget rd sel => Sys2Proof.Machine.execEget rd sel s
  | .rdcsr csr => Sys2Proof.Machine.execRdcsr csr s

end Sys2Proof.Machine
end

