-- ==== Sys2Proof/Machine/Fetch.lean ====
section
/-! DEFINITION. Taking the next command from the host's channel (R34, R51), and what the core does with words that are
not an instruction (R58, R112). -/

namespace Sys2Proof.Machine

/-- What the core finds on the command and reset channels. -/
inductive Fetched where
  /-- No complete command yet: the core waits (R123, R124). -/
  | waiting
  /-- A reset request; the state has it taken off the channel. -/
  | reset (s : State)
  /-- A command: header, extension word (0 for a one-word command), and the state with its words taken off. -/
  | command (h x : Word) (s : State)
  /-- A reset request between the two words of a command (U6). -/
  | resetDuringCommand

/-- Take the next event: OP alone says whether the header is followed by an extension word (R51). -/
def fetch (s : State) : Fetched :=
  match s.input with
  | [] => .waiting
  | .reset :: rest => .reset { s with input := rest }
  | .word h :: rest =>
    if twoWords (Header.unpack h).op then
      match rest with
      | [] => .waiting
      | .reset :: _ => .resetDuringCommand
      | .word x :: rest' => .command h x { s with input := rest' }
    else .command h 0 { s with input := rest }

/-- The cause a decode failure raises (R58, R113). -/
def causeOf : DecodeError → Cause
  | .illegalOpcode => .illegalOpcode
  | .badField => .badField

/-- A command that does not decode: its fault is taken with FOP the header's OP; in the FAULTED state it is refused
like any other, and FSR keeps the first fault (R58, R109, R112). -/
def rejectCommand (h : Word) (e : DecodeError) (s : State) : Answer :=
  s.unlessFaulted (.next (s.takeFault (Header.unpack h).op (causeOf e)))

/-- The host events that send the command of an opcode-table word: its header and, where OP asks for one, its
extension word (R51). -/
def tableEvents (nbits w : Nat) : List HostEvent :=
  let hx := tableWords nbits w
  if twoWords (Header.unpack hx.1).op then [.word hx.1, .word hx.2] else [.word hx.1]

end Sys2Proof.Machine
end

