-- ==== Sys2Proof/Machine/Step.lean ====
section
/-! DEFINITION. One step of the machine: the next command the host has sent, or its reset request, or waiting. -/

namespace Sys2Proof.Machine

/-- A decoded command runs; words that are not an instruction are rejected (R58). -/
def runCommand (h x : Word) (s : State) : Host.Outcome State Fault Refusal :=
  match decode h x with
  | .ok i => exec i s
  | .error e => rejectCommand h e s

/-- One step (R18, R47, R128): each command is one step; a core with no complete command waits in its state (R123). -/
def step (s : State) : Host.Outcome State Fault Refusal :=
  match fetch s with
  | .waiting => .next s
  | .reset t => .next t.hostReset
  | .command h x t => runCommand h x t
  | .resetDuringCommand => .refused .resetDuringCommand

/-- `s` with the instruction of an opcode-table word sent by the host ahead of everything else it has sent, so that
`step` takes and runs exactly it (log entry 1). -/
def State.withFetchWord (s : State) (nbits w : Nat) : State := { s with input := tableEvents nbits w ++ s.input }

end Sys2Proof.Machine
end

