-- ==== Sys2Proof/Safety.lean ====
section
/-! DEFINITION. What claims are stated in: the invariant of the machine, which registers a command may write, and what
a failed session is. -/

namespace Sys2Proof.Machine

/-! ### The invariant -/

/-- A register's width lies in 1..MAX_WIDTH (R21, R22). Its bits are below 2^w by their type. -/
def Reg.Ok (c : Config) (r : Reg) : Prop := 1 ≤ r.w ∧ r.w ≤ c.maxWidth

/-- A buffer's list has 1..MAX_DIGITS digits, each a non-negative machine integer (R27, R55, R85). -/
def DigitList.Ok (c : Config) (l : DigitList) : Prop :=
  1 ≤ l.count ∧ l.count ≤ c.maxDigits ∧ ∀ x ∈ l.digits, x < 2 ^ 63

/-- An engine register is allocated with the given sign mode and, where the spec fixes it, width (R30). -/
def Allocated (c : Config) (o : Option Reg) (signed : Bool) (width : Option Nat) : Prop :=
  ∃ r, o = some r ∧ r.Ok c ∧ r.signed = signed ∧ ∀ w, width = some w → r.w = w

/-- The practical registers of R30: allocated in a practical run, NULL in a basic one. -/
def PracticalOk (c : Config) (e : Engine) : Prop :=
  match e.mode with
  | .basic => e.resp = none ∧ e.q = none ∧ e.qm = none ∧ e.d = none ∧ e.dm = none
  | .practical =>
    Allocated c e.resp true none ∧ Allocated c e.q true (some (c.m * e.total + 1)) ∧
      Allocated c e.qm true (some (c.m * e.total + 1)) ∧ Allocated c e.d true (some (c.m * e.total + 2)) ∧
      Allocated c e.dm true (some (c.m * e.total + 2))

/-- An engine that a run has been started on: I and K are those of its mode (R8, R88), a run has iterations left
exactly while it is active and has completed them all when it is done (R33), the digits are m-bit digits (R89), its
registers are those of R30, and ESR's result bits are 0 until it is done (R33). -/
structure RunOk (c : Config) (e : Engine) : Prop where
  radix : 1 ≤ c.m ∧ c.m ≤ 32
  digitSet : e.mode = .practical → c.alpha < 2 ^ c.m ∧ c.beta < 2 ^ c.m
  total_eq : e.total = c.iterations e.mode
  k_eq : (e.k : Int) = c.alignment e.total
  phase : (e.active = true ∧ e.done = false ∧ e.eiter < e.total) ∨
    (e.active = false ∧ e.done = true ∧ e.eiter = e.total)
  multiplier : e.bd.count = c.n ∧ ∀ x ∈ e.bd.digits, x < 2 ^ c.m
  rootDigits : ∀ x ∈ e.sd.digits, x < 2 ^ c.m
  res : Allocated c e.res true none
  root : Allocated c e.root false (some (c.m * e.total))
  mc : Allocated c e.mc false (some (e.wA + c.m * (e.total - 1)))
  sref : Allocated c e.sref false none
  practical : PracticalOk c e
  unreported : e.done = false → e.report = {}

/-- The engine is as reset leaves it, or a run has been started on it. -/
def Engine.Ok (c : Config) (e : Engine) : Prop := e = Engine.reset ∨ RunOk c e

/-- The invariant of the machine: a legal configuration, and every register, buffer and engine item within the bounds
10_state.md gives it. -/
structure State.Inv (s : State) : Prop where
  cfg : s.cfg.wf = true
  regs : ∀ i r, s.reg i = some r → r.Ok s.cfg
  streams : ∀ k l, s.stream k = some l → l.Ok s.cfg
  engine : s.engine.Ok s.cfg

/-! ### Ranges (R11) -/

/-- `v ∈ range(w, signed)`, as R11 writes it for w ≥ 1. -/
def Range (w : Nat) (signed : Bool) (v : Int) : Prop :=
  if signed then -(2 ^ (w - 1)) ≤ v ∧ v ≤ 2 ^ (w - 1) - 1 else 0 ≤ v ∧ v ≤ 2 ^ w - 1

/-- x' is x after the exact result v has been stored into it: v modulo the width, the mode and unf as they were, and ovf
latched exactly when it was latched or v is not in the range of x (R11, R12). -/
def Stored (x : Reg) (v : Int) (x' : Reg) : Prop :=
  x' = ⟨x.w, BitVec.ofInt x.w v, x.signed, x'.ovf, x.unf⟩ ∧ (x'.ovf = true ↔ x.ovf = true ∨ ¬Range x.w x.signed v)

/-! ### When a run can start -/

/-- R89's checks 2 to 8 pass for the configuration and the operands A, B and S, written as R89 states them; I is `total`
and K is `k` (R8, R88), WRT is `wrt` and WRP is `wrp` (R30). -/
structure StartOk (c : Config) (mode : EngineMode) (a b s : Reg) (total k wrt wrp : Nat) : Prop where
  iterations : total = if mode = .practical then c.iterP else c.n + (c.z + c.m - 1) / c.m
  radix : 1 ≤ c.m ∧ c.m ≤ 32 ∧ 1 ≤ c.n
  practical : mode = .practical →
    c.alpha < 2 ^ c.m ∧ c.beta < 2 ^ c.m ∧ c.z / c.m + 1 ≤ c.iterP ∧ 1 ≤ c.trows ∧ 1 ≤ c.tcols
  even : c.n * c.m % 2 = 0
  guard : mode = .practical → c.m ≤ c.z
  unsigned : a.signed = false ∧ b.signed = false ∧ s.signed = false
  multiplier : (b.w + c.m - 1) / c.m = c.n
  root : mode = .basic → (s.w + c.z + c.m - 1) / c.m = total
  aligned : (k : Int) = c.m * (2 * total + 1 - c.n) - 2 * c.z
  residual : wrt = c.resWidthT.getD (1 + c.m * (2 * total + 1 - c.n) + max (a.w + b.w) (2 * s.w))
  residualP : wrp = c.resWidthP.getD (1 + max (a.w + b.w + c.m * (2 * total + 1 - c.n)) (k + 2 * c.m * total))
  width : wrt ≤ c.maxWidth ∧ c.m * total + c.m + 1 ≤ c.maxWidth ∧ a.w + c.m * total ≤ c.maxWidth ∧
    a.w + c.m * (total - 1) ≤ c.maxWidth ∧ s.w + c.z ≤ c.maxWidth
  widthP : mode = .practical → wrp ≤ c.maxWidth ∧ c.m * total + c.m + 4 ≤ c.maxWidth

/-! ### The next digit of a run -/

/-- b is the multiplier digit of the next iteration i = EITER + 1: b_(i+1), and 0 beyond n (R90). -/
def NextMultiplierDigit (c : Config) (e : Engine) (b : Nat) : Prop :=
  (e.eiter + 2 ≤ c.n → e.bd.digits[e.eiter + 1]? = some b) ∧ (c.n < e.eiter + 2 → b = 0)

/-- t is t_i of the next iteration i = EITER + 1: SD padded with leading zeros to I digits; when c > I its top c − I
digits are never fed (R95). -/
def NextRootDigit (e : Engine) (t : Nat) : Prop :=
  (e.sd.count + (e.eiter + 1) ≤ e.total → t = 0) ∧
    ∀ j x, e.total + j + 1 = e.sd.count + (e.eiter + 1) → e.sd.digits[j]? = some x → t = x

/-- The residual that the next practical iteration selects from: RESP after `LSL(RESP, 2·m)` and `ADD(RESP, PP, m)`,
where PP is b·MC (R99, R90). The flags play no part in the selection. -/
def shiftedResidual (c : Config) (resp mc : Reg) (b : Nat) : Reg :=
  { resp with bits := BitVec.ofInt resp.w (resp.val * 2 ^ (2 * c.m) + b * mc.val * 2 ^ c.m) }

/-- x' is a residual register x after `LSL(x, 2·m)`, `ADD(x, PP, m)` and `SUB(x, LQ, K)`, for terms PP and LQ of values
pp and lq: three exact results, stored one after the other (R96, R99). -/
def ResidualStep (c : Config) (k : Nat) (x : Reg) (pp lq : Int) (x' : Reg) : Prop :=
  ∃ x1 x2 : Reg, Stored x (x.val * 2 ^ (2 * c.m)) x1 ∧ Stored x1 (x1.val + pp * 2 ^ c.m) x2 ∧
    Stored x2 (x2.val - lq * 2 ^ k) x'

/-! ### What a command may write -/

/-- The slot a command writes (R53: RD of the commands that name a destination or in-place register). -/
def destination : Instr → Option Slot
  | .create rd _ => some rd
  | .free rd => some rd
  | .dup rd _ => some rd
  | .rand rd => some rd
  | .setsign rd _ => some rd
  | .rdst _ => none
  | .rdw _ _ => none
  | .abs rd _ => some rd
  | .neg rd => some rd
  | .cmp _ _ => none
  | .cmpc _ _ => none
  | .lsl rd _ => some rd
  | .lsr rd _ => some rd
  | .load rd _ _ => some rd
  | .loadc rd _ _ _ => some rd
  | .extract _ rd _ => some rd
  | .add rd _ _ => some rd
  | .sub rd _ _ => some rd
  | .mul rd _ _ => some rd
  | .isqrt rd _ => some rd
  | .digits _ _ _ => none
  | .dread _ _ => none
  | .estart _ _ _ _ => none
  | .estep => none
  | .erun _ _ _ _ => none
  | .eget rd _ => some rd
  | .rdcsr _ => none

/-- The buffer a command writes: DIGITS's alone (R27). -/
def destinationStream : Instr → Option StreamNo
  | .digits ds _ _ => some ds
  | _ => none

/-- The commands that change the engine (R127). -/
def drivesEngine (i : Instr) : Bool :=
  match i.opcode with
  | .estart | .estep | .erun => true
  | _ => false

/-! ### Sessions -/

/-- A session whose responses contain a FAULT is a failed session (R130). -/
def sessionFailed (responses : List Response) : Bool := responses.any fun r => r.status == .fault

end Sys2Proof.Machine
end

