-- ==== Sys2Proof/Certificates/Slice0/Obligations.lean ====
section
/-! DEFINITION. The statements for the provers, each from the numbered rules of spec/. A statement about an instruction
is made in every state it names, reached or not; `s.fsr = none` is "the core is not FAULTED" (R112). -/

open Sys2Proof Sys2Proof.Machine

/-! ### Encoding -/

/-- R51, R52, R53, R56, R57: decoding the words of a well-formed instruction gives it back, every operand at every
value. -/
def Obligations.EncodeThenDecode : Prop :=
  ∀ i : Instr, i.wf = true → decodeWords (encode i) = some (.ok i)

/-- R51 to R57: a command that decodes is well formed, and its words are the ones the encoder gives: no bit of a
command is ignored. -/
def Obligations.DecodeThenEncode : Prop :=
  ∀ (h x : Word) (i : Instr), decode h x = .ok i →
    i.wf = true ∧ encode i = if twoWords (Header.unpack h).op then [h, x] else [h]

/-- The worked encodings of R60 (the spec derives them), both ways. -/
def Obligations.WorkedEncodings : Prop :=
  ∀ p ∈ ([(.create 1 20, [0x0420000000000014]), (.loadc 1 0x2A5 0 10, [0x3C20000A00000000, 0x2A5]),
      (.extract 1 2 (-3), [0x40410000FFFFFFFD]), (.erun 3 4 5 .practical, [0x88A3200100000000]),
      (.rdcsr .esr, [0xC000000100000000]), (.cmpc 3 (-5), [0x2C03000000000000, 0xFFFFFFFFFFFFFFFB])] :
      List (Instr × List Word)),
    encode p.1 = p.2 ∧ decodeWords p.2 = some (.ok p.1)

/-- R58, R54, R114: an OP outside the opcode map of R57 raises ILLEGAL_OPCODE; a legal OP whose RSV or unused field is
not zero (R53), or whose field value is out of range (R54), raises BAD_FIELD; with no other effect. -/
def Obligations.IllegalWordsFault : Prop :=
  ∀ (s : State) (h x : Word), s.fsr = none →
    ((∀ o : Opcode, o.code ≠ (Header.unpack h).op) →
      runCommand h x s = .next (s.takeFault (Header.unpack h).op .illegalOpcode)) ∧
    (∀ o : Opcode, o.code = (Header.unpack h).op →
      (Header.unpack h).rsv ≠ 0 ∨ (Header.unpack h).unusedZero o.uses = false ∨
          o = .setsign ∧ 1 < (Header.unpack h).imm8.toNat ∨
          (o = .digits ∨ o = .dread) ∧ 3 < (Header.unpack h).rd.toNat ∨
          (o = .estart ∨ o = .erun) ∧ 1 < (Header.unpack h).imm8.toNat ∨
          o = .eget ∧ 8 < (Header.unpack h).imm8.toNat ∨ o = .rdcsr ∧ 4 < (Header.unpack h).imm8.toNat →
        runCommand h x s = .next (s.takeFault o.code .badField))

/-! ### The step and the host channels -/

/-- R18, R51, R58: the step takes the words of the next command off the host's channel (log entry 1), two for CMPC and
LOADC and one for every other OP, and runs them, whether they decode or not (the number of words of a rejected command:
log entry 12); where they decode to an instruction, that is exec of it. -/
def Obligations.StepRunsDecodedInstruction : Prop :=
  ∀ (s : State) (h x : Word) (rest : List HostEvent),
    (s.input = .word h :: rest → (Header.unpack h).op ≠ 0x0B → (Header.unpack h).op ≠ 0x0F →
      step s = runCommand h 0 { s with input := rest } ∧
        ∀ i, decode h 0 = .ok i → step s = exec i { s with input := rest }) ∧
    (s.input = .word h :: .word x :: rest → (Header.unpack h).op = 0x0B ∨ (Header.unpack h).op = 0x0F →
      step s = runCommand h x { s with input := rest } ∧
        ∀ i, decode h x = .ok i → step s = exec i { s with input := rest })

/-- R123, R124: with no complete command the core waits in its state (log entry 7). The refusal of
a reset inside a command is the model's choice (log entry 6). -/
def Obligations.CoreWaitsForCommand : Prop :=
  ∀ s : State,
    (s.input = [] → step s = .next s) ∧
    (∀ h, s.input = [.word h] → twoWords (Header.unpack h).op = true → step s = .next s) ∧
    (∀ h rest, s.input = .word h :: .reset :: rest → twoWords (Header.unpack h).op = true →
      step s = .refused .resetDuringCommand)

/-- R38, R124: a reset request, also in the FAULTED state, gives every piece of core state the value of R38 and keeps the
configuration. That the rest of the channel, the responses given and the listed random bits stay is the model's choice
(log entries 1, 8 and 4). -/
def Obligations.HostResetClearsCore : Prop :=
  ∀ (s : State) (rest : List HostEvent), s.input = .reset :: rest →
    ∃ t, step s = .next t ∧ (∀ i, t.reg i = none) ∧ (∀ k, t.stream k = none) ∧ t.fsr = none ∧
      t.engine.active = false ∧ t.engine.done = false ∧ t.engine.mode = .basic ∧ t.engine.eiter = 0 ∧
      t.engine.total = 0 ∧ t.engine.k = 0 ∧ t.engine.wA = 0 ∧ t.engine.elastd = 0 ∧ t.engine.bd.digits = [] ∧
      t.engine.sd.digits = [] ∧ (∀ sel, t.engine.register sel = none) ∧ (∀ c, t.csr c = 0) ∧ t.cfg = s.cfg ∧
      t.responses = s.responses ∧ t.input = rest ∧ t.randomBits = s.randomBits

/-- R111, R112: a step leaves the FAULTED state only by a reset request, and FSR keeps the first fault. -/
def Obligations.OnlyResetLeavesFaulted : Prop :=
  ∀ (s t : State) (f : FaultRecord), s.fsr = some f → step s = .next t →
    t.fsr = some f ∨ ∃ rest, s.input = .reset :: rest

/-- R112: in the FAULTED state every command but RDCSR is refused with no effect, RDCSR executes normally, and a word
that is no instruction is refused like any other. -/
def Obligations.FaultedRefusesAllButRdcsr : Prop :=
  ∀ (s : State) (f : FaultRecord), s.fsr = some f →
    (∀ i : Instr, (∀ c, i ≠ .rdcsr c) → exec i s = .next (s.respond ⟨.refused, 0, 0⟩)) ∧
    (∀ c, exec (.rdcsr c) s = .next (s.respond ⟨.ok, 0, s.csr c⟩)) ∧
    (∀ h x e, decode h x = .error e → runCommand h x s = .next (s.respond ⟨.refused, 0, 0⟩))

/-- R112: a fault has no other effect than its response, FSR and the FAULTED state; the one exception is ERUN, which
changes the engine too. -/
def Obligations.FaultHasNoOtherEffect : Prop :=
  ∀ (i : Instr) (s t : State), s.fsr = none → exec i s = .next t → t.fsr ≠ none →
    ∃ c : Cause, t.fsr = some ⟨c, i.opcode.code⟩ ∧ t.responses = s.responses ++ [⟨.fault, c.code, 0⟩] ∧
      (t = s.takeFault i.opcode.code c ∨
        (i.opcode = .erun ∧ t = { s with engine := t.engine }.takeFault i.opcode.code c))

/-- R35: every command, an illegal one too, produces one response; its CODE is the fault code if it is a FAULT and 0
otherwise, its VALUE is 0 if it is not OK or its rule responds with nothing; the two response words are
STATUS | CODE<<8 and VALUE. -/
def Obligations.OneResponsePerCommand : Prop :=
  ∀ (h x : Word) (s t : State), runCommand h x s = .next t →
    ∃ r : Response, t.responses = s.responses ++ [r] ∧ (r.status ≠ .fault → r.code = 0) ∧
      (r.status = .fault → ∃ f, t.fsr = some f ∧ r.code = f.cause.code) ∧ (r.status ≠ .ok → r.value = 0) ∧
      (∀ i, decode h x = .ok i → i.opcode ∉ [Opcode.rdst, .rdw, .cmp, .cmpc, .dread, .rdcsr] → r.value = 0) ∧
      r.resp0.toNat =
        (match r.status with
          | .ok => 0
          | .fault => 1
          | .refused => 2) + 256 * r.code.toNat ∧
      r.resp1 = r.value

/-- R129, R64: every command but RAND ends: exec answers a next state. The one stop is RAND's hang, and then every draw
that begins in the listed random bits or right after them was a rejected one (the fuel: log entry 17). -/
def Obligations.EveryCommandAnswers : Prop :=
  ∀ (i : Instr) (s : State),
    (∃ t, exec i s = .next t) ∨
      ∃ rd r, i = .rand rd ∧ s.fsr = none ∧ s.reg rd = some r ∧ exec i s = .fault .randomSourceHang ∧
        ∀ n, n * r.w ≤ s.randomBits.length →
          (∀ k, k < r.w → s.sourceBit (n * r.w + k) = false) ∨
            (r.signed = true ∧ 2 ≤ r.w ∧ (List.range r.w).countP (fun k => s.sourceBit (n * r.w + k)) = 1)

/-! ### Frames and invariants -/

/-- R20, R27, R34, R127: what any command leaves unchanged: the configuration, what the host still has to send, every
slot but its destination, every buffer but DIGITS's, the engine unless it is ESTART, ESTEP or ERUN, the random bits
unless it is RAND, and FSR once FAULTED. -/
def Obligations.CommandFrame : Prop :=
  ∀ (i : Instr) (s t : State), exec i s = .next t →
    t.cfg = s.cfg ∧ t.input = s.input ∧ (∀ j, destination i ≠ some j → t.reg j = s.reg j) ∧
      (∀ k, destinationStream i ≠ some k → t.stream k = s.stream k) ∧
      (drivesEngine i = false → t.engine = s.engine) ∧
      ((∀ rd, i ≠ .rand rd) → t.randomBits = s.randomBits ∧ t.furtherDrawn = s.furtherDrawn) ∧
      (s.fsr ≠ none → t.fsr = s.fsr ∧ (∀ j, t.reg j = s.reg j) ∧ (∀ k, t.stream k = s.stream k) ∧ t.engine = s.engine)

/-- R12, R23, R24, R25: no command clears a flag of an existing register, only LSR sets its unf, only SETSIGN changes its
mode, none changes its width, and only FREE destroys it. -/
def Obligations.RegisterFlagsAreSticky : Prop :=
  ∀ (i : Instr) (s t : State) (j : Slot) (r : Reg), exec i s = .next t → s.reg j = some r →
    (i = .free j ∧ t.reg j = none) ∨
      ∃ r', t.reg j = some r' ∧ r'.w = r.w ∧ (r.ovf = true → r'.ovf = true) ∧ (r.unf = true → r'.unf = true) ∧
        (r'.unf = r.unf ∨ ∃ n, i = .lsr j n) ∧ (r'.signed = r.signed ∨ ∃ b, i = .setsign j b)

/-- R7, R28, R124: no step changes the configuration or the SRT table, a reset included. -/
def Obligations.ConfigurationIsStatic : Prop :=
  ∀ s t : State, step s = .next t → t.cfg = s.cfg

/-- R21, R22, R27, R30, R33, R38: the invariant of the machine holds after reset, under every legal configuration; that
of State.reset is the model's choice (log entry 2). -/
def Obligations.InvariantHoldsAtReset : Prop :=
  (∀ c : Config, c.wf = true → (State.resetWith c).Inv) ∧ State.reset.Inv

/-- R21, R22, R27, R29, R30, R33: every step keeps the invariant: widths within 1..MAX_WIDTH, lists within MAX_DIGITS, an
active run with its registers at the widths of R30 and iterations left, a done run with none. -/
def Obligations.StepKeepsInvariant : Prop :=
  ∀ s t : State, s.Inv → step s = .next t → t.Inv

/-! ### Kernel register management -/

/-- R61. -/
def Obligations.CreateMakesZeroRegister : Prop :=
  ∀ (s : State) (rd : Slot) (width : Nat), s.fsr = none →
    (Instr.create rd width).header = { op := 0x01, rd := BitVec.ofNat 5 rd, imm32 := BitVec.ofNat 32 width } ∧
    (∀ r, s.reg rd = some r → exec (.create rd width) s = .next (s.takeFault 0x01 .slotBusy)) ∧
    (s.reg rd = none →
      (width = 0 → exec (.create rd width) s = .next (s.takeFault 0x01 .zeroWidth)) ∧
      (width ≠ 0 → s.cfg.maxWidth < width → exec (.create rd width) s = .next (s.takeFault 0x01 .widthLimit)) ∧
      (width ≠ 0 → width ≤ s.cfg.maxWidth →
        exec (.create rd width) s =
          .next ((s.setReg rd (some ⟨width, 0, false, false, false⟩)).respond ⟨.ok, 0, 0⟩)))

/-- R62. -/
def Obligations.FreeDestroysRegister : Prop :=
  ∀ (s : State) (rd : Slot), s.fsr = none →
    (Instr.free rd).header = { op := 0x02, rd := BitVec.ofNat 5 rd } ∧
    (s.reg rd = none → exec (.free rd) s = .next (s.takeFault 0x02 .nullReg)) ∧
    (∀ r, s.reg rd = some r → exec (.free rd) s = .next ((s.setReg rd none).respond ⟨.ok, 0, 0⟩))

/-- R63. -/
def Obligations.DupCopiesRegister : Prop :=
  ∀ (s : State) (rd ra : Slot), s.fsr = none →
    (Instr.dup rd ra).header = { op := 0x03, rd := BitVec.ofNat 5 rd, ra := BitVec.ofNat 5 ra } ∧
    (s.reg ra = none → exec (.dup rd ra) s = .next (s.takeFault 0x03 .nullReg)) ∧
    (∀ a, s.reg ra = some a →
      (∀ r, s.reg rd = some r → exec (.dup rd ra) s = .next (s.takeFault 0x03 .slotBusy)) ∧
      (s.reg rd = none → exec (.dup rd ra) s = .next ((s.setReg rd (some a)).respond ⟨.ok, 0, 0⟩)))

/-- R64, R36: the register gets the first accepted draw of w bits, the first bit drawn as bit 0, whatever draws were
rejected before it; nothing else of the register changes, and the source goes on after that draw. Bit k of the source is
the k-th listed bit, and past the list a free bit (log entry 4): a draw that begins in the list and ends past it has the
listed bits at its low end. -/
def Obligations.RandStoresFirstAcceptedDraw : Prop :=
  ∀ (s : State) (rd : Slot), s.fsr = none →
    (Instr.rand rd).header = { op := 0x04, rd := BitVec.ofNat 5 rd } ∧
    (∀ k b, s.randomBits[k]? = some b → s.sourceBit k = b) ∧
    (s.reg rd = none → exec (.rand rd) s = .next (s.takeFault 0x04 .nullReg)) ∧
    (∀ (r : Reg) (n : Nat), s.reg rd = some r → n * r.w ≤ s.randomBits.length →
      (∀ j, j < n → (∀ k, k < r.w → s.sourceBit (j * r.w + k) = false) ∨
        (r.signed = true ∧ 2 ≤ r.w ∧ (List.range r.w).countP (fun k => s.sourceBit (j * r.w + k)) = 1)) →
      (∃ k, k < r.w ∧ s.sourceBit (n * r.w + k) = true) →
      ¬(r.signed = true ∧ 2 ≤ r.w ∧ (List.range r.w).countP (fun k => s.sourceBit (n * r.w + k)) = 1) →
      ∃ (b : BitVec r.w) (past : Nat), (∀ k, k < r.w → b.getLsbD k = s.sourceBit (n * r.w + k)) ∧
        past = s.furtherDrawn + ((n + 1) * r.w - s.randomBits.length) ∧
        exec (.rand rd) s =
          .next (({ s with randomBits := s.randomBits.drop ((n + 1) * r.w), furtherDrawn := past }.setReg rd
            (some ⟨r.w, b, r.signed, r.ovf, r.unf⟩)).respond ⟨.ok, 0, 0⟩))

/-- R64: whenever RAND completes, also past the listed random bits, where the bits are free values (log entry 4), the
pattern is not zero and, in a signed register of width 2 or more, has more than one 1 bit. -/
def Obligations.RandPatternIsNeverDegenerate : Prop :=
  ∀ (s t : State) (rd : Slot) (r : Reg), s.fsr = none → s.reg rd = some r → exec (.rand rd) s = .next t →
    ∃ b : BitVec r.w, t.reg rd = some ⟨r.w, b, r.signed, r.ovf, r.unf⟩ ∧ (∃ j, b.getLsbD j = true) ∧
      (r.signed = true → 2 ≤ r.w → ∃ j k, j ≠ k ∧ b.getLsbD j = true ∧ b.getLsbD k = true)

/-- R65: SETSIGN changes the mode alone; an IMM8 above 1 is BAD_FIELD. -/
def Obligations.SetsignChangesModeOnly : Prop :=
  ∀ (s : State) (rd : Slot) (b : Bool), s.fsr = none →
    (Instr.setsign rd b).header = { op := 0x05, rd := BitVec.ofNat 5 rd, imm8 := if b then 1 else 0 } ∧
    (∀ h x : Word, (Header.unpack h).op = 0x05 → 1 < (Header.unpack h).imm8.toNat →
      runCommand h x s = .next (s.takeFault 0x05 .badField)) ∧
    (s.reg rd = none → exec (.setsign rd b) s = .next (s.takeFault 0x05 .nullReg)) ∧
    (∀ r, s.reg rd = some r →
      exec (.setsign rd b) s = .next ((s.setReg rd (some ⟨r.w, r.bits, b, r.ovf, r.unf⟩)).respond ⟨.ok, 0, 0⟩))

/-- R66: the response holds the width in bits 31:0, signed at 32, ovf at 33, unf at 34, and 0 above. -/
def Obligations.RdstReportsStatus : Prop :=
  ∀ (s : State) (ra : Slot), s.fsr = none →
    (Instr.rdst ra).header = { op := 0x06, ra := BitVec.ofNat 5 ra } ∧
    (s.reg ra = none → exec (.rdst ra) s = .next (s.takeFault 0x06 .nullReg)) ∧
    (∀ r, s.reg ra = some r → r.w < 2 ^ 32 →
      ∃ v : Word, exec (.rdst ra) s = .next (s.respond ⟨.ok, 0, v⟩) ∧
        v.toNat = r.w + r.signed.toNat * 2 ^ 32 + r.ovf.toNat * 2 ^ 33 + r.unf.toNat * 2 ^ 34)

/-- R67, R44: word k of the raw bits, at every k. -/
def Obligations.RdwReadsRawWord : Prop :=
  ∀ (s : State) (ra : Slot) (k : Nat), s.fsr = none →
    (Instr.rdw ra k).header = { op := 0x07, ra := BitVec.ofNat 5 ra, imm32 := BitVec.ofNat 32 k } ∧
    (s.reg ra = none → exec (.rdw ra k) s = .next (s.takeFault 0x07 .nullReg)) ∧
    (∀ r, s.reg ra = some r →
      ∃ v : Word, exec (.rdw ra k) s = .next (s.respond ⟨.ok, 0, v⟩) ∧
        v.toNat = r.bits.toNat / 2 ^ (64 * k) % 2 ^ 64 ∧ ∀ j, j < 64 → v.getLsbD j = r.bits.getLsbD (64 * k + j))

/-! ### Sign, compare, shift -/

/-- R68: the magnitude in a new unsigned register of the same width, flags clear. -/
def Obligations.AbsGivesMagnitude : Prop :=
  ∀ (s : State) (rd ra : Slot), s.fsr = none →
    (Instr.abs rd ra).header = { op := 0x08, rd := BitVec.ofNat 5 rd, ra := BitVec.ofNat 5 ra } ∧
    (s.reg ra = none → exec (.abs rd ra) s = .next (s.takeFault 0x08 .nullReg)) ∧
    (∀ a, s.reg ra = some a →
      (∀ r, s.reg rd = some r → exec (.abs rd ra) s = .next (s.takeFault 0x08 .slotBusy)) ∧
      (s.reg rd = none →
        ∃ b : BitVec a.w, (b.toNat : Int) = |a.val| ∧
          exec (.abs rd ra) s = .next ((s.setReg rd (some ⟨a.w, b, false, false, false⟩)).respond ⟨.ok, 0, 0⟩)))

/-- R69: two's-complement negation in place; ovf is set exactly when the value is −2^(w−1). -/
def Obligations.NegNegatesInPlace : Prop :=
  ∀ (s : State) (rd : Slot), s.fsr = none →
    (Instr.neg rd).header = { op := 0x09, rd := BitVec.ofNat 5 rd } ∧
    (s.reg rd = none → exec (.neg rd) s = .next (s.takeFault 0x09 .nullReg)) ∧
    (∀ r, s.reg rd = some r →
      (r.signed = false → exec (.neg rd) s = .next (s.takeFault 0x09 .signRequired)) ∧
      (r.signed = true →
        exec (.neg rd) s =
          .next ((s.setReg rd (some ⟨r.w, -r.bits, true, r.ovf || decide (2 * r.val = -(2 ^ r.w)), r.unf⟩)).respond
            ⟨.ok, 0, 0⟩)))

/-- R70: the response is −1, 0 or +1 as the values compare, whatever the widths and modes; NULL_REG is checked for RA
first, with the same cause. -/
def Obligations.CmpComparesValues : Prop :=
  ∀ (s : State) (ra rb : Slot), s.fsr = none →
    (Instr.cmp ra rb).header = { op := 0x0A, ra := BitVec.ofNat 5 ra, rb := BitVec.ofNat 5 rb } ∧
    (s.reg ra = none ∨ s.reg rb = none → exec (.cmp ra rb) s = .next (s.takeFault 0x0A .nullReg)) ∧
    (∀ a b, s.reg ra = some a → s.reg rb = some b →
      ∃ v : Word, exec (.cmp ra rb) s = .next (s.respond ⟨.ok, 0, v⟩) ∧
        (a.val < b.val → v = 0xFFFFFFFFFFFFFFFF) ∧ (a.val = b.val → v = 0) ∧ (b.val < a.val → v = 1))

/-- R71: as CMP, against the signed 64-bit constant. -/
def Obligations.CmpcComparesConstant : Prop :=
  ∀ (s : State) (ra : Slot) (k : Int), s.fsr = none →
    (Instr.cmpc ra k).header = { op := 0x0B, ra := BitVec.ofNat 5 ra } ∧
    (Instr.cmpc ra k).extension = some (BitVec.ofInt 64 k) ∧
    (s.reg ra = none → exec (.cmpc ra k) s = .next (s.takeFault 0x0B .nullReg)) ∧
    (∀ a, s.reg ra = some a →
      ∃ v : Word, exec (.cmpc ra k) s = .next (s.respond ⟨.ok, 0, v⟩) ∧
        (a.val < k → v = 0xFFFFFFFFFFFFFFFF) ∧ (a.val = k → v = 0) ∧ (k < a.val → v = 1))

/-- R72: val·2^n is stored with wrap-around for every count n, and ovf is set if it does not fit. -/
def Obligations.LslShiftsLeft : Prop :=
  ∀ (s : State) (rd : Slot) (n : Nat), s.fsr = none →
    (Instr.lsl rd n).header = { op := 0x0C, rd := BitVec.ofNat 5 rd, imm32 := BitVec.ofNat 32 n } ∧
    (s.reg rd = none → exec (.lsl rd n) s = .next (s.takeFault 0x0C .nullReg)) ∧
    (∀ r, s.reg rd = some r →
      ∃ o : Bool, (1 ≤ r.w → (o = true ↔ ¬Range r.w r.signed (r.val * 2 ^ n))) ∧
        exec (.lsl rd n) s =
          .next ((s.setReg rd (some ⟨r.w, r.bits <<< n, r.signed, r.ovf || o, r.unf⟩)).respond ⟨.ok, 0, 0⟩))

/-- R73: floor(val/2^n) for every count n; unf is set exactly when a discarded bit was 1; the value is exact. -/
def Obligations.LsrShiftsRight : Prop :=
  ∀ (s : State) (rd : Slot) (n : Nat), s.fsr = none →
    (Instr.lsr rd n).header = { op := 0x0D, rd := BitVec.ofNat 5 rd, imm32 := BitVec.ofNat 32 n } ∧
    (s.reg rd = none → exec (.lsr rd n) s = .next (s.takeFault 0x0D .nullReg)) ∧
    (∀ r, s.reg rd = some r →
      ∃ r' : Reg, r'.w = r.w ∧ r'.signed = r.signed ∧ r'.ovf = r.ovf ∧ r'.val = r.val / 2 ^ n ∧
        r'.unf = (r.unf || decide (r.val / 2 ^ n * 2 ^ n ≠ r.val)) ∧
        exec (.lsr rd n) s = .next ((s.setReg rd (some r')).respond ⟨.ok, 0, 0⟩))

/-- R73 (derived there), R72: for an unsigned register whose top k bits are zero, LSL k completes with the shifted
register and LSR k then completes with the register as it was, flags included. -/
def Obligations.ShiftInverse : Prop :=
  ∀ (s : State) (rd : Slot) (r : Reg) (k : Nat), s.fsr = none → s.reg rd = some r → r.signed = false →
    r.bits.toNat * 2 ^ k < 2 ^ r.w →
      ∃ t : State,
        exec (.lsl rd k) s = .next t ∧
        t = (s.setReg rd (some ⟨r.w, r.bits <<< k, false, r.ovf, r.unf⟩)).respond ⟨.ok, 0, 0⟩ ∧
        exec (.lsr rd k) t = .next ((t.setReg rd (some r)).respond ⟨.ok, 0, 0⟩)

/-! ### Load and extract -/

/-- R74: the closed form the model runs is the loop of R74, for every register, pattern and position. -/
def Obligations.LoadBitsIsTheLoop : Prop :=
  ∀ (dst : Reg) (n : Nat) (src : BitVec n) (p : Nat),
    dst.loadBits src p = dst.loadBitsLoop p ((List.range n).map src.getLsbD)

/-- R75: LOAD's checks in order, and the load_bits loop of R74 over the source's bits. -/
def Obligations.LoadCopiesBits : Prop :=
  ∀ (s : State) (rd ra : Slot) (pos : Nat), s.fsr = none →
    (Instr.load rd ra pos).header =
      { op := 0x0E, rd := BitVec.ofNat 5 rd, ra := BitVec.ofNat 5 ra, imm32 := BitVec.ofNat 32 pos } ∧
    (s.reg ra = none ∨ s.reg rd = none → exec (.load rd ra pos) s = .next (s.takeFault 0x0E .nullReg)) ∧
    (∀ a d, s.reg ra = some a → s.reg rd = some d →
      (rd = ra → exec (.load rd ra pos) s = .next (s.takeFault 0x0E .aliased)) ∧
      (rd ≠ ra → a.signed ≠ d.signed → exec (.load rd ra pos) s = .next (s.takeFault 0x0E .signMismatch)) ∧
      (rd ≠ ra → a.signed = d.signed →
        exec (.load rd ra pos) s =
          .next ((s.setReg rd (some (d.loadBitsLoop pos ((List.range a.w).map a.bits.getLsbD)))).respond ⟨.ok, 0, 0⟩)))

/-- R76: LOADC's checks in order, and the load_bits loop of R74 over the literal's low bits. -/
def Obligations.LoadcCopiesLiteral : Prop :=
  ∀ (s : State) (rd : Slot) (value : Word) (pos bitcount : Nat), s.fsr = none →
    (Instr.loadc rd value pos bitcount).header =
      { op := 0x0F, rd := BitVec.ofNat 5 rd, imm8 := BitVec.ofNat 8 bitcount, imm32 := BitVec.ofNat 32 pos } ∧
    (Instr.loadc rd value pos bitcount).extension = some value ∧
    (s.reg rd = none → exec (.loadc rd value pos bitcount) s = .next (s.takeFault 0x0F .nullReg)) ∧
    (∀ d, s.reg rd = some d →
      (bitcount = 0 ∨ 64 < bitcount → exec (.loadc rd value pos bitcount) s = .next (s.takeFault 0x0F .bitcount)) ∧
      (1 ≤ bitcount → bitcount ≤ 64 →
        exec (.loadc rd value pos bitcount) s =
          .next ((s.setReg rd (some (d.loadBitsLoop pos ((List.range bitcount).map value.getLsbD)))).respond
            ⟨.ok, 0, 0⟩)))

/-- R78, R77: EXTRACT's checks in order, and every bit of the sample as extract_bits reads it: zero below bit 0, sign
extension above a signed source, zero above an unsigned one. -/
def Obligations.ExtractReadsField : Prop :=
  ∀ (s : State) (ra rd : Slot) (pos : Int), s.fsr = none →
    (Instr.extract ra rd pos).header =
      { op := 0x10, rd := BitVec.ofNat 5 rd, ra := BitVec.ofNat 5 ra, imm32 := BitVec.ofInt 32 pos } ∧
    (s.reg ra = none ∨ s.reg rd = none → exec (.extract ra rd pos) s = .next (s.takeFault 0x10 .nullReg)) ∧
    (∀ a d, s.reg ra = some a → s.reg rd = some d →
      (rd = ra → exec (.extract ra rd pos) s = .next (s.takeFault 0x10 .aliased)) ∧
      (rd ≠ ra →
        ∃ b : BitVec d.w,
          (∀ i, i < d.w → b.getLsbD i =
            if pos + i < 0 then false
            else if pos + i < a.w then a.bits.getLsbD (pos + i).toNat
            else a.signed && a.bits.msb) ∧
          exec (.extract ra rd pos) s =
            .next ((s.setReg rd (some ⟨d.w, b, d.signed, d.ovf, d.unf⟩)).respond ⟨.ok, 0, 0⟩)))

/-! ### Add, multiply, square root -/

/-- R80, R79: val(d) + val(a)·2^pos is stored with wrap-around at every position; ovf is set if it does not fit. -/
def Obligations.AddAddsAtPosition : Prop :=
  ∀ (s : State) (rd ra : Slot) (pos : Nat), s.fsr = none →
    (Instr.add rd ra pos).header =
      { op := 0x11, rd := BitVec.ofNat 5 rd, ra := BitVec.ofNat 5 ra, imm32 := BitVec.ofNat 32 pos } ∧
    (s.reg ra = none ∨ s.reg rd = none → exec (.add rd ra pos) s = .next (s.takeFault 0x11 .nullReg)) ∧
    (∀ a r, s.reg ra = some a → s.reg rd = some r →
      (rd = ra → exec (.add rd ra pos) s = .next (s.takeFault 0x11 .aliased)) ∧
      (rd ≠ ra →
        ∃ o : Bool, (1 ≤ r.w → (o = true ↔ ¬Range r.w r.signed (r.val + a.val * 2 ^ pos))) ∧
          exec (.add rd ra pos) s =
            .next ((s.setReg rd (some ⟨r.w, BitVec.ofInt r.w (r.val + a.val * 2 ^ pos), r.signed, r.ovf || o,
              r.unf⟩)).respond ⟨.ok, 0, 0⟩)))

/-- R81, R79: val(d) − val(a)·2^pos, as ADD. -/
def Obligations.SubSubtractsAtPosition : Prop :=
  ∀ (s : State) (rd ra : Slot) (pos : Nat), s.fsr = none →
    (Instr.sub rd ra pos).header =
      { op := 0x12, rd := BitVec.ofNat 5 rd, ra := BitVec.ofNat 5 ra, imm32 := BitVec.ofNat 32 pos } ∧
    (s.reg ra = none ∨ s.reg rd = none → exec (.sub rd ra pos) s = .next (s.takeFault 0x12 .nullReg)) ∧
    (∀ a r, s.reg ra = some a → s.reg rd = some r →
      (rd = ra → exec (.sub rd ra pos) s = .next (s.takeFault 0x12 .aliased)) ∧
      (rd ≠ ra →
        ∃ o : Bool, (1 ≤ r.w → (o = true ↔ ¬Range r.w r.signed (r.val - a.val * 2 ^ pos))) ∧
          exec (.sub rd ra pos) s =
            .next ((s.setReg rd (some ⟨r.w, BitVec.ofInt r.w (r.val - a.val * 2 ^ pos), r.signed, r.ovf || o,
              r.unf⟩)).respond ⟨.ok, 0, 0⟩)))

/-- R82: MUL's checks in order, the exact product with wrap-around, and its overflow rule with MUL_OVF_AT_MIN. -/
def Obligations.MulMultiplies : Prop :=
  ∀ (s : State) (rd ra rb : Slot), s.fsr = none →
    (Instr.mul rd ra rb).header =
      { op := 0x13, rd := BitVec.ofNat 5 rd, ra := BitVec.ofNat 5 ra, rb := BitVec.ofNat 5 rb } ∧
    (s.reg ra = none ∨ s.reg rb = none ∨ s.reg rd = none →
      exec (.mul rd ra rb) s = .next (s.takeFault 0x13 .nullReg)) ∧
    (∀ a b r, s.reg ra = some a → s.reg rb = some b → s.reg rd = some r →
      (rd = ra ∨ rd = rb → exec (.mul rd ra rb) s = .next (s.takeFault 0x13 .aliased)) ∧
      (rd ≠ ra → rd ≠ rb → a.signed = true ∨ b.signed = true → r.signed = false →
        exec (.mul rd ra rb) s = .next (s.takeFault 0x13 .signRequired)) ∧
      (rd ≠ ra → rd ≠ rb → (a.signed = false ∧ b.signed = false) ∨ r.signed = true →
        ∃ o : Bool,
          (1 ≤ r.w → (o = true ↔ ¬Range r.w r.signed (a.val * b.val) ∨
            (s.cfg.mulOvfAtMin = true ∧ r.signed = true ∧ a.val * b.val = -(2 ^ (r.w - 1))))) ∧
          exec (.mul rd ra rb) s =
            .next ((s.setReg rd (some ⟨r.w, BitVec.ofInt r.w (a.val * b.val), r.signed, r.ovf || o,
              r.unf⟩)).respond ⟨.ok, 0, 0⟩)))

/-- R83: ISQRT's checks in order, and the largest b with b² ≤ val, in a new unsigned register of the input's width with
clear flags. -/
def Obligations.IsqrtIsFloorRoot : Prop :=
  ∀ (s : State) (rd ra : Slot), s.fsr = none →
    (Instr.isqrt rd ra).header = { op := 0x14, rd := BitVec.ofNat 5 rd, ra := BitVec.ofNat 5 ra } ∧
    (s.reg ra = none → exec (.isqrt rd ra) s = .next (s.takeFault 0x14 .nullReg)) ∧
    (∀ a, s.reg ra = some a →
      (∀ r, s.reg rd = some r → exec (.isqrt rd ra) s = .next (s.takeFault 0x14 .slotBusy)) ∧
      (s.reg rd = none → a.val < 0 → exec (.isqrt rd ra) s = .next (s.takeFault 0x14 .negativeSqrt)) ∧
      (s.reg rd = none → 0 ≤ a.val →
        ∃ b : BitVec a.w, (b.toNat : Int) * b.toNat ≤ a.val ∧ a.val < ((b.toNat : Int) + 1) * (b.toNat + 1) ∧
          exec (.isqrt rd ra) s = .next ((s.setReg rd (some ⟨a.w, b, false, false, false⟩)).respond ⟨.ok, 0, 0⟩)))

/-! ### Digit streams -/

/-- R85, R84: DIGITS's checks in order, and the list: ceil(w/bpd) digits of the magnitude, most significant first. -/
def Obligations.DigitsBuildsList : Prop :=
  ∀ (s : State) (ds : StreamNo) (ra : Slot) (bpd : Nat), s.fsr = none →
    (Instr.digits ds ra bpd).header =
      { op := 0x18, rd := BitVec.ofNat 5 ds, ra := BitVec.ofNat 5 ra, imm8 := BitVec.ofNat 8 bpd } ∧
    (∀ h x : Word, (Header.unpack h).op = 0x18 → 3 < (Header.unpack h).rd.toNat →
      runCommand h x s = .next (s.takeFault 0x18 .badField)) ∧
    (s.reg ra = none → exec (.digits ds ra bpd) s = .next (s.takeFault 0x18 .nullReg)) ∧
    (∀ a, s.reg ra = some a →
      (bpd = 0 ∨ 63 < bpd → exec (.digits ds ra bpd) s = .next (s.takeFault 0x18 .bitcount)) ∧
      (1 ≤ bpd → bpd ≤ 63 → s.cfg.maxDigits * bpd < a.w →
        exec (.digits ds ra bpd) s = .next (s.takeFault 0x18 .widthLimit)) ∧
      (1 ≤ bpd → bpd ≤ 63 → a.w ≤ s.cfg.maxDigits * bpd →
        ∃ l : DigitList, exec (.digits ds ra bpd) s = .next ((s.setStream ds l).respond ⟨.ok, 0, 0⟩) ∧
          a.w ≤ l.count * bpd ∧ l.count * bpd < a.w + bpd ∧
          ∀ k, 1 ≤ k → k ≤ l.count → l.element k = a.val.natAbs / 2 ^ (bpd * (l.count - k)) % 2 ^ bpd))

/-- R84 (derived there, §8 "Digit list invertibility"): the digits DIGITS stores weigh back to the magnitude. -/
def Obligations.DigitsReconstructMagnitude : Prop :=
  ∀ (s t : State) (ds : StreamNo) (ra : Slot) (bpd : Nat) (a : Reg), s.fsr = none → s.reg ra = some a →
    1 ≤ bpd → bpd ≤ 63 → a.w ≤ s.cfg.maxDigits * bpd → exec (.digits ds ra bpd) s = .next t →
      ∃ l, t.stream ds = some l ∧ l.digits.foldl (fun acc d => acc * 2 ^ bpd + d) 0 = a.val.natAbs

/-- R86: DREAD's checks in order; element 0 is the count, elements 1 to count the digits. -/
def Obligations.DreadReadsElement : Prop :=
  ∀ (s : State) (ds : StreamNo) (i : Nat), s.fsr = none →
    (Instr.dread ds i).header = { op := 0x19, rd := BitVec.ofNat 5 ds, imm32 := BitVec.ofNat 32 i } ∧
    (∀ h x : Word, (Header.unpack h).op = 0x19 → 3 < (Header.unpack h).rd.toNat →
      runCommand h x s = .next (s.takeFault 0x19 .badField)) ∧
    (s.stream ds = none → exec (.dread ds i) s = .next (s.takeFault 0x19 .nullStream)) ∧
    (∀ l, s.stream ds = some l →
      (l.count < i → exec (.dread ds i) s = .next (s.takeFault 0x19 .digitIndex)) ∧
      (i = 0 → exec (.dread ds i) s = .next (s.respond ⟨.ok, 0, BitVec.ofNat 64 l.digits.length⟩)) ∧
      (∀ k d, i = k + 1 → l.digits[k]? = some d →
        exec (.dread ds i) s = .next (s.respond ⟨.ok, 0, BitVec.ofNat 64 d⟩)))

/-! ### The engine -/

/-- R89, R114, R8, R88, R30: ESTART reports the first failing check of its eight, in order, and changes nothing then; if
none fails it completes and only the engine changes. R7's natural-number parameters cannot be negative (log entry 3). -/
def Obligations.EstartChecksInOrder : Prop :=
  ∀ (s : State) (ra rb rd : Slot) (mode : EngineMode), s.fsr = none →
    (Instr.estart ra rb rd mode).header =
      { op := 0x20, rd := BitVec.ofNat 5 rd, ra := BitVec.ofNat 5 ra, rb := BitVec.ofNat 5 rb,
        imm8 := if mode = .practical then 1 else 0 } ∧
    (∀ h x : Word, (Header.unpack h).op = 0x20 → 1 < (Header.unpack h).imm8.toNat →
      runCommand h x s = .next (s.takeFault 0x20 .badField)) ∧
    (s.reg ra = none ∨ s.reg rb = none ∨ s.reg rd = none →
      exec (.estart ra rb rd mode) s = .next (s.takeFault 0x20 .nullReg)) ∧
    (∀ (a b d : Reg) (total wrt wrp : Nat) (k : Int), s.reg ra = some a → s.reg rb = some b → s.reg rd = some d →
      total = (if mode = .practical then s.cfg.iterP else s.cfg.n + (s.cfg.z + s.cfg.m - 1) / s.cfg.m) →
      k = s.cfg.m * (2 * total + 1 - s.cfg.n) - 2 * s.cfg.z →
      wrt = s.cfg.resWidthT.getD (1 + s.cfg.m * (2 * total + 1 - s.cfg.n) + max (a.w + b.w) (2 * d.w)) →
      wrp = s.cfg.resWidthP.getD
        (1 + max (a.w + b.w + s.cfg.m * (2 * total + 1 - s.cfg.n)) (k.toNat + 2 * s.cfg.m * total)) →
      exec (.estart ra rb rd mode) s =
        if s.cfg.m < 1 ∨ 32 < s.cfg.m ∨ s.cfg.n < 1 then .next (s.takeFault 0x20 .cfgOther)
        else if mode = .practical ∧ (2 ^ s.cfg.m ≤ s.cfg.alpha ∨ 2 ^ s.cfg.m ≤ s.cfg.beta ∨
            s.cfg.iterP < s.cfg.z / s.cfg.m + 1 ∨ s.cfg.trows < 1 ∨ s.cfg.tcols < 1) then
          .next (s.takeFault 0x20 .cfgOther)
        else if s.cfg.n * s.cfg.m % 2 = 1 then .next (s.takeFault 0x20 .cfgEven)
        else if mode = .practical ∧ s.cfg.z < s.cfg.m then .next (s.takeFault 0x20 .cfgZm)
        else if a.signed = true ∨ b.signed = true ∨ d.signed = true then .next (s.takeFault 0x20 .unsignedRequired)
        else if (b.w + s.cfg.m - 1) / s.cfg.m ≠ s.cfg.n then .next (s.takeFault 0x20 .digitCount)
        else if mode = .basic ∧ (d.w + s.cfg.z + s.cfg.m - 1) / s.cfg.m ≠ total then
          .next (s.takeFault 0x20 .digitCount)
        else if k < 0 then .next (s.takeFault 0x20 .cfgOther)
        else if s.cfg.maxWidth < wrt ∨ s.cfg.maxWidth < s.cfg.m * total + s.cfg.m + 1 ∨
            s.cfg.maxWidth < a.w + s.cfg.m * total ∨ s.cfg.maxWidth < a.w + s.cfg.m * (total - 1) ∨
            s.cfg.maxWidth < d.w + s.cfg.z ∨
            (mode = .practical ∧ (s.cfg.maxWidth < wrp ∨ s.cfg.maxWidth < s.cfg.m * total + s.cfg.m + 4)) then
          .next (s.takeFault 0x20 .widthLimit)
        else .next ({ s with engine := startEngine s.cfg mode a b d }.respond ⟨.ok, 0, 0⟩))

/-- R89, R30, R8, R88: when no check of R89 fails, ESTART completes, in either mode; and the engine it leaves: run state,
constants, digit lists, and every engine register's mode, width, bits and flags. RES and RESP hold b_1·A, with ovf set
when it does not fit a given RES_WIDTH_T or RES_WIDTH_P; it fits the default widths. -/
def Obligations.EstartInitialisesEngine : Prop :=
  ∀ (s : State) (ra rb rd : Slot) (mode : EngineMode) (a b d : Reg) (total k wrt wrp : Nat), s.fsr = none →
    s.reg ra = some a → s.reg rb = some b → s.reg rd = some d → StartOk s.cfg mode a b d total k wrt wrp →
    ∃ (e : Engine) (b1 : Nat), exec (.estart ra rb rd mode) s = .next ({ s with engine := e }.respond ⟨.ok, 0, 0⟩) ∧
      e.esr = (if mode = .practical then 5 else 1) ∧ e.eiter = 0 ∧ e.elastd = 0 ∧ e.total = total ∧ e.k = k ∧
      e.wA = a.w ∧ e.bd.count = s.cfg.n ∧ (∀ x ∈ e.bd.digits, x < 2 ^ s.cfg.m) ∧
      e.bd.digits.foldl (fun acc x => acc * 2 ^ s.cfg.m + x) 0 = b.bits.toNat ∧
      e.sd.count = (d.w + s.cfg.z + s.cfg.m - 1) / s.cfg.m ∧ (∀ x ∈ e.sd.digits, x < 2 ^ s.cfg.m) ∧
      e.sd.digits.foldl (fun acc x => acc * 2 ^ s.cfg.m + x) 0 = d.bits.toNat * 2 ^ s.cfg.z ∧
      e.bd.digits[0]? = some b1 ∧
      (∃ o : Bool, e.res = some ⟨wrt, BitVec.ofInt wrt (b1 * a.val), true, o, false⟩ ∧
        (1 ≤ wrt → (o = true ↔ ¬Range wrt true (b1 * a.val))) ∧ (s.cfg.resWidthT = none → o = false)) ∧
      e.root = some (Reg.zero (s.cfg.m * total) false) ∧
      (∃ r, e.mc = some r ∧ r.signed = false ∧ r.val = a.val ∧ r.ovf = false ∧ r.unf = false ∧
        r.w = a.w + s.cfg.m * (total - 1)) ∧
      e.sref = some ⟨d.w, d.bits, false, false, false⟩ ∧
      (mode = .basic → e.resp = none ∧ e.q = none ∧ e.qm = none ∧ e.d = none ∧ e.dm = none) ∧
      (mode = .practical →
        (∃ o : Bool, e.resp = some ⟨wrp, BitVec.ofInt wrp (b1 * a.val), true, o, false⟩ ∧
          (1 ≤ wrp → (o = true ↔ ¬Range wrp true (b1 * a.val))) ∧ (s.cfg.resWidthP = none → o = false)) ∧
        e.q = some (Reg.zero (s.cfg.m * total + 1) true) ∧
        e.qm = some ⟨s.cfg.m * total + 1, BitVec.allOnes _, true, false, false⟩ ∧
        e.d = some (Reg.zero (s.cfg.m * total + 2) true) ∧
        e.dm = some ⟨s.cfg.m * total + 2, BitVec.allOnes _, true, false, false⟩)

/-- R90: ESTEP has no field; with no active run it raises ENGINE_STATE. -/
def Obligations.EstepWithoutRunFaults : Prop :=
  Instr.estep.header = { op := 0x21 } ∧
    ∀ s : State, s.fsr = none → s.engine.active = false → exec .estep s = .next (s.takeFault 0x21 .engineState)

/-- R90, R91, R95, R96, R107 and the step of R97 (derived there): in an active basic run ESTEP completes; and in either
mode, whenever it completes, EITER advances, the run ends with its last iteration, what a run does not change stays, and
RES, ROOT and MC follow the recurrence with the digit t_i: each exact result is stored modulo the width and latches
overflow exactly when it does not fit. The doubled root in the linear-quadratic term has the m·I bits of ROOT·r; while
ROOT latches none, RES is the recurrence of R97 modulo its width, and exactly while RES latches none too. -/
def Obligations.EstepBasicRecurrence : Prop :=
  ∀ s : State, s.Inv → s.fsr = none → s.engine.active = true →
    (s.engine.mode = .basic → ∃ e : Engine, exec .estep s = .next ({ s with engine := e }.respond ⟨.ok, 0, 0⟩)) ∧
    ∀ e : Engine, exec .estep s = .next ({ s with engine := e }.respond ⟨.ok, 0, 0⟩) →
      ∃ (res root mc res' root' mc' : Reg) (t b : Nat) (next : Int),
        s.engine.res = some res ∧ s.engine.root = some root ∧ s.engine.mc = some mc ∧
        e.res = some res' ∧ e.root = some root' ∧ e.mc = some mc' ∧
        NextRootDigit s.engine t ∧ t < 2 ^ s.cfg.m ∧ NextMultiplierDigit s.cfg s.engine b ∧
        (s.engine.mode = .basic → e.elastd = t) ∧
        e.eiter = s.engine.eiter + 1 ∧ (e.done = true ↔ s.engine.eiter + 1 = s.engine.total) ∧
        (e.active = true ↔ s.engine.eiter + 1 < s.engine.total) ∧ e.mode = s.engine.mode ∧
        e.total = s.engine.total ∧ e.k = s.engine.k ∧ e.bd = s.engine.bd ∧ e.sd = s.engine.sd ∧ e.wA = s.engine.wA ∧
        e.sref = s.engine.sref ∧
        (s.engine.mode = .basic → e.resp = none ∧ e.q = none ∧ e.qm = none ∧ e.d = none ∧ e.dm = none) ∧
        Stored root (root.val * 2 ^ s.cfg.m + t) root' ∧
        ResidualStep s.cfg s.engine.k res (b * mc.val)
          (t * (2 * (root.val * 2 ^ s.cfg.m % 2 ^ (s.cfg.m * s.engine.total)) + t)) res' ∧
        (e.done = true → mc' = mc) ∧ (e.done = false → Stored mc (mc.val * 2 ^ s.cfg.m) mc') ∧
        (mc'.ovf = false → e.done = false → mc'.val = mc.val * 2 ^ s.cfg.m) ∧
        next = res.val * 2 ^ (2 * s.cfg.m) + b * mc.val * 2 ^ s.cfg.m -
          t * (2 * (root.val * 2 ^ s.cfg.m) + t) * 2 ^ s.engine.k ∧
        (root'.ovf = false → root'.val = root.val * 2 ^ s.cfg.m + t ∧ res'.bits = BitVec.ofInt res'.w next ∧
          (res'.ovf = false → res'.val = next))

/-- R90, R100, R104: in a practical run an iteration below delta selects digit 0, which always passes, so ESTEP
completes. -/
def Obligations.EstepEarlyPracticalSelectsZero : Prop :=
  ∀ s : State, s.Inv → s.fsr = none → s.engine.active = true → s.engine.mode = .practical →
    s.engine.eiter + 1 < s.cfg.z / s.cfg.m + 1 →
      ∃ e : Engine, exec .estep s = .next ({ s with engine := e }.respond ⟨.ok, 0, 0⟩) ∧
        e.eiter = s.engine.eiter + 1 ∧ e.elastd = 0

/-- R99, R100, R105, and the step of R106 (derived there): a practical ESTEP that completes uses the digit x that the
selection gives for the shifted residual and for Q before the conversion. Q and QM get the seed and the appended digit
of R105, D and DM twice them, and RESP the three results of R99 with U = [D | x] or [DM | r+x] in m·I + 3 bits: each
exact result is stored modulo the width and latches overflow exactly when it does not fit, which for D and DM is never.
From registers that hold Q, Q−1, 2Q and 2Q−1, the next ones hold Q' = r·Q + x, Q'−1, 2Q' and 2Q'−1 while the roots latch
none; RESP then is the recurrence with x modulo its width, and exactly while RESP latches none too. -/
def Obligations.EstepPracticalRecurrence : Prop :=
  ∀ (s : State) (e : Engine) (resp q qm d dm resp' q' qm' d' dm' mc : Reg) (b : Nat) (x u next : Int),
    s.Inv → s.fsr = none → s.engine.active = true → s.engine.mode = .practical →
    exec .estep s = .next ({ s with engine := e }.respond ⟨.ok, 0, 0⟩) →
    s.engine.resp = some resp → s.engine.q = some q → s.engine.qm = some qm → s.engine.d = some d →
    s.engine.dm = some dm → s.engine.mc = some mc → NextMultiplierDigit s.cfg s.engine b →
    e.resp = some resp' → e.q = some q' → e.qm = some qm' → e.d = some d' → e.dm = some dm' →
    x = e.elastd →
    u = (if 0 ≤ x then d.val * 2 ^ s.cfg.m + x else dm.val * 2 ^ s.cfg.m + (2 ^ s.cfg.m + x)) →
    next = resp.val * 2 ^ (2 * s.cfg.m) + b * mc.val * 2 ^ s.cfg.m -
      x * (2 * (q.val * 2 ^ s.cfg.m) + x) * 2 ^ s.engine.k →
      selectDigit s.cfg (s.engine.eiter + 1) (shiftedResidual s.cfg resp mc b) q = .ok x ∧
      -(s.cfg.alpha : Int) ≤ x ∧ x ≤ s.cfg.beta ∧
      Stored q (if 0 ≤ x then q.val * 2 ^ s.cfg.m + x else qm.val * 2 ^ s.cfg.m + (2 ^ s.cfg.m + x)) q' ∧
      Stored qm (if 0 < x then q.val * 2 ^ s.cfg.m + (x - 1) else qm.val * 2 ^ s.cfg.m + (2 ^ s.cfg.m + x - 1)) qm' ∧
      d' = ⟨d.w, BitVec.ofInt d.w (2 * q'.val), true, d.ovf, d.unf⟩ ∧ d'.val = 2 * q'.val ∧
      dm' = ⟨dm.w, BitVec.ofInt dm.w (2 * qm'.val + 1), true, dm.ovf, dm.unf⟩ ∧ dm'.val = 2 * qm'.val + 1 ∧
      ResidualStep s.cfg s.engine.k resp (b * mc.val)
        (x * (BitVec.ofInt (s.cfg.m * s.engine.total + 3) u).toInt) resp' ∧
      (qm.val = q.val - 1 → d.val = 2 * q.val → dm.val = 2 * q.val - 1 →
        Stored q (q.val * 2 ^ s.cfg.m + x) q' ∧ Stored qm (q.val * 2 ^ s.cfg.m + x - 1) qm' ∧
        (q'.ovf = false → q'.val = q.val * 2 ^ s.cfg.m + x ∧ resp'.bits = BitVec.ofInt resp'.w next ∧
          (resp'.ovf = false → resp'.val = next)) ∧
        (q'.ovf = false → qm'.ovf = false → qm'.val = q'.val - 1 ∧ dm'.val = 2 * q'.val - 1))

/-- R90, R99, R100, R103, R104: a practical ESTEP completes exactly when the selection for the shifted residual and for Q
gives a digit, which is then ELASTD; it raises TABLE_INDEX or DIGIT_RANGE exactly when the selection does, and then
changes no engine state. -/
def Obligations.EstepPracticalFaultsChangeNothing : Prop :=
  ∀ s : State, s.Inv → s.fsr = none → s.engine.active = true → s.engine.mode = .practical →
    ∃ (resp q mc : Reg) (b : Nat), s.engine.resp = some resp ∧ s.engine.q = some q ∧ s.engine.mc = some mc ∧
      NextMultiplierDigit s.cfg s.engine b ∧
      ((∃ (digit : Int) (e : Engine),
          selectDigit s.cfg (s.engine.eiter + 1) (shiftedResidual s.cfg resp mc b) q = .ok digit ∧
          exec .estep s = .next ({ s with engine := e }.respond ⟨.ok, 0, 0⟩) ∧
          e.eiter = s.engine.eiter + 1 ∧ e.elastd = digit) ∨
        ∃ c : Cause, (c = .tableIndex ∨ c = .digitRange) ∧
          selectDigit s.cfg (s.engine.eiter + 1) (shiftedResidual s.cfg resp mc b) q = .error c ∧
          exec .estep s = .next (s.takeFault 0x21 c))

/-- R100 to R104, R77: the digit selection, from the bits of the shifted residual and of Q. Below delta it is 0; at delta
the first-digit selector's thresholds decide; above delta the samples P and S·, read one bit lower when the loose bit
is 0, give the region, the row (the first matching override replaces it) and the column of the table; and the digit
must lie in [−alpha, +beta]. -/
def Obligations.SelectionFollowsRules : Prop :=
  ∀ (c : Config) (i : Nat) (resp q : Reg),
    (i < c.z / c.m + 1 → selectDigit c i resp q = .ok 0) ∧
    (∀ (f : BitVec 3) (d : Int), i = c.z / c.m + 1 → (∀ j, j < 3 → f.getLsbD j = resp.bitAt (c.fdPos + j)) →
      d = (if c.fdT3 ≤ f.toNat then 3 else if c.fdT2 ≤ f.toNat then 2 else 1) →
      selectDigit c i resp q = if -(c.alpha : Int) ≤ d ∧ d ≤ c.beta then .ok d else .error .digitRange) ∧
    (∀ (off region col row row' : Int) (p : BitVec (c.np + 2)) (ss : BitVec (c.ns + 1)), c.z / c.m + 1 < i →
      off = (if q.bitAt (c.sBase + c.m * i + c.ns) then 0 else 1) →
      (∀ j, j < c.np + 2 → p.getLsbD j = resp.bitAt (c.pBase + c.m * i - off + j)) →
      (∀ j, j < c.ns + 1 → ss.getLsbD j = q.bitAt (c.sBase + c.m * i - off + j)) →
      region = p.toInt / 2 ^ c.fracP → col = ss.toNat / 2 ^ c.fracS - c.colBase →
      row = c.origin - (if c.symmetric then |region| else region) →
      ((row' = row ∧ ∀ o ∈ c.overrides, o.iteration = i → o.fromRow ≠ row) ∨
        ∃ before after, c.overrides = before ++ ⟨i, row, row'⟩ :: after ∧
          ∀ o ∈ before, o.iteration = i → o.fromRow ≠ row) →
      (¬(0 ≤ row' ∧ row' < c.trows ∧ 0 ≤ col ∧ col < c.tcols) → selectDigit c i resp q = .error .tableIndex) ∧
      ∀ (y : Fin c.trows) (x : Fin c.tcols) (d : Int), row' = y.val → col = x.val →
        d = (if c.symmetric = true ∧ region < 0 then -c.table[y][x] else c.table[y][x]) →
        selectDigit c i resp q = if -(c.alpha : Int) ≤ d ∧ d ≤ c.beta then .ok d else .error .digitRange)

/-- R103 (derived there, §8 "Table-bounds scenario"): in a symmetric table, with no override in this iteration for the
row of regions g and −g, g > 0, a sample in region −g gives the negation of the digit a sample in region g gives at the
same column; and one gives TABLE_INDEX when the other does. -/
def Obligations.SymmetricTableMirrors : Prop :=
  ∀ (c : Config) (i : Nat) (resp resp' q q' : Reg) (g : Int), c.symmetric = true → 0 < g →
    (∀ o ∈ c.overrides, o.iteration = i → o.fromRow ≠ c.origin - g) →
    (samples c i resp q).1.val / 2 ^ c.fracP = g → (samples c i resp' q').1.val / 2 ^ c.fracP = -g →
    (samples c i resp q).2 = (samples c i resp' q').2 →
    (∀ v, tableDigit c i resp q = .ok v → tableDigit c i resp' q' = .ok (-v)) ∧
    (tableDigit c i resp q = .error .tableIndex → tableDigit c i resp' q' = .error .tableIndex)

/-- R93, R92, R129: in basic mode, when no check of R89 fails, ERUN completes after exactly n + ⌈Z/m⌉ iterations with
DONE set. -/
def Obligations.ErunBasicCompletes : Prop :=
  ∀ (s : State) (ra rb rd : Slot) (a b d : Reg) (total k wrt wrp : Nat), s.Inv → s.fsr = none →
    s.reg ra = some a → s.reg rb = some b → s.reg rd = some d → StartOk s.cfg .basic a b d total k wrt wrp →
      ∃ e : Engine, exec (.erun ra rb rd .basic) s = .next ({ s with engine := e }.respond ⟨.ok, 0, 0⟩) ∧
        e.active = false ∧ e.done = true ∧ e.eiter = s.cfg.n + (s.cfg.z + s.cfg.m - 1) / s.cfg.m ∧
        e.total = e.eiter

/-- R93, R89, R112: ERUN is ESTART and then ESTEP until the run is over, without their responses. If ESTART raises, ERUN
raises the same cause and changes nothing else; if iteration j raises, the iterations before it stay committed; FOP is
ERUN's. -/
def Obligations.ErunIsEstartThenEsteps : Prop :=
  ∀ (s : State) (ra rb rd : Slot) (mode : EngineMode), s.fsr = none →
    (Instr.erun ra rb rd mode).header =
      { op := 0x22, rd := BitVec.ofNat 5 rd, ra := BitVec.ofNat 5 ra, rb := BitVec.ofNat 5 rb,
        imm8 := if mode = .practical then 1 else 0 } ∧
    (∀ h x : Word, (Header.unpack h).op = 0x22 → 1 < (Header.unpack h).imm8.toNat →
      runCommand h x s = .next (s.takeFault 0x22 .badField)) ∧
    (∀ c, exec (.estart ra rb rd mode) s = .next (s.takeFault 0x20 c) →
      exec (.erun ra rb rd mode) s = .next (s.takeFault 0x22 c)) ∧
    (∀ (es : Nat → Engine) (j : Nat), s.Inv →
      exec (.estart ra rb rd mode) s = .next ({ s with engine := es 0 }.respond ⟨.ok, 0, 0⟩) →
      (∀ k, k < j → exec .estep { s with engine := es k } =
        .next ({ s with engine := es (k + 1) }.respond ⟨.ok, 0, 0⟩)) →
      ((es j).active = false →
        exec (.erun ra rb rd mode) s = .next ({ s with engine := es j }.respond ⟨.ok, 0, 0⟩)) ∧
      (∀ c, (es j).active = true → exec .estep { s with engine := es j } =
          .next ({ s with engine := es j }.takeFault 0x21 c) →
        exec (.erun ra rb rd mode) s = .next ({ s with engine := es j }.takeFault 0x22 c)))

/-- R92, R33, R95: the terminal evaluation, when the last iteration completes: the run is DONE and ESR reports the two
success criteria and the flags of the reported residual, which is RES in basic and RESP in practical mode, and in
practical mode the theoretical criteria too, where THEO_ROOT_OK is 0 if c > I (R95, 90_conflicts.md C4). -/
def Obligations.TerminalReport : Prop :=
  ∀ (s : State) (e : Engine) (tres troot sref : Reg), s.Inv → s.fsr = none → s.engine.active = true →
    s.engine.eiter + 1 = s.engine.total →
    exec .estep s = .next ({ s with engine := e }.respond ⟨.ok, 0, 0⟩) →
    e.res = some tres → e.root = some troot → e.sref = some sref →
      e.active = false ∧ e.done = true ∧
      (s.engine.mode = .basic →
        e.esr.toNat = 2 + (if tres.val = 0 then 8 else 0) + (if troot.val / 2 ^ s.cfg.z = sref.val then 16 else 0) +
          tres.ovf.toNat * 32 + tres.unf.toNat * 64) ∧
      (s.engine.mode = .practical → ∀ res root, e.resp = some res → e.q = some root →
        e.esr.toNat = 6 + (if res.val = 0 then 8 else 0) + (if root.val / 2 ^ s.cfg.z = sref.val then 16 else 0) +
          res.ovf.toNat * 32 + res.unf.toNat * 64 + (if tres.val = 0 then 128 else 0) +
          (if s.engine.sd.count ≤ s.engine.total ∧ troot.val / 2 ^ s.cfg.z = sref.val then 256 else 0))

/-- R98 (derived there, §8 "Basic-mode convergence"), R92: for A = s1², B = s2² and S = s1·s2 in unsigned registers of
width n·m, half-width seeds, the default residual width and a MAX_WIDTH that holds the run, ERUN in basic mode ends
with RES = 0, ROOT = S·2^Z, no flag set and ESR = 0x1A. -/
def Obligations.BasicRunConverges : Prop :=
  ∀ (s : State) (ra rb rd : Slot) (s1 s2 total : Nat) (a b d : Reg), s.fsr = none →
    1 ≤ s.cfg.m → s.cfg.m ≤ 32 → 1 ≤ s.cfg.n → s.cfg.n * s.cfg.m % 2 = 0 → s.cfg.resWidthT = none →
    total = s.cfg.n + (s.cfg.z + s.cfg.m - 1) / s.cfg.m →
    1 + s.cfg.m * (2 * total + 1 - s.cfg.n) + 2 * (s.cfg.n * s.cfg.m) ≤ s.cfg.maxWidth →
    s.cfg.m * total + s.cfg.m + 1 ≤ s.cfg.maxWidth → s.cfg.n * s.cfg.m + s.cfg.m * total ≤ s.cfg.maxWidth →
    s.cfg.n * s.cfg.m + s.cfg.z ≤ s.cfg.maxWidth →
    s1 < 2 ^ (s.cfg.n * s.cfg.m / 2) → s2 < 2 ^ (s.cfg.n * s.cfg.m / 2) →
    s.reg ra = some a → s.reg rb = some b → s.reg rd = some d →
    a.signed = false → b.signed = false → d.signed = false →
    a.w = s.cfg.n * s.cfg.m → b.w = s.cfg.n * s.cfg.m → d.w = s.cfg.n * s.cfg.m →
    a.bits.toNat = s1 * s1 → b.bits.toNat = s2 * s2 → d.bits.toNat = s1 * s2 →
      ∃ (e : Engine) (res root : Reg),
        exec (.erun ra rb rd .basic) s = .next ({ s with engine := e }.respond ⟨.ok, 0, 0⟩) ∧
        e.esr = 0x1A ∧ e.res = some res ∧ e.root = some root ∧ res.val = 0 ∧ res.ovf = false ∧ res.unf = false ∧
        root.val = s1 * s2 * 2 ^ s.cfg.z ∧ root.ovf = false ∧ root.unf = false

/-- R94, R30: EGET's selector numbers, and its checks in order, the decode check first; the copy has all five fields. -/
def Obligations.EgetCopiesEngineRegister : Prop :=
  ∀ (s : State) (rd : Slot) (sel : EngineSel), s.fsr = none →
    (Instr.eget rd sel).header =
      { op := 0x23, rd := BitVec.ofNat 5 rd,
        imm8 := match sel with
          | .res => 0 | .root => 1 | .mc => 2 | .sref => 3 | .resp => 4 | .q => 5 | .qm => 6 | .d => 7 | .dm => 8 } ∧
    [EngineSel.res, .root, .mc, .sref, .resp, .q, .qm, .d, .dm].map s.engine.register =
      [s.engine.res, s.engine.root, s.engine.mc, s.engine.sref, s.engine.resp, s.engine.q, s.engine.qm, s.engine.d,
        s.engine.dm] ∧
    (∀ h x : Word, (Header.unpack h).op = 0x23 → 8 < (Header.unpack h).imm8.toNat →
      runCommand h x s = .next (s.takeFault 0x23 .badField)) ∧
    (∀ r, s.reg rd = some r → exec (.eget rd sel) s = .next (s.takeFault 0x23 .slotBusy)) ∧
    (s.reg rd = none → s.engine.register sel = none →
      exec (.eget rd sel) s = .next (s.takeFault 0x23 .engineState)) ∧
    (∀ r, s.reg rd = none → s.engine.register sel = some r →
      exec (.eget rd sel) s = .next ((s.setReg rd (some r)).respond ⟨.ok, 0, 0⟩))

/-! ### Control and status registers -/

/-- R109: RDCSR responds with the CSR in every state, FAULTED included, and changes nothing; an IMM8 above 4 is
BAD_FIELD, or refused when the core is FAULTED. EITER, ETOTAL and ELASTD are the engine's (R31). -/
def Obligations.RdcsrReadsCsr : Prop :=
  ∀ (s : State) (c : Csr),
    (Instr.rdcsr c).header =
      { op := 0x30, imm8 := match c with | .fsr => 0 | .esr => 1 | .eiter => 2 | .etotal => 3 | .elastd => 4 } ∧
    exec (.rdcsr c) s = .next (s.respond ⟨.ok, 0, s.csr c⟩) ∧
    (∀ h x : Word, (Header.unpack h).op = 0x30 → 4 < (Header.unpack h).imm8.toNat →
      (s.fsr = none → runCommand h x s = .next (s.takeFault 0x30 .badField)) ∧
      (s.fsr ≠ none → runCommand h x s = .next (s.respond ⟨.refused, 0, 0⟩))) ∧
    (s.csr .eiter).toNat = s.engine.eiter % 2 ^ 64 ∧ (s.csr .etotal).toNat = s.engine.total % 2 ^ 64 ∧
    (-2 ^ 63 ≤ s.engine.elastd → s.engine.elastd < 2 ^ 63 → (s.csr .elastd).toInt = s.engine.elastd)

/-- R32, R113: FSR's fields after a fault, with the code of each cause, and 0 when not FAULTED. -/
def Obligations.FsrLayout : Prop :=
  (∀ s : State,
    (s.fsr = none → s.csr .fsr = 0) ∧
    (∀ f, s.fsr = some f →
      (s.csr .fsr).toNat = 1 + f.cause.code.toNat * 2 ^ 8 + f.fop.toNat * 2 ^ 16)) ∧
  [Cause.nullReg, .zeroWidth, .signMismatch, .signRequired, .bitcount, .slotBusy, .aliased, .widthLimit, .tableIndex,
      .digitRange, .cfgEven, .cfgZm, .cfgOther, .digitCount, .engineState, .illegalOpcode, .badField, .negativeSqrt,
      .digitIndex, .nullStream, .unsignedRequired].map (fun c => c.code.toNat) =
    [1, 2, 3, 4, 5, 6, 7, 8, 9, 10, 11, 12, 13, 14, 15, 16, 17, 18, 19, 21, 22]

/-- R33: ESR's fields, bit by bit; under the invariant the result bits 3 to 8 are 0 unless the last run is done. -/
def Obligations.EsrLayout : Prop :=
  ∀ s : State,
    (s.csr .esr).toNat =
      s.engine.active.toNat + s.engine.done.toNat * 2 + (if s.engine.mode = .practical then 4 else 0) +
        s.engine.report.resZero.toNat * 8 + s.engine.report.rootOk.toNat * 16 + s.engine.report.resOvf.toNat * 32 +
        s.engine.report.resUnf.toNat * 64 + s.engine.report.theoZero.toNat * 128 +
        s.engine.report.theoRootOk.toNat * 256 ∧
    (s.Inv → s.engine.done = false → (s.csr .esr).toNat < 8)
end

