-- ==== Sys2Proof/Laws/State.lean ====
section
/-! SUPPORT. One lemma per field of State and per named update, true by definition: a later proof reads a field through
an update without unfolding it. -/

namespace Sys2Proof.Machine

/-! ### setReg -/

@[simp] theorem State.setReg_cfg (s : State) (i : Slot) (r : Option Reg) : (s.setReg i r).cfg = s.cfg := rfl
@[simp] theorem State.setReg_regs (s : State) (i : Slot) (r : Option Reg) : (s.setReg i r).regs = s.regs.set i r := rfl
@[simp] theorem State.setReg_streams (s : State) (i : Slot) (r : Option Reg) : (s.setReg i r).streams = s.streams := rfl
@[simp] theorem State.setReg_engine (s : State) (i : Slot) (r : Option Reg) : (s.setReg i r).engine = s.engine := rfl
@[simp] theorem State.setReg_fsr (s : State) (i : Slot) (r : Option Reg) : (s.setReg i r).fsr = s.fsr := rfl
@[simp] theorem State.setReg_input (s : State) (i : Slot) (r : Option Reg) : (s.setReg i r).input = s.input := rfl
@[simp] theorem State.setReg_responses (s : State) (i : Slot) (r : Option Reg) : (s.setReg i r).responses = s.responses := rfl
@[simp] theorem State.setReg_randomBits (s : State) (i : Slot) (r : Option Reg) : (s.setReg i r).randomBits = s.randomBits := rfl
@[simp] theorem State.setReg_furtherDrawn (s : State) (i : Slot) (r : Option Reg) : (s.setReg i r).furtherDrawn = s.furtherDrawn := rfl

/-! ### setStream -/

@[simp] theorem State.setStream_cfg (s : State) (k : StreamNo) (l : DigitList) : (s.setStream k l).cfg = s.cfg := rfl
@[simp] theorem State.setStream_regs (s : State) (k : StreamNo) (l : DigitList) : (s.setStream k l).regs = s.regs := rfl
@[simp] theorem State.setStream_streams (s : State) (k : StreamNo) (l : DigitList) : (s.setStream k l).streams = s.streams.set k (some l) := rfl
@[simp] theorem State.setStream_engine (s : State) (k : StreamNo) (l : DigitList) : (s.setStream k l).engine = s.engine := rfl
@[simp] theorem State.setStream_fsr (s : State) (k : StreamNo) (l : DigitList) : (s.setStream k l).fsr = s.fsr := rfl
@[simp] theorem State.setStream_input (s : State) (k : StreamNo) (l : DigitList) : (s.setStream k l).input = s.input := rfl
@[simp] theorem State.setStream_responses (s : State) (k : StreamNo) (l : DigitList) : (s.setStream k l).responses = s.responses := rfl
@[simp] theorem State.setStream_randomBits (s : State) (k : StreamNo) (l : DigitList) : (s.setStream k l).randomBits = s.randomBits := rfl
@[simp] theorem State.setStream_furtherDrawn (s : State) (k : StreamNo) (l : DigitList) : (s.setStream k l).furtherDrawn = s.furtherDrawn := rfl

/-! ### respond -/

@[simp] theorem State.respond_cfg (s : State) (r : Response) : (s.respond r).cfg = s.cfg := rfl
@[simp] theorem State.respond_regs (s : State) (r : Response) : (s.respond r).regs = s.regs := rfl
@[simp] theorem State.respond_streams (s : State) (r : Response) : (s.respond r).streams = s.streams := rfl
@[simp] theorem State.respond_engine (s : State) (r : Response) : (s.respond r).engine = s.engine := rfl
@[simp] theorem State.respond_fsr (s : State) (r : Response) : (s.respond r).fsr = s.fsr := rfl
@[simp] theorem State.respond_input (s : State) (r : Response) : (s.respond r).input = s.input := rfl
@[simp] theorem State.respond_responses (s : State) (r : Response) : (s.respond r).responses = s.responses ++ [r] := rfl
@[simp] theorem State.respond_randomBits (s : State) (r : Response) : (s.respond r).randomBits = s.randomBits := rfl
@[simp] theorem State.respond_furtherDrawn (s : State) (r : Response) : (s.respond r).furtherDrawn = s.furtherDrawn := rfl

/-! ### takeFault -/

@[simp] theorem State.takeFault_cfg (s : State) (fop : BitVec 6) (c : Cause) : (s.takeFault fop c).cfg = s.cfg := rfl
@[simp] theorem State.takeFault_regs (s : State) (fop : BitVec 6) (c : Cause) : (s.takeFault fop c).regs = s.regs := rfl
@[simp] theorem State.takeFault_streams (s : State) (fop : BitVec 6) (c : Cause) : (s.takeFault fop c).streams = s.streams := rfl
@[simp] theorem State.takeFault_engine (s : State) (fop : BitVec 6) (c : Cause) : (s.takeFault fop c).engine = s.engine := rfl
@[simp] theorem State.takeFault_fsr (s : State) (fop : BitVec 6) (c : Cause) : (s.takeFault fop c).fsr = some ⟨c, fop⟩ := rfl
@[simp] theorem State.takeFault_input (s : State) (fop : BitVec 6) (c : Cause) : (s.takeFault fop c).input = s.input := rfl
@[simp] theorem State.takeFault_responses (s : State) (fop : BitVec 6) (c : Cause) : (s.takeFault fop c).responses = s.responses ++ [⟨.fault, c.code, 0⟩] := rfl
@[simp] theorem State.takeFault_randomBits (s : State) (fop : BitVec 6) (c : Cause) : (s.takeFault fop c).randomBits = s.randomBits := rfl
@[simp] theorem State.takeFault_furtherDrawn (s : State) (fop : BitVec 6) (c : Cause) : (s.takeFault fop c).furtherDrawn = s.furtherDrawn := rfl

/-! ### hostReset -/

@[simp] theorem State.hostReset_cfg (s : State) : (s.hostReset).cfg = s.cfg := rfl
@[simp] theorem State.hostReset_regs (s : State) : (s.hostReset).regs = Vector.replicate 32 none := rfl
@[simp] theorem State.hostReset_streams (s : State) : (s.hostReset).streams = Vector.replicate 4 none := rfl
@[simp] theorem State.hostReset_engine (s : State) : (s.hostReset).engine = Engine.reset := rfl
@[simp] theorem State.hostReset_fsr (s : State) : (s.hostReset).fsr = none := rfl
@[simp] theorem State.hostReset_input (s : State) : (s.hostReset).input = s.input := rfl
@[simp] theorem State.hostReset_responses (s : State) : (s.hostReset).responses = s.responses := rfl
@[simp] theorem State.hostReset_randomBits (s : State) : (s.hostReset).randomBits = s.randomBits := rfl
@[simp] theorem State.hostReset_furtherDrawn (s : State) : (s.hostReset).furtherDrawn = s.furtherDrawn := rfl

/-! ### resetWith -/

@[simp] theorem State.resetWith_cfg (c : Config) : (State.resetWith c).cfg = c := rfl
@[simp] theorem State.resetWith_regs (c : Config) : (State.resetWith c).regs = Vector.replicate 32 none := rfl
@[simp] theorem State.resetWith_streams (c : Config) : (State.resetWith c).streams = Vector.replicate 4 none := rfl
@[simp] theorem State.resetWith_engine (c : Config) : (State.resetWith c).engine = Engine.reset := rfl
@[simp] theorem State.resetWith_fsr (c : Config) : (State.resetWith c).fsr = none := rfl
@[simp] theorem State.resetWith_input (c : Config) : (State.resetWith c).input = [] := rfl
@[simp] theorem State.resetWith_responses (c : Config) : (State.resetWith c).responses = [] := rfl
@[simp] theorem State.resetWith_randomBits (c : Config) : (State.resetWith c).randomBits = [] := rfl
@[simp] theorem State.resetWith_furtherDrawn (c : Config) : (State.resetWith c).furtherDrawn = 0 := rfl

/-! ### Register slots and buffers through an update -/

@[simp] theorem State.reg_setReg_same (s : State) (i : Slot) (r : Option Reg) : (s.setReg i r).reg i = r := by
  simp [State.reg, State.setReg]

theorem State.reg_setReg_ne (s : State) {i j : Slot} (r : Option Reg) (h : j ≠ i) : (s.setReg i r).reg j = s.reg j := by
  have : i.val ≠ j.val := fun e => h (Fin.ext e.symm)
  simp [State.reg, State.setReg, this]

theorem State.reg_setReg (s : State) (i j : Slot) (r : Option Reg) :
    (s.setReg i r).reg j = if j = i then r else s.reg j := by
  split
  · next h => subst h; simp
  · next h => exact s.reg_setReg_ne r h

@[simp] theorem State.stream_setStream_same (s : State) (k : StreamNo) (l : DigitList) :
    (s.setStream k l).stream k = some l := by
  simp [State.stream, State.setStream]

theorem State.stream_setStream_ne (s : State) {k j : StreamNo} (l : DigitList) (h : j ≠ k) :
    (s.setStream k l).stream j = s.stream j := by
  have : k.val ≠ j.val := fun e => h (Fin.ext e.symm)
  simp [State.stream, State.setStream, this]

@[simp] theorem State.reg_respond (s : State) (r : Response) (i : Slot) : (s.respond r).reg i = s.reg i := rfl

@[simp] theorem State.reg_takeFault (s : State) (fop : BitVec 6) (c : Cause) (i : Slot) :
    (s.takeFault fop c).reg i = s.reg i := rfl

@[simp] theorem State.reg_setStream (s : State) (k : StreamNo) (l : DigitList) (i : Slot) :
    (s.setStream k l).reg i = s.reg i := rfl

@[simp] theorem State.stream_setReg (s : State) (i : Slot) (r : Option Reg) (k : StreamNo) :
    (s.setReg i r).stream k = s.stream k := rfl

@[simp] theorem State.stream_respond (s : State) (r : Response) (k : StreamNo) :
    (s.respond r).stream k = s.stream k := rfl

@[simp] theorem State.stream_takeFault (s : State) (fop : BitVec 6) (c : Cause) (k : StreamNo) :
    (s.takeFault fop c).stream k = s.stream k := rfl

@[simp] theorem State.reg_resetWith (c : Config) (i : Slot) : (State.resetWith c).reg i = none := by
  simp [State.reg]

@[simp] theorem State.stream_resetWith (c : Config) (k : StreamNo) : (State.resetWith c).stream k = none := by
  simp [State.stream]

@[simp] theorem State.reg_hostReset (s : State) (i : Slot) : s.hostReset.reg i = none := by
  simp [State.reg]

@[simp] theorem State.stream_hostReset (s : State) (k : StreamNo) : s.hostReset.stream k = none := by
  simp [State.stream]

end Sys2Proof.Machine
end

