-- ==== Sys2Proof/Laws/Ops.lean ====
section
/-! SUPPORT. What each shared operation can do, said once: the checks, the frame of a command, the step. -/

namespace Sys2Proof.Machine

/-! ### Checks -/

@[simp] theorem require_pos {p : Prop} [Decidable p] (c : Cause) (h : p) : require p c = .ok () := if_pos h

@[simp] theorem require_neg {p : Prop} [Decidable p] (c : Cause) (h : ¬p) : require p c = .error c := if_neg h

theorem require_eq_ok {p : Prop} [Decidable p] {c : Cause} {u : Unit} : require p c = .ok u ↔ p := by
  unfold require; split <;> simp [*]

theorem require_eq_error {p : Prop} [Decidable p] {c d : Cause} : require p c = .error d ↔ ¬p ∧ c = d := by
  unfold require; split <;> simp [*]

@[simp] theorem State.operand_some {s : State} {i : Slot} {r : Reg} (h : s.reg i = some r) : s.operand i = .ok r := by
  simp [State.operand, h]

@[simp] theorem State.operand_none {s : State} {i : Slot} (h : s.reg i = none) : s.operand i = .error .nullReg := by
  simp [State.operand, h]

theorem State.operand_eq_ok {s : State} {i : Slot} {r : Reg} : s.operand i = .ok r ↔ s.reg i = some r := by
  cases h : s.reg i <;> simp [State.operand, h]

@[simp] theorem State.freeSlot_none {s : State} {i : Slot} (h : s.reg i = none) : s.freeSlot i = .ok () :=
  require_pos _ h

@[simp] theorem State.freeSlot_some {s : State} {i : Slot} {r : Reg} (h : s.reg i = some r) :
    s.freeSlot i = .error .slotBusy := require_neg _ (by simp [h])

theorem State.freeSlot_eq_ok {s : State} {i : Slot} {u : Unit} : s.freeSlot i = .ok u ↔ s.reg i = none :=
  require_eq_ok

@[simp] theorem State.streamOperand_some {s : State} {k : StreamNo} {l : DigitList} (h : s.stream k = some l) :
    s.streamOperand k = .ok l := by
  simp [State.streamOperand, h]

@[simp] theorem State.streamOperand_none {s : State} {k : StreamNo} (h : s.stream k = none) :
    s.streamOperand k = .error .nullStream := by
  simp [State.streamOperand, h]

@[simp] theorem allocated_some (r : Reg) : allocated (some r) = .ok r := rfl

@[simp] theorem allocated_none : allocated none = .error .engineState := rfl

theorem allocated_eq_ok {o : Option Reg} {r : Reg} : allocated o = .ok r ↔ o = some r := by
  cases o <;> simp [allocated]

/-! ### Sequencing of checks -/

@[simp] theorem ok_bind {α β : Type} (a : α) (f : α → Except Cause β) : (Except.ok a >>= f) = f a := rfl

@[simp] theorem error_bind {α β : Type} (c : Cause) (f : α → Except Cause β) :
    ((Except.error c : Except Cause α) >>= f) = .error c := rfl

@[simp] theorem return_eq_ok {α : Type} (a : α) : (pure a : Except Cause α) = .ok a := rfl

theorem bind_eq_ok {α β : Type} {x : Except Cause α} {f : α → Except Cause β} {b : β} :
    (x >>= f) = .ok b ↔ ∃ a, x = .ok a ∧ f a = .ok b := by
  cases x <;> simp

/-! ### The frame of a command (R15, R112) -/

theorem State.unlessFaulted_faulted {s : State} {f : FaultRecord} (h : s.fsr = some f) (k : Answer) :
    s.unlessFaulted k = .next (s.respond refusedResponse) := by
  simp [State.unlessFaulted, h]

theorem State.unlessFaulted_running {s : State} (h : s.fsr = none) (k : Answer) : s.unlessFaulted k = k := by
  simp [State.unlessFaulted, h]

theorem State.command_faulted {s : State} {f : FaultRecord} (h : s.fsr = some f) (o : Opcode)
    (body : Except Cause (State × Word)) : s.command o body = .next (s.respond refusedResponse) :=
  s.unlessFaulted_faulted h _

theorem State.command_ok {s : State} (h : s.fsr = none) (o : Opcode) (t : State) (v : Word) :
    s.command o (.ok (t, v)) = .next (t.respond (okResponse v)) :=
  s.unlessFaulted_running h _

theorem State.command_error {s : State} (h : s.fsr = none) (o : Opcode) (c : Cause) :
    s.command o (.error c) = .next (s.takeFault o.code c) :=
  s.unlessFaulted_running h _

/-- Everything a command built by `command` can do: be refused, complete, or raise one cause with no other effect. -/
theorem State.command_cases {s t : State} {o : Opcode} {body : Except Cause (State × Word)}
    (h : s.command o body = .next t) :
    (s.fsr ≠ none ∧ t = s.respond refusedResponse) ∨
      (s.fsr = none ∧ ∃ u v, body = .ok (u, v) ∧ t = u.respond (okResponse v)) ∨
      (s.fsr = none ∧ ∃ c, body = .error c ∧ t = s.takeFault o.code c) := by
  cases hf : s.fsr with
  | some f =>
    rw [State.command_faulted hf] at h
    cases h
    exact .inl ⟨by simp, rfl⟩
  | none =>
    cases body with
    | ok p =>
      obtain ⟨u, v⟩ := p
      rw [State.command_ok hf] at h
      cases h
      exact .inr (.inl ⟨rfl, u, v, rfl, rfl⟩)
    | error c =>
      rw [State.command_error hf] at h
      cases h
      exact .inr (.inr ⟨rfl, c, rfl, rfl⟩)

/-- A command built by `command` always answers a next state. -/
theorem State.command_next (s : State) (o : Opcode) (body : Except Cause (State × Word)) :
    ∃ t, s.command o body = .next t := by
  cases hf : s.fsr with
  | some f => exact ⟨_, s.command_faulted hf o body⟩
  | none =>
    cases body with
    | ok p => exact ⟨_, s.command_ok hf o p.1 p.2⟩
    | error c => exact ⟨_, s.command_error hf o c⟩

/-! ### The step -/

/-- Everything `fetch` can find. -/
theorem fetch_cases (s : State) :
    (s.input = [] ∧ fetch s = .waiting) ∨
      (∃ rest, s.input = .reset :: rest ∧ fetch s = .reset { s with input := rest }) ∨
      (∃ h rest, s.input = .word h :: rest ∧ twoWords (Header.unpack h).op = false ∧
        fetch s = .command h 0 { s with input := rest }) ∨
      (∃ h x rest, s.input = .word h :: .word x :: rest ∧ twoWords (Header.unpack h).op = true ∧
        fetch s = .command h x { s with input := rest }) ∨
      (∃ h, s.input = [.word h] ∧ twoWords (Header.unpack h).op = true ∧ fetch s = .waiting) ∨
      (∃ h rest, s.input = .word h :: .reset :: rest ∧ twoWords (Header.unpack h).op = true ∧
        fetch s = .resetDuringCommand) := by
  rcases hi : s.input with _ | ⟨_ | _, rest⟩
  · exact .inl ⟨rfl, by simp [fetch, hi]⟩
  · next h =>
    by_cases h2 : twoWords (Header.unpack h).op = true
    · rcases rest with _ | ⟨_ | _, rest⟩
      · exact .inr (.inr (.inr (.inr (.inl ⟨h, rfl, h2, by simp [fetch, hi, h2]⟩))))
      · next x => exact .inr (.inr (.inr (.inl ⟨h, x, rest, rfl, h2, by simp [fetch, hi, h2]⟩)))
      · exact .inr (.inr (.inr (.inr (.inr ⟨h, rest, rfl, h2, by simp [fetch, hi, h2]⟩))))
    · exact .inr (.inr (.inl ⟨h, rest, rfl, by simpa using h2, by simp [fetch, hi, h2]⟩))
  · exact .inr (.inl ⟨rest, rfl, by simp [fetch, hi]⟩)

/-- A word that does not decode is refused in the FAULTED state, and otherwise raises its cause. -/
theorem rejectCommand_cases (h : Word) (e : DecodeError) (s : State) :
    (s.fsr ≠ none ∧ rejectCommand h e s = .next (s.respond refusedResponse)) ∨
      (s.fsr = none ∧ rejectCommand h e s = .next (s.takeFault (Header.unpack h).op (causeOf e))) := by
  cases hf : s.fsr with
  | some f => exact .inl ⟨by simp, s.unlessFaulted_faulted hf _⟩
  | none => exact .inr ⟨rfl, s.unlessFaulted_running hf _⟩

/-- Everything a step that answers a next state can have done. -/
theorem step_cases {s t : State} (h : step s = .next t) :
    t = s ∨ (∃ rest, s.input = .reset :: rest ∧ t = ({ s with input := rest } : State).hostReset) ∨
      ∃ w x u, fetch s = .command w x u ∧ runCommand w x u = .next t := by
  unfold step at h
  rcases fetch_cases s with ⟨-, hf⟩ | ⟨rest, hi, hf⟩ | ⟨w, rest, -, -, hf⟩ | ⟨w, x, rest, -, -, hf⟩ | ⟨w, -, -, hf⟩ |
      ⟨w, rest, -, -, hf⟩ <;> rw [hf] at h
  · cases h; exact .inl rfl
  · cases h; exact .inr (.inl ⟨rest, hi, rfl⟩)
  · exact .inr (.inr ⟨w, 0, _, hf, h⟩)
  · exact .inr (.inr ⟨w, x, _, hf, h⟩)
  · cases h; exact .inl rfl
  · cases h

end Sys2Proof.Machine
end

