-- ==== Sys2Proof/Laws/Kernel.lean ====
section
/-! SUPPORT. The kernel's register operations: their fields, the value of what they store (R10, R11), and that a
count or position beyond a register's width acts as the width does (R72, R73, R80). -/

namespace Sys2Proof.Machine

/-! ### Fields -/

@[simp] theorem Reg.zero_w (w : Nat) (b : Bool) : (Reg.zero w b).w = w := rfl
@[simp] theorem Reg.zero_bits (w : Nat) (b : Bool) : (Reg.zero w b).bits = 0 := rfl
@[simp] theorem Reg.zero_signed (w : Nat) (b : Bool) : (Reg.zero w b).signed = b := rfl
@[simp] theorem Reg.zero_ovf (w : Nat) (b : Bool) : (Reg.zero w b).ovf = false := rfl
@[simp] theorem Reg.zero_unf (w : Nat) (b : Bool) : (Reg.zero w b).unf = false := rfl

@[simp] theorem Reg.store_w (r : Reg) (v : Int) : (r.store v).w = r.w := rfl
@[simp] theorem Reg.store_bits (r : Reg) (v : Int) : (r.store v).bits = BitVec.ofInt r.w v := rfl
@[simp] theorem Reg.store_signed (r : Reg) (v : Int) : (r.store v).signed = r.signed := rfl
@[simp] theorem Reg.store_ovf (r : Reg) (v : Int) : (r.store v).ovf = r.ovf := rfl
@[simp] theorem Reg.store_unf (r : Reg) (v : Int) : (r.store v).unf = r.unf := rfl

@[simp] theorem Reg.setOvf_w (r : Reg) (c : Bool) : (r.setOvf c).w = r.w := rfl
@[simp] theorem Reg.setOvf_bits (r : Reg) (c : Bool) : (r.setOvf c).bits = r.bits := rfl
@[simp] theorem Reg.setOvf_signed (r : Reg) (c : Bool) : (r.setOvf c).signed = r.signed := rfl
@[simp] theorem Reg.setOvf_ovf (r : Reg) (c : Bool) : (r.setOvf c).ovf = (r.ovf || c) := rfl
@[simp] theorem Reg.setOvf_unf (r : Reg) (c : Bool) : (r.setOvf c).unf = r.unf := rfl

@[simp] theorem Reg.setUnf_w (r : Reg) (c : Bool) : (r.setUnf c).w = r.w := rfl
@[simp] theorem Reg.setUnf_bits (r : Reg) (c : Bool) : (r.setUnf c).bits = r.bits := rfl
@[simp] theorem Reg.setUnf_signed (r : Reg) (c : Bool) : (r.setUnf c).signed = r.signed := rfl
@[simp] theorem Reg.setUnf_ovf (r : Reg) (c : Bool) : (r.setUnf c).ovf = r.ovf := rfl
@[simp] theorem Reg.setUnf_unf (r : Reg) (c : Bool) : (r.setUnf c).unf = (r.unf || c) := rfl

@[simp] theorem Reg.storeExact_w (r : Reg) (v : Int) : (r.storeExact v).w = r.w := rfl
@[simp] theorem Reg.storeExact_bits (r : Reg) (v : Int) : (r.storeExact v).bits = BitVec.ofInt r.w v := rfl
@[simp] theorem Reg.storeExact_signed (r : Reg) (v : Int) : (r.storeExact v).signed = r.signed := rfl
@[simp] theorem Reg.storeExact_ovf (r : Reg) (v : Int) : (r.storeExact v).ovf = (r.ovf || !r.fits v) := rfl
@[simp] theorem Reg.storeExact_unf (r : Reg) (v : Int) : (r.storeExact v).unf = r.unf := rfl

@[simp] theorem Reg.loadBits_w (r : Reg) {n : Nat} (src : BitVec n) (p : Nat) : (r.loadBits src p).w = r.w := rfl
@[simp] theorem Reg.loadBits_bits (r : Reg) {n : Nat} (src : BitVec n) (p : Nat) :
    (r.loadBits src p).bits = insertBits r.bits src p := rfl
@[simp] theorem Reg.loadBits_signed (r : Reg) {n : Nat} (src : BitVec n) (p : Nat) :
    (r.loadBits src p).signed = r.signed := rfl
@[simp] theorem Reg.loadBits_unf (r : Reg) {n : Nat} (src : BitVec n) (p : Nat) :
    (r.loadBits src p).unf = r.unf := rfl

@[simp] theorem Reg.extractBits_w (r smp : Reg) (p : Int) : (r.extractBits smp p).w = smp.w := rfl
@[simp] theorem Reg.extractBits_signed (r smp : Reg) (p : Int) : (r.extractBits smp p).signed = smp.signed := rfl
@[simp] theorem Reg.extractBits_ovf (r smp : Reg) (p : Int) : (r.extractBits smp p).ovf = smp.ovf := rfl
@[simp] theorem Reg.extractBits_unf (r smp : Reg) (p : Int) : (r.extractBits smp p).unf = smp.unf := rfl

@[simp] theorem Reg.mulInto_w (o : Bool) (r a b : Reg) : (Reg.mulInto o r a b).w = r.w := rfl
@[simp] theorem Reg.mulInto_signed (o : Bool) (r a b : Reg) : (Reg.mulInto o r a b).signed = r.signed := rfl
@[simp] theorem Reg.mulInto_unf (o : Bool) (r a b : Reg) : (Reg.mulInto o r a b).unf = r.unf := rfl

/-! ### Values (R10, R11) -/

theorem inRange_unsigned {w : Nat} {v : Int} : inRange w false v = true ↔ 0 ≤ v ∧ v < 2 ^ w := by
  simp [inRange]

theorem inRange_signed {w : Nat} {v : Int} : inRange w true v = true ↔ -(2 ^ w : Int) ≤ 2 * v ∧ 2 * v < 2 ^ w := by
  simp [inRange]

theorem Reg.val_unsigned {r : Reg} (h : r.signed = false) : r.val = r.bits.toNat := by simp [Reg.val, h]

theorem Reg.val_signed {r : Reg} (h : r.signed = true) : r.val = r.bits.toInt := by
  rw [BitVec.toInt_eq_msb_cond]
  simp only [Reg.val, h, if_true]
  split <;> simp

/-- A register's value lies in its range. -/
theorem Reg.fits_val (r : Reg) : r.fits r.val = true := by
  unfold Reg.fits
  cases h : r.signed
  · rw [inRange_unsigned, Reg.val_unsigned h]
    have := r.bits.isLt
    constructor
    · omega
    · exact_mod_cast this
  · rw [inRange_signed, Reg.val_signed h]
    rcases Nat.eq_zero_or_pos r.w with hw | hw
    · obtain ⟨w, bits, _, _, _⟩ := r
      obtain rfl : w = 0 := hw
      have : bits.toInt = 0 := by rw [BitVec.eq_nil bits]; rfl
      simp [this]
    · have h1 := @BitVec.two_mul_toInt_lt r.w r.bits
      have h2 := @BitVec.le_two_mul_toInt r.w r.bits
      exact ⟨by simpa using h2, by simpa using h1⟩

theorem Reg.val_bounds (r : Reg) : -(2 ^ r.w : Int) ≤ r.val ∧ r.val < 2 ^ r.w := by
  have h := r.fits_val
  unfold Reg.fits at h
  have hp : (0 : Int) < 2 ^ r.w := by positivity
  cases hs : r.signed <;> rw [hs] at h
  · rw [inRange_unsigned] at h; omega
  · rw [inRange_signed] at h; omega

theorem Reg.store_toNat (r : Reg) (v : Int) : (r.store v).bits.toNat = (v % 2 ^ r.w).toNat := by
  have : (r.store v).bits.toNat = (BitVec.ofInt r.w v).toNat := rfl
  rw [this, BitVec.toNat_ofInt]
  norm_cast

theorem Reg.store_toInt (r : Reg) (v : Int) : (r.store v).bits.toInt = v.bmod (2 ^ r.w) := by
  have : (r.store v).bits.toInt = (BitVec.ofInt r.w v).toInt := rfl
  rw [this, BitVec.toInt_ofInt]

/-- `val(store(r, v)) = v` exactly when `fits(r, v)` (R11). -/
theorem Reg.val_store_iff (r : Reg) (v : Int) : (r.store v).val = v ↔ r.fits v = true := by
  constructor
  · intro h
    have := (r.store v).fits_val
    rw [h] at this
    exact this
  · intro h
    unfold Reg.fits at h
    cases hs : r.signed <;> rw [hs] at h
    · rw [inRange_unsigned] at h
      rw [Reg.val_unsigned (by simpa using hs), Reg.store_toNat, Int.emod_eq_of_lt h.1 h.2]
      exact Int.toNat_of_nonneg h.1
    · rw [inRange_signed] at h
      rw [Reg.val_signed (by simpa using hs), Reg.store_toInt]
      refine Int.bmod_eq_of_le_mul_two ?_ ?_ <;> push_cast <;> omega

theorem Reg.val_store {r : Reg} {v : Int} (h : r.fits v = true) : (r.store v).val = v := (r.val_store_iff v).2 h

@[simp] theorem Reg.val_setOvf (r : Reg) (c : Bool) : (r.setOvf c).val = r.val := rfl

@[simp] theorem Reg.val_setUnf (r : Reg) (c : Bool) : (r.setUnf c).val = r.val := rfl

/-- An exact store that leaves overflow clear stores the value itself (R79). -/
theorem Reg.val_storeExact {r : Reg} {v : Int} (h : (r.storeExact v).ovf = false) : (r.storeExact v).val = v := by
  simp only [Reg.storeExact_ovf, Bool.or_eq_false_iff, Bool.not_eq_false'] at h
  exact Reg.val_store h.2

@[simp] theorem Reg.val_zero (w : Nat) (b : Bool) : (Reg.zero w b).val = 0 := by
  cases b <;> simp [Reg.val, Reg.zero, BitVec.msb]

/-! ### Counts and positions beyond the width -/

/-- Adding a nonzero multiple of 2^k, k at least the width, to a register's value leaves its range. -/
theorem Reg.not_fits_far (r : Reg) {a : Int} {k : Nat} (hk : r.w ≤ k) (ha : a ≠ 0) :
    r.fits (r.val + a * 2 ^ k) = false := by
  have hv := r.fits_val
  have hb := r.val_bounds
  have hp : (0 : Int) < 2 ^ r.w := by positivity
  have hle : (2 : Int) ^ r.w ≤ 2 ^ k := pow_le_pow_right₀ (by norm_num) hk
  unfold Reg.fits at *
  rcases lt_or_gt_of_ne ha with h | h
  · have h2 : a * 2 ^ k ≤ -(2 ^ k) := by nlinarith
    rw [Bool.eq_false_iff]
    intro hc
    cases hs : r.signed <;> rw [hs] at hv hc
    · rw [inRange_unsigned] at hv hc; omega
    · rw [inRange_signed] at hv hc; omega
  · have h2 : 2 ^ k ≤ a * 2 ^ k := by nlinarith
    rw [Bool.eq_false_iff]
    intro hc
    cases hs : r.signed <;> rw [hs] at hv hc
    · rw [inRange_unsigned] at hv hc; omega
    · rw [inRange_signed] at hv hc; omega

/-- The low w bits do not see a multiple of 2^k, k at least w. -/
theorem ofInt_add_far {w k : Nat} (h : w ≤ k) (v a : Int) :
    BitVec.ofInt w (v + a * 2 ^ k) = BitVec.ofInt w v := by
  obtain ⟨d, rfl⟩ := Nat.exists_eq_add_of_le h
  apply BitVec.eq_of_toInt_eq
  rw [BitVec.toInt_ofInt, BitVec.toInt_ofInt]
  have : v + a * 2 ^ (w + d) = v + ((2 ^ w : Nat) : Int) * (a * 2 ^ d) := by push_cast; ring
  rw [this, Int.bmod_def, Int.bmod_def, Int.add_mul_emod_self_left]

/-- Storing val + a·2^p exactly does not tell positions at or beyond the width apart. -/
theorem Reg.storeExact_add_far (r : Reg) (a : Int) (p : Nat) :
    r.storeExact (r.val + a * 2 ^ min p r.w) = r.storeExact (r.val + a * 2 ^ p) := by
  rcases Nat.le_total p r.w with h | h
  · rw [Nat.min_eq_left h]
  · rw [Nat.min_eq_right h]
    by_cases ha : a = 0
    · simp [ha]
    · unfold Reg.storeExact Reg.store
      rw [ofInt_add_far (Nat.le_refl _), ofInt_add_far h, Reg.not_fits_far r (Nat.le_refl _) ha,
        Reg.not_fits_far r h ha]

/-- `ADD` and `SUB` on registers (R80, R81). -/
theorem Reg.addAt_eq (r a : Reg) (sign : Int) (p : Nat) :
    r.addAt a sign p = r.storeExact (r.val + sign * (a.val * 2 ^ p)) := by
  have := r.storeExact_add_far (sign * a.val) p
  simp only [Reg.addAt]
  rw [show sign * (a.val * 2 ^ min p r.w) = sign * a.val * 2 ^ min p r.w by ring, this]
  congr 2
  ring

/-- `LSL` on a register (R72). -/
theorem Reg.lsl_eq (r : Reg) (n : Nat) : r.lsl n = r.storeExact (r.val * 2 ^ n) := by
  rcases Nat.le_total n r.w with h | h
  · simp only [Reg.lsl, Nat.min_eq_left h]
  · simp only [Reg.lsl, Nat.min_eq_right h]
    by_cases hv : r.val = 0
    · simp [hv]
    · have hfar : ∀ k, r.w ≤ k → r.fits (r.val * 2 ^ k) = false := by
        intro k hk
        rw [Bool.eq_false_iff]
        intro hc
        have hle : (2 : Int) ^ r.w ≤ 2 ^ k := pow_le_pow_right₀ (by norm_num) hk
        have hp : (0 : Int) < 2 ^ r.w := by positivity
        unfold Reg.fits at hc
        have hlt : r.val ≤ -1 ∨ 1 ≤ r.val := by omega
        cases hs : r.signed <;> rw [hs] at hc
        · rw [inRange_unsigned] at hc
          rcases hlt with h1 | h1 <;> nlinarith
        · rw [inRange_signed] at hc
          rcases hlt with h1 | h1 <;> nlinarith
      have hz : ∀ k, r.w ≤ k → BitVec.ofInt r.w (r.val * 2 ^ k) = BitVec.ofInt r.w 0 := by
        intro k hk
        simpa using ofInt_add_far hk 0 r.val
      unfold Reg.storeExact Reg.store
      rw [hfar _ (Nat.le_refl _), hfar _ h, hz _ (Nat.le_refl _), hz _ h]

/-- Floor division by a power of two at least the width: 0 or −1. -/
theorem Reg.val_div_far (r : Reg) {k : Nat} (h : r.w ≤ k) : r.val / 2 ^ k = if r.val < 0 then -1 else 0 := by
  have hb := r.val_bounds
  have hle : (2 : Int) ^ r.w ≤ 2 ^ k := pow_le_pow_right₀ (by norm_num) h
  have hp : (0 : Int) < 2 ^ k := by positivity
  split
  · rw [Int.ediv_eq_iff_of_pos hp] <;> constructor <;> omega
  · exact Int.ediv_eq_zero_of_lt (by omega) (by omega)

/-- `LSR` on a register (R73). -/
theorem Reg.lsr_eq (r : Reg) (n : Nat) :
    r.lsr n = (r.store (r.val / 2 ^ n)).setUnf (decide (r.val / 2 ^ n * 2 ^ n ≠ r.val)) := by
  rcases Nat.le_total n r.w with h | h
  · simp only [Reg.lsr, Nat.min_eq_left h]
  · simp only [Reg.lsr, Nat.min_eq_right h]
    have hb := r.fits_val
    have hb2 := r.val_bounds
    have hle : (2 : Int) ^ r.w ≤ 2 ^ n := pow_le_pow_right₀ (by norm_num) h
    have hp : (0 : Int) < 2 ^ r.w := by positivity
    have hneg : r.val < 0 → r.val ≠ -(2 ^ r.w) := by
      intro h0
      unfold Reg.fits at hb
      cases hs : r.signed <;> rw [hs] at hb
      · rw [inRange_unsigned] at hb; omega
      · rw [inRange_signed] at hb; omega
    rw [Reg.val_div_far r (Nat.le_refl _), Reg.val_div_far r h]
    congr 1
    split
    · next h0 =>
      have := hneg h0
      simp only [ne_eq, decide_eq_decide]
      omega
    · simp

/-! ### Bit fields (R74, R77) -/

/-- The bits of a load: the source's inside [p, p+n), the destination's elsewhere (R74). -/
theorem getLsbD_insertBits {w n : Nat} (dst : BitVec w) (src : BitVec n) (p j : Nat) :
    (insertBits dst src p).getLsbD j =
      if p ≤ j ∧ j < p + n ∧ j < w then src.getLsbD (j - p) else dst.getLsbD j := by
  unfold insertBits
  split
  · next h => rw [if_neg (by omega)]
  · next h =>
    by_cases hj : j < w
    · by_cases hp : p ≤ j
      · by_cases hn : j < p + n
        · simp [hj, hp, hn, show ¬ j < p by omega, show j - p < n by omega]
        · simp [hj, hp, hn, show ¬ j < p by omega, show ¬ j - p < n by omega,
            BitVec.getLsbD_of_ge src (j - p) (by omega)]
      · simp [hj, hp, show j < p by omega]
    · rw [if_neg (by omega), BitVec.getLsbD_of_ge _ _ (by omega), BitVec.getLsbD_of_ge _ _ (by omega)]

/-- A sample's bits are those of the field at p of the source's value (R77), with no bound on the position. -/
theorem Reg.extractBits_eq (r smp : Reg) (p : Int) :
    r.extractBits smp p = smp.store (if 0 ≤ p then r.val / 2 ^ p.toNat else r.val * 2 ^ (-p).toNat) := by
  unfold Reg.extractBits Reg.field
  split
  · rcases Nat.le_total p.toNat r.w with h | h
    · rw [Nat.min_eq_left h]
    · rw [Nat.min_eq_right h, Reg.val_div_far r (Nat.le_refl _), Reg.val_div_far r h]
  · rcases Nat.le_total (-p).toNat smp.w with h | h
    · rw [Nat.min_eq_left h]
    · rw [Nat.min_eq_right h]
      have hz : ∀ k, smp.w ≤ k → BitVec.ofInt smp.w (r.val * 2 ^ k) = BitVec.ofInt smp.w 0 := by
        intro k hk
        simpa using ofInt_add_far hk 0 r.val
      unfold Reg.store
      rw [hz _ (Nat.le_refl _), hz _ h]

end Sys2Proof.Machine
end

