-- ==== Sys2Proof/Laws/Operands.lean ====
section
/-! SUPPORT. What the kernel's shared operations compute, said once: shifts, samples, square root, digit lists. -/

namespace Sys2Proof.Machine

/-- The value a register's bits shifted left spell (R72). -/
theorem Reg.ofInt_val_shiftLeft (r : Reg) (n : Nat) : BitVec.ofInt r.w (r.val * 2 ^ n) = r.bits <<< n := by
  apply BitVec.eq_of_toNat_eq
  rw [BitVec.toNat_shiftLeft, BitVec.toNat_ofInt, Nat.shiftLeft_eq]
  have key : (r.val * 2 ^ n) % ((2 ^ r.w : Nat) : Int) = ((r.bits.toNat * 2 ^ n % 2 ^ r.w : Nat) : Int) := by
    push_cast
    unfold Reg.val
    split
    · split
      · rw [Int.sub_mul, show (2:Int)^r.w * 2^n = 2^r.w * 2^n by ring, Int.sub_mul_emod_self_left]
      · simp
    · rfl
  rw [key]; exact Int.toNat_natCast _

/-- A stored integer may be replaced by the value of what was stored. -/
theorem ofInt_val_add (r : Reg) {v : Int} (h : r.bits = BitVec.ofInt r.w v) (y : Int) :
    BitVec.ofInt r.w (r.val + y) = BitVec.ofInt r.w (v + y) := by
  have h0 := r.ofInt_val_shiftLeft 0
  rw [pow_zero, mul_one, BitVec.shiftLeft_zero] at h0
  rw [BitVec.ofInt_add, BitVec.ofInt_add, h0, h]

/-- A floor quotient by a power of two fits (R73). -/
theorem Reg.fits_val_div (r : Reg) (n : Nat) : r.fits (r.val / 2 ^ n) = true := by
  have h := r.fits_val
  unfold Reg.fits at *
  have hp : (0 : Int) < 2 ^ n := by positivity
  cases hs : r.signed <;> rw [hs] at h
  · rw [inRange_unsigned] at h ⊢
    exact ⟨Int.ediv_nonneg h.1 hp.le, lt_of_le_of_lt (Int.ediv_le_self _ h.1) h.2⟩
  · rw [inRange_signed] at h ⊢
    rcases lt_or_ge r.val 0 with h0 | h0
    · have h1 : r.val / 2 ^ n < 0 := Int.ediv_neg_of_neg_of_pos h0 hp
      have h2 : r.val ≤ r.val / 2 ^ n := by
        rw [Int.le_ediv_iff_mul_le hp]; nlinarith
      have hp : (0 : Int) < 2 ^ r.w := by positivity
      omega
    · have h1 : 0 ≤ r.val / 2 ^ n := Int.ediv_nonneg h0 hp.le
      have h2 : r.val / 2 ^ n ≤ r.val := Int.ediv_le_self _ h0
      have hp : (0 : Int) < 2 ^ r.w := by positivity
      omega

/-- Storing the magnitude in an unsigned register of the same width is exact (R68). -/
theorem Reg.absolute_toNat (r : Reg) : (((Reg.zero r.w false).store r.val.natAbs).bits.toNat : Int) = |r.val| := by
  have hf : (Reg.zero r.w false).fits r.val.natAbs = true := by
    unfold Reg.fits
    have h := r.fits_val
    unfold Reg.fits at h
    show inRange r.w false _ = true
    rw [inRange_unsigned]
    have hp : (0 : Int) < 2 ^ r.w := by positivity
    cases hsg : r.signed <;> rw [hsg] at h
    · rw [inRange_unsigned] at h; omega
    · rw [inRange_signed] at h; omega
  have := Reg.val_store hf
  rw [Reg.val_unsigned (by rfl)] at this
  rw [this, Int.natCast_natAbs]

/-- Bit j of a register's value: its own bit below the width, its sign extension above (R10, R77). -/
theorem Reg.val_testBit (r : Reg) (j : Nat) :
    (r.val / 2 ^ j) % 2 = if (if j < r.w then r.bits.getLsbD j else (r.signed && r.bits.msb)) then 1 else 0 := by
  have hlt := r.bits.isLt
  have nat : ∀ (x : Nat), ((x : Int) / 2 ^ j) % 2 = if x.testBit j then 1 else 0 := by
    intro x
    have : ((x : Int) / 2 ^ j) % 2 = ((x / 2 ^ j % 2 : Nat) : Int) := by push_cast; rfl
    rw [this, ← Nat.toNat_testBit]; cases x.testBit j <;> rfl
  unfold Reg.val
  by_cases hs : (r.signed && r.bits.msb) = true
  · simp only [Bool.and_eq_true] at hs
    rw [if_pos hs.1, if_pos hs.2]
    by_cases hj : j < r.w
    · rw [if_pos hj]
      obtain ⟨k, hk⟩ : ∃ k, r.w = j + 1 + k := ⟨r.w - (j+1), by omega⟩
      have : ((r.bits.toNat : Int) - 2 ^ r.w) / 2 ^ j = (r.bits.toNat : Int) / 2 ^ j - 2 ^ (k+1) := by
        have hp : (2:Int)^j ≠ 0 := by positivity
        rw [show (2:Int)^r.w = 2^j * 2^(k+1) by rw [hk]; ring, Int.sub_eq_add_neg, ← Int.mul_neg,
          Int.add_mul_ediv_left _ _ hp]
        ring
      rw [this]
      have := nat r.bits.toNat
      rw [show BitVec.getLsbD r.bits j = r.bits.toNat.testBit j from rfl]
      rw [← this, pow_succ]; omega
    · rw [if_neg hj]
      have h2 : (2:Int)^r.w ≤ 2^j := pow_le_pow_right₀ (by norm_num) (by omega)
      have hl : (r.bits.toNat : Int) < 2 ^ r.w := by exact_mod_cast hlt
      have : ((r.bits.toNat : Int) - 2 ^ r.w) / 2 ^ j = -1 := by
        rw [Int.ediv_eq_iff_of_pos (by positivity)]
        constructor <;> omega
      rw [this]; simp [hs.1, hs.2]
  · have hv : (if r.signed = true then (r.bits.toNat : Int) - (if r.bits.msb = true then 2 ^ r.w else 0)
        else r.bits.toNat) = r.bits.toNat := by
      split
      · rw [if_neg (by intro h; apply hs; simp [*])]; simp
      · rfl
    rw [hv, nat]
    by_cases hj : j < r.w
    · rw [if_pos hj]; rfl
    · rw [if_neg hj]
      have : r.bits.toNat.testBit j = false :=
        Nat.testBit_eq_false_of_lt (lt_of_lt_of_le hlt (Nat.pow_le_pow_right (by norm_num) (by omega)))
      rw [this]; simp [hs]

/-- Bit i of a stored integer (R11). -/
theorem ofInt_getLsbD (w : Nat) (v : Int) (i : Nat) (h : i < w) :
    (BitVec.ofInt w v).getLsbD i = decide (v / 2 ^ i % 2 = 1) := by
  have hr : (BitVec.ofInt w v).getLsbD i = true ↔ (v / 2 ^ i % 2 = 1) := by
    have := Reg.val_testBit ⟨w, BitVec.ofInt w v, false, false, false⟩ i
    simp only [Reg.val, h, if_true, Bool.false_eq_true, if_false] at this
    rw [BitVec.toNat_ofInt] at this
    have hm : ((v % ((2^w : Nat):Int)).toNat : Int) = v % 2 ^ w := by
      rw [Int.toNat_of_nonneg (Int.emod_nonneg _ (by positivity))]; push_cast; rfl
    rw [hm] at this
    obtain ⟨k, rfl⟩ : ∃ k, w = i + 1 + k := ⟨w - (i+1), by omega⟩
    have e : v / 2 ^ i % 2 = (v % 2^(i+1+k)) / 2 ^ i % 2 := by
      have h0 := Int.emod_add_mul_ediv v (2^(i+1+k))
      have hp : (2:Int)^i ≠ 0 := by positivity
      have : v / 2^i = (v % 2^(i+1+k)) / 2^i + 2^(k+1) * (v / 2^(i+1+k)) := by
        conv_lhs => rw [← h0, show (2:Int)^(i+1+k) * (v / 2^(i+1+k)) = 2^i * (2^(k+1) * (v / 2^(i+1+k))) by ring]
        rw [Int.add_mul_ediv_left _ _ hp]
      rw [this, pow_succ, show (2:Int)^k * 2 * (v / 2^(i+1+k)) = 2 * (2^k * (v / 2^(i+1+k))) by ring]; omega
    rw [e, this]
    rw [BitVec.getLsbD_eq_getElem h]
    cases (BitVec.ofInt (i+1+k) v)[i] <;> simp
  rw [Bool.eq_iff_iff, hr]; simp

/-- Every bit of a sample as `extract_bits` reads it (R77). -/
theorem Reg.getLsbD_extractBits (a d : Reg) (pos : Int) (i : Nat) (hi : i < d.w) :
    (a.extractBits d pos).bits.getLsbD i =
      if pos + i < 0 then false
      else if pos + i < a.w then a.bits.getLsbD (pos + i).toNat
      else (a.signed && a.bits.msb) := by
  rw [Reg.extractBits_eq]
  show (BitVec.ofInt d.w _).getLsbD i = _
  rw [ofInt_getLsbD _ _ _ hi]
  by_cases hp : 0 ≤ pos
  · rw [if_pos hp, if_neg (by omega)]
    rw [Int.ediv_ediv_of_nonneg (by positivity), ← pow_add, Reg.val_testBit]
    have e : (pos + i).toNat = pos.toNat + i := by omega
    by_cases hw : pos + i < a.w
    · simp only [if_pos hw, if_pos (show pos.toNat + i < a.w by omega), e]
      cases a.bits.getLsbD (pos.toNat + i) <;> rfl
    · simp only [if_neg hw, if_neg (show ¬ pos.toNat + i < a.w by omega)]; cases (a.signed && a.bits.msb) <;> rfl
  · rw [if_neg hp]
    by_cases hi2 : pos + i < 0
    · rw [if_pos hi2]
      obtain ⟨k, hk⟩ : ∃ k, (-pos).toNat = i + 1 + k := ⟨(-pos).toNat - (i+1), by omega⟩
      rw [hk, show a.val * (2:Int)^(i+1+k) = 2^i * (2 * (a.val * 2^k)) by ring,
        Int.mul_ediv_cancel_left _ (by positivity)]
      simp
    · rw [if_neg hi2]
      have e : i = (-pos).toNat + (pos + i).toNat := by omega
      have : a.val * 2 ^ (-pos).toNat / 2 ^ i = a.val / 2 ^ (pos+i).toNat := by
        conv_lhs => rw [e, pow_add]
        rw [← Int.ediv_ediv_of_nonneg (by positivity), Int.mul_ediv_cancel _ (by positivity)]
      rw [this, Reg.val_testBit]
      by_cases hw : pos + i < a.w
      · simp only [if_pos hw, if_pos (show (pos + (i:Int)).toNat < a.w by omega)]
        cases a.bits.getLsbD (pos + (i:Int)).toNat <;> rfl
      · simp only [if_neg hw, if_neg (show ¬ (pos + (i:Int)).toNat < a.w by omega)]
        cases (a.signed && a.bits.msb) <;> rfl

/-- What the shift-and-test loop keeps: the root so far, scaled, and the remainder (R83). -/
theorem isqrtLoop_bounds (k : Nat) : ∀ (v a N : Nat),
    (a * 2 ^ k) * (a * 2 ^ k) + v = N → N < ((a+1) * 2 ^ k) * ((a+1) * 2 ^ k) →
    isqrtLoop k v (a * 2 ^ (2 * k)) * isqrtLoop k v (a * 2 ^ (2 * k)) ≤ N ∧
    N < (isqrtLoop k v (a * 2 ^ (2 * k)) + 1) * (isqrtLoop k v (a * 2 ^ (2 * k)) + 1) := by
  induction k with
  | zero => intro v a N h1 h2; simp [isqrtLoop] at *; omega
  | succ k ih =>
    intro v a N h1 h2
    have e4 : (4:Nat)^k = 2^(2*k) := by rw [pow_mul]; norm_num
    have ediv : a * 2 ^ (2*(k+1)) / 2 = (2*a) * 2 ^ (2*k) := by
      rw [show a * 2^(2*(k+1)) = 2 * (2*a * 2^(2*k)) by ring]; simp
    have hsq : (2:Nat)^(2*k) = 2^k * 2^k := by rw [two_mul, pow_add]
    unfold isqrtLoop
    simp only [e4]
    split
    · next hle =>
      rw [ediv, show 2*a*2^(2*k) + 2^(2*k) = (2*a+1) * 2^(2*k) by ring]
      apply ih
      · rw [← h1]
        have hle' : 4 * a * (2^k*2^k) + 2^k*2^k ≤ v := by
          rw [← hsq]
          calc _ = a * 2 ^ (2*(k+1)) + 2^(2*k) := by ring
            _ ≤ v := hle
        have : a * 2 ^ (2*(k+1)) + 2^(2*k) = 4 * a * (2^k*2^k) + 2^k*2^k := by rw [← hsq]; ring
        rw [this]
        have p : (2*a+1)*2^k*((2*a+1)*2^k) = a * 2^(k+1) * (a*2^(k+1)) + (4 * a * (2^k*2^k) + 2^k*2^k) := by ring
        rw [p]; omega
      · calc N < _ := h2
          _ = _ := by ring
    · next hle =>
      rw [ediv]
      apply ih
      · rw [← h1]; ring
      · have : a * 2 ^ (2*(k+1)) + 2^(2*k) = 4 * a * (2^k*2^k) + 2^k*2^k := by rw [← hsq]; ring
        rw [this] at hle
        have p : (2*a+1)*2^k*((2*a+1)*2^k) = a * 2^(k+1) * (a*2^(k+1)) + (4 * a * (2^k*2^k) + 2^k*2^k) := by ring
        rw [p]; omega

/-- `isqrt` is the floor of the square root (R83). -/
theorem isqrt_bounds (v : Nat) : isqrt v * isqrt v ≤ v ∧ v < (isqrt v + 1) * (isqrt v + 1) := by
  unfold isqrt
  split
  · next h => subst h; simp
  · next h =>
    have := isqrtLoop_bounds (v.log2/2+1) v 0 v (by simp) (by
      have hl := Nat.lt_log2_self (n := v)
      rw [show ((0+1) * 2 ^ (v.log2/2+1)) * ((0+1) * 2 ^ (v.log2/2+1)) = 2^(2*(v.log2/2+1)) by
        rw [two_mul, pow_add]; ring]
      exact lt_of_lt_of_le hl (Nat.pow_le_pow_right (by norm_num) (by omega)))
    simpa using this

/-- `ceil(w / bpd)` as a number of digits (R84). -/
theorem digitCount_bounds (w b : Nat) (hb : 1 ≤ b) : w ≤ digitCount w b * b ∧ digitCount w b * b < w + b := by
  unfold digitCount
  have h := Nat.div_add_mod (w + b - 1) b
  have h2 := Nat.mod_lt (w + b - 1) (show b > 0 by omega)
  rw [Nat.mul_comm] at h
  constructor <;> omega

/-- The count header of a digit list (R84). -/
theorem Reg.digitList_count (r : Reg) (b : Nat) : (r.digitList b).count = digitCount r.w b := by
  simp [Reg.digitList, DigitList.count]

/-- Every digit of a list is a bpd-bit number (R84). -/
theorem Reg.digitList_lt (r : Reg) (b : Nat) : ∀ x ∈ (r.digitList b).digits, x < 2 ^ b := by
  intro x hx
  simp only [Reg.digitList, List.mem_map] at hx
  obtain ⟨j, _, rfl⟩ := hx
  exact Nat.mod_lt _ (by positivity)

end Sys2Proof.Machine
end

