-- ==== Sys2Proof/Laws/Engine.lean ====
section
/-! SUPPORT. What the engine's shared operations can do, said once: ESTART's checks, the digits of an iteration, the
selection, committing an iteration. -/

namespace Sys2Proof.Machine

/-! ### Starting a run (R89) -/

/-- Everything a passed check list says (R89). -/
theorem startChecks_ok {c : Config} {mode : EngineMode} {a b s : Reg} {u : Unit}
    (h : startChecks c mode a b s = .ok u) :
    (1 ≤ c.m ∧ c.m ≤ 32 ∧ 1 ≤ c.n) ∧
      (mode = .practical → c.alpha < 2 ^ c.m ∧ c.beta < 2 ^ c.m ∧ c.delta ≤ c.iterP ∧ 1 ≤ c.trows ∧ 1 ≤ c.tcols) ∧
      c.n * c.m % 2 = 0 ∧ (mode = .practical → c.m ≤ c.z) ∧
      (a.signed = false ∧ b.signed = false ∧ s.signed = false) ∧ digitCount b.w c.m = c.n ∧
      (mode = .basic → digitCount (s.w + c.z) c.m = c.iterations mode) ∧ 0 ≤ c.alignment (c.iterations mode) ∧
      c.widestRegister mode a.w b.w s.w ≤ c.maxWidth := by
  simp only [startChecks, bind_eq_ok, require_eq_ok, exists_const] at h
  obtain ⟨h1, h2, h3, h4, h5, h6, h7, h8, h9⟩ := h
  exact ⟨h1, h2, h3, h4, h5, h6, h7, h8, h9⟩

/-! ### The digits of an iteration (R90, R95) -/

/-- An element of a digit list past the count header is one of its digits, or 0 beyond them (R27). -/
theorem DigitList.element_lt {l : DigitList} {bound k : Nat} (hb : 0 < bound) (hk : 1 ≤ k)
    (h : ∀ x ∈ l.digits, x < bound) : l.element k < bound := by
  obtain ⟨j, rfl⟩ : ∃ j, k = j + 1 := ⟨k - 1, by omega⟩
  show l.digits.getD j 0 < bound
  by_cases hj : j < l.digits.length
  · rw [List.getD_eq_getElem _ _ hj]
    exact h _ (List.getElem_mem hj)
  · rw [List.getD_eq_default _ _ (by omega)]
    exact hb

/-- t_i is an m-bit digit when SD holds m-bit digits (R95). -/
theorem Engine.rootDigit_lt {e : Engine} {m : Nat} (h : ∀ x ∈ e.sd.digits, x < 2 ^ m) (i : Nat) :
    e.rootDigit i < 2 ^ m := by
  unfold Engine.rootDigit
  simp only
  split
  · exact DigitList.element_lt (by positivity) (by omega) h
  · positivity

/-- The multiplier digit is an m-bit digit when BD holds m-bit digits (R90). -/
theorem Engine.multiplierDigit_lt {c : Config} {e : Engine} (h : ∀ x ∈ e.bd.digits, x < 2 ^ c.m) (i : Nat) :
    e.multiplierDigit c i < 2 ^ c.m := by
  unfold Engine.multiplierDigit
  split
  · exact DigitList.element_lt (by positivity) (by omega) h
  · positivity

/-! ### Selection (R100 to R104) -/

/-- A table lookup answers an entry or TABLE_INDEX (R103). -/
theorem tableEntry_cases (c : Config) (row col : Int) :
    (∃ d, tableEntry c row col = .ok d) ∨ tableEntry c row col = .error .tableIndex := by
  unfold tableEntry
  split
  · exact .inl ⟨_, rfl⟩
  · exact .inr rfl

/-- Everything the selection can do: a digit of the digit set, TABLE_INDEX, or DIGIT_RANGE (R100, R103, R104). -/
theorem selectDigit_cases (c : Config) (i : Nat) (resp q : Reg) :
    (∃ d, selectDigit c i resp q = .ok d ∧ -(c.alpha : Int) ≤ d ∧ d ≤ c.beta) ∨
      selectDigit c i resp q = .error .tableIndex ∨ selectDigit c i resp q = .error .digitRange := by
  have hu : (∃ d, unchecked c i resp q = .ok d) ∨ unchecked c i resp q = .error .tableIndex := by
    unfold unchecked
    split
    · exact .inl ⟨_, rfl⟩
    · split
      · exact .inl ⟨_, rfl⟩
      · unfold tableDigit
        simp only
        generalize overriddenRow c i _ = row
        generalize _ - c.colBase = col
        rcases tableEntry_cases c row col with ⟨d, h⟩ | h
        · rw [h]; exact .inl ⟨_, rfl⟩
        · rw [h]; exact .inr rfl
  unfold selectDigit
  rcases hu with ⟨d, h⟩ | h
  · rw [h, ok_bind]
    by_cases hr : -(c.alpha : Int) ≤ d ∧ d ≤ c.beta
    · rw [require_pos _ hr]; exact .inl ⟨d, rfl, hr⟩
    · rw [require_neg _ hr]; exact .inr (.inr rfl)
  · rw [h]; exact .inr (.inl rfl)

/-! ### One iteration (R90 to R92) -/

/-- The practical update keeps every register's width and mode where the widths are those of R30 (R99, R105). -/
theorem practicalUpdate_widths {c total k i pp p p' d} (h : practicalUpdate c total k i pp p = .ok (p', d)) :
    p'.resp.w = p.resp.w ∧ p'.resp.signed = p.resp.signed ∧ p'.q.w = c.m * total + 1 ∧
      p'.q.signed = p.q.signed ∧ p'.qm.w = c.m * total + 1 ∧ p'.qm.signed = p.qm.signed ∧
      p'.d.w = c.m * total + 2 ∧ p'.d.signed = p.d.signed ∧ p'.dm.w = c.m * total + 2 ∧ p'.dm.signed = p.dm.signed := by
  simp only [practicalUpdate, bind_eq_ok, return_eq_ok, Except.ok.injEq, Prod.mk.injEq] at h
  obtain ⟨x, _, rfl, rfl⟩ := h
  refine ⟨rfl, rfl, ?_, rfl, ?_, rfl, rfl, rfl, rfl, rfl⟩
  · show (nextRoot c total p x).w = _; unfold nextRoot; split <;> rfl
  · show (nextShadow c total p x).w = _; unfold nextShadow; split <;> rfl

/-- What committing an iteration leaves in every engine item but the phase and the result bits (R90, R91). -/
theorem Engine.finish_fields (c : Config) (e : Engine) (i : Nat) (digit : Int) (mc : Reg) (report : Report) :
    let f := Engine.finish c e i digit mc report
    f.mode = e.mode ∧ f.total = e.total ∧ f.k = e.k ∧ f.bd = e.bd ∧ f.sd = e.sd ∧ f.wA = e.wA ∧ f.res = e.res ∧
      f.root = e.root ∧ f.mc = some (if i = e.total then mc else mc.lsl c.m) ∧ f.sref = e.sref ∧ f.resp = e.resp ∧
      f.q = e.q ∧ f.qm = e.qm ∧ f.d = e.d ∧ f.dm = e.dm ∧ f.eiter = i ∧ f.elastd = digit := by
  unfold Engine.finish
  split <;> simp [*]

/-- What every committed iteration does to RES, ROOT and MC, in either mode, and what it leaves alone (R90, R91, R96,
R107). -/
theorem Engine.iterate_track {c : Config} {e e' : Engine} (h : e.iterate c = .ok e') :
    ∃ res root mc sref, e.res = some res ∧ e.root = some root ∧ e.mc = some mc ∧ e.sref = some sref ∧
      (let new :=
        basicUpdate c e.total e.k (e.rootDigit (e.eiter + 1)) (e.partialProduct c (e.eiter + 1) mc) res root
      e'.res = some new.1 ∧ e'.root = some new.2) ∧
      e'.mc = some (if e.eiter + 1 = e.total then mc else mc.lsl c.m) ∧
      e'.k = e.k ∧ e'.bd = e.bd ∧ e'.sd = e.sd ∧ e'.wA = e.wA ∧ e'.sref = e.sref ∧
      (e.mode = .basic → e'.elastd = e.rootDigit (e.eiter + 1) ∧ e'.resp = e.resp ∧ e'.q = e.q ∧ e'.qm = e.qm ∧
        e'.d = e.d ∧ e'.dm = e.dm) := by
  simp only [Engine.iterate, bind_eq_ok, require_eq_ok, exists_const, allocated_eq_ok] at h
  obtain ⟨_, res, hres, root, hroot, mc, hmc, sref, hsref, h⟩ := h
  refine ⟨res, root, mc, sref, hres, hroot, hmc, hsref, ?_⟩
  split at h
  · simp only [return_eq_ok, Except.ok.injEq] at h
    subst h
    simp only [Engine.basicIteration, Engine.finish_fields, implies_true, and_self]
  · next hm =>
    simp only [bind_eq_ok] at h
    obtain ⟨p, _, h⟩ := h
    simp only [Engine.practicalIteration, bind_eq_ok, return_eq_ok, Except.ok.injEq] at h
    obtain ⟨_, _, rfl⟩ := h
    simp only [Engine.finish_fields, hm, reduceCtorEq, false_imp_iff, and_self]

/-- What every committed iteration does: EITER advances, and the last one ends the run (R90, R92). -/
theorem Engine.iterate_progress {c : Config} {e e' : Engine} (h : e.iterate c = .ok e') :
    e'.eiter = e.eiter + 1 ∧ e'.total = e.total ∧ e'.mode = e.mode ∧ e.active = true ∧
      (e.eiter + 1 = e.total → e'.active = false ∧ e'.done = true) ∧
      (e.eiter + 1 ≠ e.total → e'.active = e.active ∧ e'.done = e.done) := by
  simp only [Engine.iterate, bind_eq_ok, require_eq_ok, exists_const, allocated_eq_ok] at h
  obtain ⟨ha, res, hres, root, hroot, mc, hmc, sref, hsref, h⟩ := h
  have fin : ∀ (e1 : Engine) d m r, e1.total = e.total → e1.mode = e.mode → e1.active = e.active →
      e1.done = e.done → e' = Engine.finish c e1 (e.eiter + 1) d m r →
      e'.eiter = e.eiter + 1 ∧ e'.total = e.total ∧ e'.mode = e.mode ∧ e.active = true ∧
        (e.eiter + 1 = e.total → e'.active = false ∧ e'.done = true) ∧
        (e.eiter + 1 ≠ e.total → e'.active = e.active ∧ e'.done = e.done) := by
    rintro e1 d m r h1 h2 h3 h4 rfl
    unfold Engine.finish
    split
    · next hh => rw [h1] at hh; exact ⟨rfl, h1, h2, ha, fun _ => ⟨rfl, rfl⟩, fun hn => absurd hh hn⟩
    · next hh => rw [h1] at hh; exact ⟨rfl, h1, h2, ha, fun hn => absurd hn hh, fun _ => ⟨h3, h4⟩⟩
  split at h
  · simp only [return_eq_ok, Except.ok.injEq] at h
    unfold Engine.basicIteration at h
    simp only at h
    refine fin _ _ _ _ ?_ ?_ ?_ ?_ h.symm <;> rfl
  · simp only [bind_eq_ok] at h
    obtain ⟨p, _, h⟩ := h
    simp only [Engine.practicalIteration, bind_eq_ok, return_eq_ok, Except.ok.injEq] at h
    obtain ⟨⟨p', dig⟩, hu, h⟩ := h
    refine fin _ _ _ _ ?_ ?_ ?_ ?_ h.symm <;> rfl

end Sys2Proof.Machine
end

