-- ==== Sys2Proof/Laws/PerInstr.lean ====
section
/-! SUPPORT. Laws per instruction: how many words an instruction has, and that its first word carries its OP. -/

namespace Sys2Proof

/-- Unpacking a packed header gives its fields back (R52). -/
theorem Header.unpack_pack (f : Header) : Header.unpack f.pack = f := by
  obtain ⟨op, rd, ra, rb, rsv, imm8, imm32⟩ := f
  simp only [Header.unpack, Header.pack, Header.mk.injEq]
  have field : ∀ {w : Nat} (start : Nat) (x : BitVec w),
      (∀ i, i < w → (op ++ rd ++ ra ++ rb ++ rsv ++ imm8 ++ imm32).getLsbD (start + i) = x.getLsbD i) →
        (op ++ rd ++ ra ++ rb ++ rsv ++ imm8 ++ imm32).extractLsb' start w = x := by
    intro w start x h
    apply BitVec.eq_of_getLsbD_eq
    intro i hi
    rw [BitVec.getLsbD_extractLsb', h i hi]
    simp [hi]
  refine ⟨field 58 op ?_, field 53 rd ?_, field 48 ra ?_, field 43 rb ?_, field 40 rsv ?_, field 32 imm8 ?_,
    field 0 imm32 ?_⟩ <;>
    · intro i hi
      simp only [BitVec.getLsbD_append]
      split_ifs <;> first | omega | (congr 1; omega)

namespace Laws.Encoding

/-- The words of `i`: two for CMPC and LOADC, one for the others (R51), the first with the OP of its row (R57). -/
def Statement (i : Instr) : Prop :=
  ∃ h rest, encode i = h :: rest ∧ (Header.unpack h).op = i.opcode.code ∧
    rest.length = if i.opcode = .cmpc ∨ i.opcode = .loadc then 1 else 0

theorem create (rd : Slot) (width : Nat) : Statement (.create rd width) :=
  ⟨_, _, rfl, by rw [Header.unpack_pack]; rfl, rfl⟩

theorem free (rd : Slot) : Statement (.free rd) :=
  ⟨_, _, rfl, by rw [Header.unpack_pack]; rfl, rfl⟩

theorem dup (rd : Slot) (ra : Slot) : Statement (.dup rd ra) :=
  ⟨_, _, rfl, by rw [Header.unpack_pack]; rfl, rfl⟩

theorem rand (rd : Slot) : Statement (.rand rd) :=
  ⟨_, _, rfl, by rw [Header.unpack_pack]; rfl, rfl⟩

theorem setsign (rd : Slot) (signed : Bool) : Statement (.setsign rd signed) :=
  ⟨_, _, rfl, by rw [Header.unpack_pack]; rfl, rfl⟩

theorem rdst (ra : Slot) : Statement (.rdst ra) :=
  ⟨_, _, rfl, by rw [Header.unpack_pack]; rfl, rfl⟩

theorem rdw (ra : Slot) (k : Nat) : Statement (.rdw ra k) :=
  ⟨_, _, rfl, by rw [Header.unpack_pack]; rfl, rfl⟩

theorem abs (rd : Slot) (ra : Slot) : Statement (.abs rd ra) :=
  ⟨_, _, rfl, by rw [Header.unpack_pack]; rfl, rfl⟩

theorem neg (rd : Slot) : Statement (.neg rd) :=
  ⟨_, _, rfl, by rw [Header.unpack_pack]; rfl, rfl⟩

theorem cmp (ra : Slot) (rb : Slot) : Statement (.cmp ra rb) :=
  ⟨_, _, rfl, by rw [Header.unpack_pack]; rfl, rfl⟩

theorem cmpc (ra : Slot) (k : Int) : Statement (.cmpc ra k) :=
  ⟨_, _, rfl, by rw [Header.unpack_pack]; rfl, rfl⟩

theorem lsl (rd : Slot) (n : Nat) : Statement (.lsl rd n) :=
  ⟨_, _, rfl, by rw [Header.unpack_pack]; rfl, rfl⟩

theorem lsr (rd : Slot) (n : Nat) : Statement (.lsr rd n) :=
  ⟨_, _, rfl, by rw [Header.unpack_pack]; rfl, rfl⟩

theorem load (rd : Slot) (ra : Slot) (pos : Nat) : Statement (.load rd ra pos) :=
  ⟨_, _, rfl, by rw [Header.unpack_pack]; rfl, rfl⟩

theorem loadc (rd : Slot) (value : Word) (pos : Nat) (bitcount : Nat) : Statement (.loadc rd value pos bitcount) :=
  ⟨_, _, rfl, by rw [Header.unpack_pack]; rfl, rfl⟩

theorem extract (ra : Slot) (rd : Slot) (pos : Int) : Statement (.extract ra rd pos) :=
  ⟨_, _, rfl, by rw [Header.unpack_pack]; rfl, rfl⟩

theorem add (rd : Slot) (ra : Slot) (pos : Nat) : Statement (.add rd ra pos) :=
  ⟨_, _, rfl, by rw [Header.unpack_pack]; rfl, rfl⟩

theorem sub (rd : Slot) (ra : Slot) (pos : Nat) : Statement (.sub rd ra pos) :=
  ⟨_, _, rfl, by rw [Header.unpack_pack]; rfl, rfl⟩

theorem mul (rd : Slot) (ra : Slot) (rb : Slot) : Statement (.mul rd ra rb) :=
  ⟨_, _, rfl, by rw [Header.unpack_pack]; rfl, rfl⟩

theorem isqrt (rd : Slot) (ra : Slot) : Statement (.isqrt rd ra) :=
  ⟨_, _, rfl, by rw [Header.unpack_pack]; rfl, rfl⟩

theorem digits (ds : StreamNo) (ra : Slot) (bpd : Nat) : Statement (.digits ds ra bpd) :=
  ⟨_, _, rfl, by rw [Header.unpack_pack]; rfl, rfl⟩

theorem dread (ds : StreamNo) (k : Nat) : Statement (.dread ds k) :=
  ⟨_, _, rfl, by rw [Header.unpack_pack]; rfl, rfl⟩

theorem estart (ra : Slot) (rb : Slot) (rd : Slot) (mode : EngineMode) : Statement (.estart ra rb rd mode) :=
  ⟨_, _, rfl, by rw [Header.unpack_pack]; rfl, rfl⟩

theorem estep : Statement (.estep) :=
  ⟨_, _, rfl, by rw [Header.unpack_pack]; rfl, rfl⟩

theorem erun (ra : Slot) (rb : Slot) (rd : Slot) (mode : EngineMode) : Statement (.erun ra rb rd mode) :=
  ⟨_, _, rfl, by rw [Header.unpack_pack]; rfl, rfl⟩

theorem eget (rd : Slot) (sel : EngineSel) : Statement (.eget rd sel) :=
  ⟨_, _, rfl, by rw [Header.unpack_pack]; rfl, rfl⟩

theorem rdcsr (csr : Csr) : Statement (.rdcsr csr) :=
  ⟨_, _, rfl, by rw [Header.unpack_pack]; rfl, rfl⟩

end Laws.Encoding

end Sys2Proof
end

