-- ==== Sys2Proof/Laws/Random.lean ====
section
/-! SUPPORT. The random-bit source and RAND's rejection sampling, said once: what a call leaves, which bits a draw has,
and which draw is the first accepted one (R36, R64). -/

namespace Sys2Proof.Machine

/-! ### skipBits: the channel alone changes -/

@[simp] theorem State.skipBits_cfg (s : State) (n : Nat) : (s.skipBits n).cfg = s.cfg := rfl
@[simp] theorem State.skipBits_regs (s : State) (n : Nat) : (s.skipBits n).regs = s.regs := rfl
@[simp] theorem State.skipBits_streams (s : State) (n : Nat) : (s.skipBits n).streams = s.streams := rfl
@[simp] theorem State.skipBits_engine (s : State) (n : Nat) : (s.skipBits n).engine = s.engine := rfl
@[simp] theorem State.skipBits_fsr (s : State) (n : Nat) : (s.skipBits n).fsr = s.fsr := rfl
@[simp] theorem State.skipBits_input (s : State) (n : Nat) : (s.skipBits n).input = s.input := rfl
@[simp] theorem State.skipBits_responses (s : State) (n : Nat) : (s.skipBits n).responses = s.responses := rfl
@[simp] theorem State.skipBits_randomBits (s : State) (n : Nat) : (s.skipBits n).randomBits = s.randomBits.drop n := rfl
@[simp] theorem State.skipBits_furtherDrawn (s : State) (n : Nat) :
    (s.skipBits n).furtherDrawn = s.furtherDrawn + (n - s.randomBits.length) := rfl
@[simp] theorem State.reg_skipBits (s : State) (n : Nat) (i : Slot) : (s.skipBits n).reg i = s.reg i := rfl
@[simp] theorem State.stream_skipBits (s : State) (n : Nat) (k : StreamNo) : (s.skipBits n).stream k = s.stream k := rfl
@[simp] theorem State.skipBits_zero (s : State) : s.skipBits 0 = s := by simp [State.skipBits]

/-- n calls and then k more are n + k calls. -/
@[simp] theorem State.skipBits_skipBits (s : State) (n k : Nat) : (s.skipBits n).skipBits k = s.skipBits (n + k) := by
  simp only [State.skipBits, List.drop_drop, List.length_drop, State.mk.injEq, true_and]
  omega

/-! ### The bits of a draw -/

/-- A listed bit is the bit supplied (R36). -/
theorem State.sourceBit_listed {s : State} {k : Nat} {b : Bool} (h : s.randomBits[k]? = some b) : s.sourceBit k = b := by
  simp [State.sourceBit, List.getD, h]

/-- n calls later, the source is n bits further on. -/
@[simp] theorem State.sourceBit_skipBits (s : State) (n k : Nat) : (s.skipBits n).sourceBit k = s.sourceBit (n + k) := by
  simp only [State.sourceBit, State.skipBits, List.getD, List.getElem?_drop, List.length_drop]
  by_cases h : n + k < s.randomBits.length
  · simp [h]
  · rw [List.getElem?_eq_none (Nat.le_of_not_lt h)]
    simp only [Option.getD_none]
    congr 1
    omega

/-- Bit k of the number of a list of bits is element k. -/
theorem natOfBits_testBit (l : List Bool) (k : Nat) : (natOfBits l).testBit k = l.getD k false := by
  induction l generalizing k with
  | nil => simp [natOfBits]
  | cons b bs ih =>
    cases k with
    | zero => cases b <;> simp [natOfBits, Nat.testBit_zero]
    | succ k =>
      have : (b.toNat + 2 * natOfBits bs) / 2 = natOfBits bs := by cases b <;> simp; omega
      rw [natOfBits, Nat.testBit_succ, this, ih]
      rfl

/-- The first bit drawn is bit 0 of the pattern (R64). -/
theorem State.getLsbD_drawPattern (s : State) {w k : Nat} (h : k < w) : (s.drawPattern w).getLsbD k = s.sourceBit k := by
  rw [State.drawPattern, BitVec.getLsbD_ofNat, natOfBits_testBit]
  simp [h]

/-! ### Acceptance -/

/-- A pattern is accepted if it has a 1 bit and, in signed mode at width 2 or more, not exactly one (R64). -/
theorem accepted_eq_true {w : Nat} {signed : Bool} {b : BitVec w} :
    accepted signed b = true ↔ (∃ k, k < w ∧ b.getLsbD k = true) ∧ ¬(signed = true ∧ 2 ≤ w ∧ popcount b = 1) := by
  have hz : b ≠ 0 ↔ ∃ k, k < w ∧ b.getLsbD k = true := by
    constructor
    · intro h
      by_contra hc
      push Not at hc
      exact h (BitVec.eq_of_getLsbD_eq fun i hi => by simpa using hc i hi)
    · rintro ⟨k, _, hk⟩ rfl
      simp at hk
  rw [← hz]
  simp only [accepted, Bool.and_eq_true, bne_iff_ne, Bool.not_eq_true', Bool.and_eq_false_imp, beq_eq_false_iff_ne,
    decide_eq_true_eq, not_and]
  tauto

/-- A draw is accepted by the bits the source supplies (R64). -/
theorem State.accepted_drawPattern (s : State) (w : Nat) (signed : Bool) :
    accepted signed (s.drawPattern w) = true ↔
      (∃ k, k < w ∧ s.sourceBit k = true) ∧
        ¬(signed = true ∧ 2 ≤ w ∧ (List.range w).countP (fun k => s.sourceBit k) = 1) := by
  have hc : popcount (s.drawPattern w) = (List.range w).countP (fun k => s.sourceBit k) :=
    List.countP_congr fun k hk => by rw [s.getLsbD_drawPattern (List.mem_range.1 hk)]
  rw [accepted_eq_true, hc]
  refine and_congr_left fun _ => exists_congr fun k => and_congr_right fun hk => ?_
  rw [s.getLsbD_drawPattern hk]

/-! ### The first accepted draw -/

/-- Everything rejection sampling can do: it answers the first accepted draw and the channel after it, or every draw
its fuel allows was rejected (R64). -/
theorem State.sample_cases (w : Nat) (signed : Bool) (fuel : Nat) (s : State) :
    (∃ n, n < fuel ∧ State.sample w signed fuel s = some ((s.skipBits (n * w)).drawPattern w, s.skipBits ((n + 1) * w)) ∧
      accepted signed ((s.skipBits (n * w)).drawPattern w) = true ∧
      ∀ j, j < n → accepted signed ((s.skipBits (j * w)).drawPattern w) = false) ∨
    (State.sample w signed fuel s = none ∧
      ∀ j, j < fuel → accepted signed ((s.skipBits (j * w)).drawPattern w) = false) := by
  induction fuel generalizing s with
  | zero => exact .inr ⟨rfl, by simp⟩
  | succ fuel ih =>
    cases ha : accepted signed (s.drawPattern w) with
    | true => exact .inl ⟨0, by omega, by simp [State.sample, ha], by simpa using ha, by simp⟩
    | false =>
      have hs : State.sample w signed (fuel + 1) s = State.sample w signed fuel (s.skipBits w) := by
        simp [State.sample, ha]
      have hk : ∀ j, ((s.skipBits w).skipBits (j * w)) = s.skipBits ((j + 1) * w) := fun j => by
        rw [State.skipBits_skipBits]; congr 1; ring
      simp only [hs]
      have earlier : ∀ n, (∀ j, j < n → accepted signed (((s.skipBits w).skipBits (j * w)).drawPattern w) = false) →
          ∀ j, j < n + 1 → accepted signed ((s.skipBits (j * w)).drawPattern w) = false := by
        intro n h j hj
        cases j with
        | zero => simpa using ha
        | succ j => rw [← hk]; exact h j (by omega)
      rcases ih (s.skipBits w) with ⟨n, hn, he, hacc, hrej⟩ | ⟨he, hrej⟩
      · refine .inl ⟨n + 1, by omega, ?_, ?_, earlier n hrej⟩
        · rw [he, hk, hk]
        · rw [← hk]; exact hacc
      · exact .inr ⟨he, earlier fuel hrej⟩

/-- The fuel of RAND reaches every draw that begins in the listed bits or right after them. -/
theorem State.randomPattern_cases (s : State) (w : Nat) (signed : Bool) :
    (∃ n, s.randomPattern w signed = some ((s.skipBits (n * w)).drawPattern w, s.skipBits ((n + 1) * w)) ∧
      accepted signed ((s.skipBits (n * w)).drawPattern w) = true ∧
      ∀ j, j < n → accepted signed ((s.skipBits (j * w)).drawPattern w) = false) ∨
    (s.randomPattern w signed = none ∧
      ∀ j, j ≤ s.randomBits.length → accepted signed ((s.skipBits (j * w)).drawPattern w) = false) := by
  rcases State.sample_cases w signed (Config.drawFuel + (s.randomBits.length + 1)) s with ⟨n, _, h⟩ | ⟨h, hr⟩
  · exact .inl ⟨n, h⟩
  · exact .inr ⟨h, fun j hj => hr j (by omega)⟩

/-- RAND changes no item but its register and the channel (R64). -/
theorem State.randomPattern_channel {s t : State} {w : Nat} {signed : Bool} {b : BitVec w}
    (h : s.randomPattern w signed = some (b, t)) : ∃ n, t = s.skipBits n := by
  rcases s.randomPattern_cases w signed with ⟨n, he, _⟩ | ⟨he, _⟩
  · rw [he] at h; cases h; exact ⟨_, rfl⟩
  · rw [he] at h; cases h

end Sys2Proof.Machine
end

