-- ==== Sys2Proof/Laws/Safety.lean ====
section
/-! SUPPORT. What the predicates that claims are stated in say of the model's own operations: a range, a run that can
start, the next digits of a run, the residual a digit is selected from. -/

namespace Sys2Proof.Machine

/-! ### Ranges (R11) -/

/-- R11's bounds are the model's range test. -/
theorem range_iff {w : Nat} {signed : Bool} {v : Int} (hw : 1 ≤ w) : Range w signed v ↔ inRange w signed v = true := by
  obtain ⟨k, rfl⟩ : ∃ k, w = k + 1 := ⟨w - 1, by omega⟩
  unfold Range
  cases signed
  · rw [inRange_unsigned, if_neg (by simp)]
    omega
  · rw [inRange_signed, if_pos rfl, Nat.add_sub_cancel, pow_succ]
    omega

/-! ### Starting a run (R89) -/

/-- The widest register of a run fits exactly when each of them does (R30, R89 check 8). -/
theorem widestRegister_le {c : Config} {mode : EngineMode} {wA wB wS total wrt wrp k : Nat}
    (htotal : c.iterations mode = total) (hk : (c.alignment total).toNat = k)
    (hwrt : c.resWidth total wA wB wS = wrt) (hwrp : c.respWidth total k wA wB = wrp) :
    c.widestRegister mode wA wB wS ≤ c.maxWidth ↔
      (wrt ≤ c.maxWidth ∧ c.m * total + c.m + 1 ≤ c.maxWidth ∧ wA + c.m * total ≤ c.maxWidth ∧
        wA + c.m * (total - 1) ≤ c.maxWidth ∧ wS + c.z ≤ c.maxWidth) ∧
      (mode = .practical → wrp ≤ c.maxWidth ∧ c.m * total + c.m + 4 ≤ c.maxWidth) := by
  unfold Config.widestRegister
  simp only [htotal, hk, hwrt, hwrp]
  cases mode
  · simp only [Nat.max_le, reduceCtorEq, false_imp_iff, and_true, and_assoc]
  · simp only [Nat.max_le, true_imp_iff, and_assoc]

namespace StartOk

variable {c : Config} {mode : EngineMode} {a b d : Reg} {total k wrt wrp : Nat}

/-- I is the model's iteration count. -/
theorem iterations_eq (h : StartOk c mode a b d total k wrt wrp) : c.iterations mode = total := by
  rw [h.iterations]
  cases mode <;> rfl

/-- K is the model's alignment. -/
theorem alignment_eq (h : StartOk c mode a b d total k wrt wrp) : c.alignment total = k := h.aligned.symm

/-- WRT is the model's width of RES. -/
theorem resWidth_eq (h : StartOk c mode a b d total k wrt wrp) : c.resWidth total a.w b.w d.w = wrt := h.residual.symm

/-- WRP is the model's width of RESP. -/
theorem respWidth_eq (h : StartOk c mode a b d total k wrt wrp) : c.respWidth total k a.w b.w = wrp := h.residualP.symm

/-- Every check of ESTART passes. -/
theorem startChecks_eq (h : StartOk c mode a b d total k wrt wrp) : startChecks c mode a b d = .ok () := by
  have hw := (widestRegister_le h.iterations_eq (by rw [h.alignment_eq]; rfl) h.resWidth_eq h.respWidth_eq).2
    ⟨h.width, h.widthP⟩
  simp only [startChecks, bind_eq_ok, require_eq_ok, exists_const]
  exact ⟨h.radix, h.practical, h.even, h.guard, h.unsigned, h.multiplier,
    fun hm => by rw [h.iterations_eq]; exact h.root hm, by rw [h.iterations_eq, h.alignment_eq]; omega, hw⟩

/-- ESTART leaves the engine of R89. -/
theorem startRun_eq {s : State} {ra rb rd : Slot} (h : StartOk s.cfg mode a b d total k wrt wrp)
    (ha : s.reg ra = some a) (hb : s.reg rb = some b) (hd : s.reg rd = some d) :
    s.startRun ra rb rd mode = .ok (startEngine s.cfg mode a b d) := by
  simp only [State.startRun, State.operand_some ha, State.operand_some hb, State.operand_some hd, ok_bind,
    h.startChecks_eq, return_eq_ok]

end StartOk

/-! ### The digits of an iteration (R90, R95) -/

/-- The digit t_i of an iteration is R95's. -/
theorem nextRootDigit_rootDigit (e : Engine) : NextRootDigit e (e.rootDigit (e.eiter + 1)) := by
  unfold Engine.rootDigit
  refine ⟨fun h => by rw [if_neg (by omega)], fun j x h hx => ?_⟩
  have hj : j < e.sd.count := (List.getElem?_eq_some_iff.1 hx).1
  have hi : (((e.eiter + 1 : Nat) : Int) - ((e.total : Int) - e.sd.count)).toNat = j + 1 := by omega
  rw [if_pos (by omega), hi]
  simp [DigitList.element, List.getD, hx]

/-- The multiplier digit of an iteration is R90's. -/
theorem nextMultiplierDigit_multiplierDigit {c : Config} {e : Engine} (h : e.bd.count = c.n) :
    NextMultiplierDigit c e (e.multiplierDigit c (e.eiter + 1)) := by
  unfold Engine.multiplierDigit
  refine ⟨fun h2 => ?_, fun h2 => by rw [if_neg (by omega)]⟩
  have hj : e.eiter + 1 < e.bd.digits.length := by
    change e.bd.digits.length = c.n at h
    omega
  rw [if_pos (by omega)]
  simp [DigitList.element, List.getD, List.getElem?_eq_getElem hj]

/-- R90 fixes one multiplier digit. -/
theorem NextMultiplierDigit.unique {c : Config} {e : Engine} {b b' : Nat} (h : NextMultiplierDigit c e b)
    (h' : NextMultiplierDigit c e b') : b = b' := by
  by_cases hn : e.eiter + 2 ≤ c.n
  · exact Option.some.inj ((h.1 hn).symm.trans (h'.1 hn))
  · rw [h.2 (by omega), h'.2 (by omega)]

/-! ### The residual a digit is selected from (R99, R100) -/

/-- The selection reads no flag of the residual. -/
theorem selectDigit_ovf (c : Config) (i : Nat) (resp q : Reg) (o : Bool) :
    selectDigit c i { resp with ovf := o } q = selectDigit c i resp q := rfl

/-- LSL by 2m, then ADD of PP at m, when PP is b·MC: but for its flag, the register a digit is selected from. -/
theorem shiftedResidual_eq (c : Config) {resp pp mc : Reg} {b : Nat} (h : pp.val = b * mc.val) :
    ∃ o, (resp.lsl (2 * c.m)).addAt pp 1 c.m = { shiftedResidual c resp mc b with ovf := o } := by
  refine ⟨((resp.lsl (2 * c.m)).addAt pp 1 c.m).ovf, ?_⟩
  have hw : (resp.lsl (2 * c.m)).bits = BitVec.ofInt (resp.lsl (2 * c.m)).w (resp.val * 2 ^ (2 * c.m)) := by
    rw [Reg.lsl_eq]
    rfl
  have hb : BitVec.ofInt resp.w ((resp.lsl (2 * c.m)).val + 1 * (pp.val * 2 ^ c.m)) =
      BitVec.ofInt resp.w (resp.val * 2 ^ (2 * c.m) + b * mc.val * 2 ^ c.m) := by
    rw [one_mul, h]
    exact ofInt_val_add _ hw _
  unfold shiftedResidual
  rw [← hb, Reg.addAt_eq]
  rfl

end Sys2Proof.Machine
end

