-- ==== Sys2Proof/Laws/Recurrence.lean ====
section
/-! SUPPORT. What one iteration stores, as exact integers: the terms of the recurrence, the appended roots of the
conversion, and the residual's three steps (R90, R96, R99, R105). -/

namespace Sys2Proof.Machine

/-! ### Exact stores -/

/-- An exact store, in the words of R11 and R12. -/
theorem stored_storeExact (x : Reg) (v : Int) (hw : 1 ≤ x.w) : Stored x v (x.storeExact v) := by
  refine ⟨rfl, ?_⟩
  rw [range_iff hw, Reg.storeExact_ovf, Bool.or_eq_true, Reg.fits]
  simp

namespace Stored

variable {x x' : Reg} {v : Int}

theorem w_eq (h : Stored x v x') : x'.w = x.w := by rw [h.1]

theorem signed_eq (h : Stored x v x') : x'.signed = x.signed := by rw [h.1]

theorem unf_eq (h : Stored x v x') : x'.unf = x.unf := by rw [h.1]

theorem bits_eq (h : Stored x v x') : x'.bits = BitVec.ofInt x'.w v := by
  obtain ⟨w, b, g, o, u⟩ := x'
  have := h.1
  simp only [Reg.mk.injEq] at this
  obtain ⟨rfl, hb, -⟩ := this
  exact eq_of_heq hb

/-- Overflow once latched stays (R12). -/
theorem ovf_mono (h : Stored x v x') (ho : x.ovf = true) : x'.ovf = true := h.2.2 (.inl ho)

/-- Stored without overflow, the value is the exact one (R11). -/
theorem val_eq (h : Stored x v x') (hw : 1 ≤ x.w) (ho : x'.ovf = false) : x'.val = v := by
  have hr : Range x.w x.signed v := by
    by_contra hc
    rw [h.2.2 (.inr hc)] at ho
    cases ho
  rw [range_iff hw] at hr
  rw [h.1]
  exact Reg.val_store hr

end Stored

/-! ### The residual's three steps (R96, R99) -/

theorem residualStep (c : Config) (k : Nat) (x pp lq : Reg) (hw : 1 ≤ x.w) :
    ResidualStep c k x pp.val lq.val (((x.lsl (2 * c.m)).addAt pp 1 c.m).addAt lq (-1) k) := by
  refine ⟨x.lsl (2 * c.m), (x.lsl (2 * c.m)).addAt pp 1 c.m, ?_, ?_, ?_⟩
  · rw [Reg.lsl_eq]
    exact stored_storeExact _ _ hw
  · rw [Reg.addAt_eq, one_mul]
    exact stored_storeExact _ _ hw
  · rw [Reg.addAt_eq ((x.lsl (2 * c.m)).addAt pp 1 c.m), neg_one_mul, ← Int.sub_eq_add_neg]
    exact stored_storeExact _ _ hw

namespace ResidualStep

variable {c : Config} {k : Nat} {x x' : Reg} {pp lq : Int}

theorem w_eq (h : ResidualStep c k x pp lq x') : x'.w = x.w := by
  obtain ⟨x1, x2, h1, h2, h3⟩ := h
  rw [h3.w_eq, h2.w_eq, h1.w_eq]

/-- Overflow of the residual once latched stays. -/
theorem ovf_mono (h : ResidualStep c k x pp lq x') (ho : x.ovf = true) : x'.ovf = true := by
  obtain ⟨x1, x2, h1, h2, h3⟩ := h
  exact h3.ovf_mono (h2.ovf_mono (h1.ovf_mono ho))

/-- The residual is the recurrence modulo its width, whatever overflowed on the way. -/
theorem bits_eq (h : ResidualStep c k x pp lq x') :
    x'.bits = BitVec.ofInt x'.w (x.val * 2 ^ (2 * c.m) + pp * 2 ^ c.m - lq * 2 ^ k) := by
  obtain ⟨x1, x2, h1, h2, h3⟩ := h
  have e2 : x2.bits = BitVec.ofInt x2.w (x.val * 2 ^ (2 * c.m) + pp * 2 ^ c.m) := by
    rw [h2.bits_eq, h2.w_eq, ofInt_val_add x1 h1.bits_eq]
  rw [h3.bits_eq, h3.w_eq, Int.sub_eq_add_neg, ofInt_val_add x2 e2, ← Int.sub_eq_add_neg]

/-- And exactly while none of the three results overflows. -/
theorem val_eq (h : ResidualStep c k x pp lq x') (hw : 1 ≤ x.w) (ho : x'.ovf = false) :
    x'.val = x.val * 2 ^ (2 * c.m) + pp * 2 ^ c.m - lq * 2 ^ k := by
  obtain ⟨x1, x2, h1, h2, h3⟩ := h
  have o2 : x2.ovf = false := by
    by_contra hc
    rw [h3.ovf_mono (by simpa using hc)] at ho
    cases ho
  have o1 : x1.ovf = false := by
    by_contra hc
    rw [h2.ovf_mono (by simpa using hc)] at o2
    cases o2
  have w1 := h1.w_eq
  have w2 := h2.w_eq
  rw [h3.val_eq (by omega) ho, h2.val_eq (by omega) o2, h1.val_eq hw o1]

end ResidualStep

/-! ### Bits and integers -/

/-- Two integers with the same bits are equal. -/
theorem eq_of_bits {a b : Int} (h : ∀ j : Nat, a / 2 ^ j % 2 = b / 2 ^ j % 2) : a = b := by
  obtain ⟨w, ha1, ha2, hb1, hb2⟩ : ∃ w : Nat,
      -(2 ^ w : Int) ≤ 2 * a ∧ 2 * a < 2 ^ w ∧ -(2 ^ w : Int) ≤ 2 * b ∧ 2 * b < 2 ^ w := by
    refine ⟨2 * (a.natAbs + b.natAbs) + 1, ?_⟩
    have hlt : ((2 * (a.natAbs + b.natAbs) + 1 : Nat) : Int) < 2 ^ (2 * (a.natAbs + b.natAbs) + 1) := by
      exact_mod_cast Nat.lt_two_pow_self
    omega
  have hbits : BitVec.ofInt w a = BitVec.ofInt w b := by
    apply BitVec.eq_of_getLsbD_eq
    intro i hi
    rw [ofInt_getLsbD _ _ _ hi, ofInt_getLsbD _ _ _ hi, h]
  have va := Reg.val_store (r := Reg.zero w true) (v := a) (inRange_signed.2 ⟨ha1, ha2⟩)
  have vb := Reg.val_store (r := Reg.zero w true) (v := b) (inRange_signed.2 ⟨hb1, hb2⟩)
  rw [← va, ← vb]
  unfold Reg.store
  exact congrArg (fun z => Reg.val ⟨w, z, true, false, false⟩) hbits

/-- The bits of a shifted integer: zeros, then the integer's own. -/
theorem mul_pow_bit (v : Int) (p j : Nat) : v * 2 ^ p / 2 ^ j % 2 = if p ≤ j then v / 2 ^ (j - p) % 2 else 0 := by
  split
  · next h =>
    obtain ⟨k, rfl⟩ := Nat.exists_eq_add_of_le h
    rw [pow_add, ← Int.ediv_ediv_of_nonneg (by positivity), Int.mul_ediv_cancel _ (by positivity), Nat.add_sub_cancel_left]
  · next h =>
    obtain ⟨k, rfl⟩ : ∃ k, p = j + 1 + k := ⟨p - (j + 1), by omega⟩
    rw [show v * (2 : Int) ^ (j + 1 + k) = 2 ^ j * (2 * (v * 2 ^ k)) by ring, Int.mul_ediv_cancel_left _ (by positivity)]
    simp

/-! ### Loading a field (R74) -/

/-- A load that ends inside the register latches nothing. -/
theorem Reg.loadBits_ovf_inside (r : Reg) {n : Nat} (y : BitVec n) {p : Nat} (h : p + n ≤ r.w) :
    (r.loadBits y p).ovf = r.ovf := by
  have hz : ∀ z : BitVec n, z >>> (r.w - p) = 0 := fun z => by
    apply BitVec.eq_of_getLsbD_eq
    intro i hi
    rw [BitVec.getLsbD_ushiftRight, BitVec.getLsbD_of_ge _ _ (by omega)]
    simp
  simp only [Reg.loadBits, hz, Reg.setOvf_ovf]
  split <;> simp

/-- A register loaded at p into an empty one that it fills to the top: its value times 2^p, modulo the width. -/
theorem Reg.loadBits_zero_bits (W : Nat) (signed : Bool) (x : Reg) {p : Nat} (h : W ≤ x.w + p) :
    ((Reg.zero W signed).loadBits x.bits p).bits = BitVec.ofInt W (x.val * 2 ^ p) := by
  change insertBits (0 : BitVec W) x.bits p = BitVec.ofInt W (x.val * 2 ^ p)
  apply BitVec.eq_of_getLsbD_eq
  intro i hi
  rw [ofInt_getLsbD _ _ _ hi, getLsbD_insertBits, mul_pow_bit]
  by_cases hp : p ≤ i
  · rw [if_pos ⟨hp, by omega, hi⟩, if_pos hp, Reg.val_testBit, if_pos (show i - p < x.w by omega)]
    cases x.bits.getLsbD (i - p) <;> simp
  · rw [if_neg (by omega), if_neg hp]
    simp

/-- Such a load of a signed register latches overflow exactly when the value times 2^p does not fit. -/
theorem Reg.loadBits_zero_ovf {W : Nat} {x : Reg} {p : Nat} (hs : x.signed = true) (hp : p < W) (h : W ≤ x.w + p) :
    ((Reg.zero W true).loadBits x.bits p).ovf = !inRange W true (x.val * 2 ^ p) := by
  have hb := Reg.loadBits_zero_bits W true x h
  set out := (Reg.zero W true).loadBits x.bits p with hout
  have hbit : ∀ i, p ≤ i → i < W → out.bits.getLsbD i = x.bits.getLsbD (i - p) := by
    intro i h1 h2
    change (insertBits (0 : BitVec W) x.bits p).getLsbD i = _
    rw [getLsbD_insertBits, if_pos ⟨h1, by omega, h2⟩]
  have hval : inRange W true (x.val * 2 ^ p) = true ↔ out.val = x.val * 2 ^ p := by
    have := Reg.val_store_iff (Reg.zero W true) (x.val * 2 ^ p)
    rw [show ((Reg.zero W true).store (x.val * 2 ^ p)).val = out.val by
      change Reg.val ⟨W, BitVec.ofInt W (x.val * 2 ^ p), true, false, false⟩ = _
      rw [← hb]
      rfl] at this
    exact this.symm
  have hov : out.ovf = false ↔ ∀ j, W ≤ p + j → j < x.w → x.bits.getLsbD j = out.bits.msb := by
    have hdef : out.ovf = (x.bits >>> (W - p) != (if out.bits.msb then BitVec.allOnes x.w >>> (W - p) else 0)) := by
      change (false || (x.bits >>> (W - p) != (if (true && out.bits.msb) then BitVec.allOnes x.w >>> (W - p) else 0))) = _
      simp
    rw [hdef, bne_eq_false_iff_eq]
    constructor
    · intro he j h1 h2
      have := congrArg (fun z => z.getLsbD (j - (W - p))) he
      simp only [BitVec.getLsbD_ushiftRight, show W - p + (j - (W - p)) = j by omega] at this
      rw [this]
      cases out.bits.msb <;> simp
      omega
    · intro hj
      apply BitVec.eq_of_getLsbD_eq
      intro i hi
      rw [BitVec.getLsbD_ushiftRight]
      by_cases h2 : W - p + i < x.w
      · rw [hj _ (by omega) h2]
        cases out.bits.msb <;> simp [h2]
      · rw [BitVec.getLsbD_of_ge _ _ (by omega)]
        cases out.bits.msb <;> simp [h2]
  have htop : out.bits.msb = x.bits.getLsbD (W - 1 - p) := by
    rw [BitVec.msb_eq_getLsbD_last]
    exact hbit (W - 1) (by omega) (by omega)
  have hmsb : x.bits.msb = x.bits.getLsbD (x.w - 1) := BitVec.msb_eq_getLsbD_last _
  have key : out.ovf = false ↔ out.val = x.val * 2 ^ p := by
    rw [hov]
    have hout : ∀ j, out.val / 2 ^ j % 2 =
        if (if j < W then (if p ≤ j then x.bits.getLsbD (j - p) else false) else out.bits.msb) then 1 else 0 := by
      intro j
      rw [Reg.val_testBit]
      change (if (if j < W then out.bits.getLsbD j else (true && out.bits.msb)) then 1 else 0 : Int) = _
      by_cases hj : j < W
      · rw [if_pos hj, if_pos hj]
        by_cases hpj : p ≤ j
        · rw [if_pos hpj, hbit j hpj hj]
        · rw [if_neg hpj]
          change (if (insertBits (0 : BitVec W) x.bits p).getLsbD j then 1 else 0 : Int) = _
          rw [getLsbD_insertBits, if_neg (show ¬(p ≤ j ∧ j < p + x.w ∧ j < W) by omega)]
          simp
      · rw [if_neg hj, if_neg hj, Bool.true_and]
    constructor
    · intro hj
      have hsign : x.bits.msb = out.bits.msb := by
        by_cases hx : W ≤ p + (x.w - 1)
        · rw [hmsb]
          exact hj _ hx (by omega)
        · rw [hmsb, htop]
          congr 1
          omega
      refine eq_of_bits fun j => ?_
      rw [hout, mul_pow_bit, Reg.val_testBit, hs, hsign]
      by_cases h1 : j < W
      · rw [if_pos h1]
        by_cases h2 : p ≤ j
        · rw [if_pos h2, if_pos h2, if_pos (show j - p < x.w by omega)]
        · rw [if_neg h2, if_neg h2]
          simp
      · rw [if_neg h1, if_pos (show p ≤ j by omega)]
        by_cases h2 : j - p < x.w
        · rw [if_pos h2, hj _ (by omega) h2]
        · rw [if_neg h2, Bool.true_and]
    · intro he j h1 h2
      have := hout (p + j)
      rw [he, mul_pow_bit, if_pos (by omega), Nat.add_sub_cancel_left, Reg.val_testBit, if_pos h2,
        if_neg (show ¬p + j < W by omega)] at this
      revert this
      cases x.bits.getLsbD j <;> cases out.bits.msb <;> simp
  rw [Bool.eq_iff_iff, ← not_iff_not]
  simp only [Bool.not_eq_true, Bool.not_eq_true', Bool.not_eq_false]
  exact key.trans hval.symm

/-- Loading the low field of a register whose low m bits are zero adds the field. -/
theorem Reg.loadBits_low (r : Reg) {m n : Nat} {v : Int} (y : BitVec n) (hn : n ≤ m)
    (hb : r.bits = BitVec.ofInt r.w (v * 2 ^ m)) :
    (r.loadBits y 0).bits = BitVec.ofInt r.w (v * 2 ^ m + y.toNat) := by
  change insertBits r.bits y 0 = _
  have hdisj : BitVec.ofInt r.w (v * 2 ^ m) &&& BitVec.ofInt r.w (y.toNat : Int) = 0 := by
    apply BitVec.eq_of_getLsbD_eq
    intro i hi
    rw [BitVec.getLsbD_and, ofInt_getLsbD _ _ _ hi, mul_pow_bit]
    by_cases h : m ≤ i
    · rw [BitVec.ofInt_natCast, BitVec.getLsbD_ofNat, Nat.testBit_eq_false_of_lt (lt_of_lt_of_le y.isLt
        (Nat.pow_le_pow_right (by norm_num) (by omega)))]
      simp
    · rw [if_neg h]
      simp
  rw [BitVec.ofInt_add, BitVec.add_eq_or_of_and_eq_zero _ _ hdisj, ← hb]
  apply BitVec.eq_of_getLsbD_eq
  intro i hi
  rw [getLsbD_insertBits, BitVec.getLsbD_or, BitVec.ofInt_natCast, BitVec.getLsbD_ofNat]
  by_cases h : i < n
  · rw [if_pos ⟨Nat.zero_le _, by omega, hi⟩]
    have : r.bits.getLsbD i = false := by
      rw [hb, ofInt_getLsbD _ _ _ hi, mul_pow_bit, if_neg (by omega)]
      simp
    rw [this]
    simp [hi, BitVec.getLsbD]
  · rw [if_neg (by omega), Nat.testBit_eq_false_of_lt (lt_of_lt_of_le y.isLt (Nat.pow_le_pow_right (by norm_num) (by omega)))]
    simp

/-! ### Appending a digit -/

/-- Appending an m-bit digit below a multiple of 2^m does not change whether it fits. -/
theorem inRange_append {W m : Nat} {signed : Bool} {a y : Int} (hm : m < W ∨ signed = false ∧ m ≤ W) (h0 : 0 ≤ y)
    (h1 : y < 2 ^ m) : inRange W signed (a * 2 ^ m + y) = inRange W signed (a * 2 ^ m) := by
  have hp : (0 : Int) < 2 ^ m := by positivity
  have lt_iff : ∀ k : Int, a * 2 ^ m + y < k * 2 ^ m ↔ a < k := fun k => by
    constructor <;> intro h <;> nlinarith
  have le_iff : ∀ k : Int, k * 2 ^ m ≤ a * 2 ^ m + y ↔ k ≤ a := fun k => by
    constructor <;> intro h <;> nlinarith
  have lt_iff' : ∀ k : Int, a * 2 ^ m < k * 2 ^ m ↔ a < k := fun k => by
    constructor <;> intro h <;> nlinarith
  have le_iff' : ∀ k : Int, k * 2 ^ m ≤ a * 2 ^ m ↔ k ≤ a := fun k => by
    constructor <;> intro h <;> nlinarith
  rw [Bool.eq_iff_iff]
  cases signed
  · obtain ⟨k, rfl⟩ := Nat.exists_eq_add_of_le (show m ≤ W by omega)
    have e : (2 : Int) ^ (m + k) = 2 ^ k * 2 ^ m := by ring
    rw [inRange_unsigned, inRange_unsigned, e, lt_iff, lt_iff', show (0 : Int) = 0 * 2 ^ m by ring, le_iff, le_iff']
  · obtain ⟨k, rfl⟩ := Nat.exists_eq_add_of_le (show m + 1 ≤ W by simpa using hm)
    have e : (2 : Int) ^ (m + 1 + k) = 2 * (2 ^ k * 2 ^ m) := by ring
    rw [inRange_signed, inRange_signed, e]
    have := lt_iff (2 ^ k)
    have := le_iff (-2 ^ k)
    have := lt_iff' (2 ^ k)
    have := le_iff' (-2 ^ k)
    rw [neg_mul] at *
    omega

/-- The bits of [seed | y] are those of seed·2^m + y (R105). -/
theorem appended_bits {m W : Nat} {seed : Reg} {y : Int} (hw : W ≤ seed.w + m) (h0 : 0 ≤ y) (h1 : y < 2 ^ m) :
    (appended m W seed y).bits = BitVec.ofInt W (seed.val * 2 ^ m + y) := by
  have hy : ((BitVec.ofInt m y).toNat : Int) = y := by
    rw [BitVec.toNat_ofInt, Int.emod_eq_of_lt h0 (by exact_mod_cast h1)]
    exact Int.toNat_of_nonneg h0
  have hb := Reg.loadBits_low ((Reg.zero W true).loadBits seed.bits m) (m := m) (BitVec.ofInt m y) (le_refl m)
    (Reg.loadBits_zero_bits W true seed hw)
  rw [hy] at hb
  exact hb

/-- [seed | y] is the exact seed·2^m + y, stored with the overflow it has (R105). -/
theorem appended_eq {m W : Nat} {seed : Reg} {y : Int} (hs : seed.signed = true) (hm : m < W) (hw : W ≤ seed.w + m)
    (h0 : 0 ≤ y) (h1 : y < 2 ^ m) : appended m W seed y = (Reg.zero W true).storeExact (seed.val * 2 ^ m + y) := by
  have hb := appended_bits hw h0 h1
  have ho := Reg.loadBits_ovf_inside ((Reg.zero W true).loadBits seed.bits m) (BitVec.ofInt m y) (p := 0)
    (by change 0 + m ≤ W; omega)
  rw [Reg.loadBits_zero_ovf hs hm hw, ← inRange_append (.inl hm) h0 h1] at ho
  calc appended m W seed y = ⟨W, (appended m W seed y).bits, true, (appended m W seed y).ovf, false⟩ := rfl
    _ = _ := by
      rw [show (appended m W seed y).ovf = _ from ho]
      exact congrArg (fun z => (⟨W, z, true, !inRange W true (seed.val * 2 ^ m + y), false⟩ : Reg)) hb

/-- [r | 0], a signed register doubled, is exact in one bit more (R105). -/
theorem doubled_eq {r : Reg} {W : Nat} (hW : W = r.w + 1) :
    (Reg.zero W true).loadBits r.bits 1 = (Reg.zero W true).store (r.val * 2 ^ 1) := by
  have hb := Reg.loadBits_zero_bits W true r (p := 1) hW.le
  have ho := Reg.loadBits_ovf_inside (Reg.zero W true) r.bits (p := 1) (by change 1 + r.w ≤ W; omega)
  calc (Reg.zero W true).loadBits r.bits 1 = ⟨W, ((Reg.zero W true).loadBits r.bits 1).bits, true,
        ((Reg.zero W true).loadBits r.bits 1).ovf, false⟩ := rfl
    _ = _ := by
      rw [ho]
      exact congrArg (fun z => (⟨W, z, true, false, false⟩ : Reg)) hb

/-- [r | 1], the doubled shadow root plus one, is exact in one bit more (R105). -/
theorem doubledShadow_eq {r : Reg} {W : Nat} (hW : W = r.w + 1) :
    ((Reg.zero W true).loadBits r.bits 1).loadBits (1 : BitVec 1) 0 = (Reg.zero W true).store (r.val * 2 ^ 1 + 1) := by
  rw [doubled_eq hW]
  have hb := Reg.loadBits_low ((Reg.zero W true).store (r.val * 2 ^ 1)) (1 : BitVec 1) (le_refl 1) rfl
  have ho := Reg.loadBits_ovf_inside ((Reg.zero W true).store (r.val * 2 ^ 1)) (1 : BitVec 1) (p := 0)
    (by change 0 + 1 ≤ W; omega)
  calc _ = (⟨W, (((Reg.zero W true).store (r.val * 2 ^ 1)).loadBits (1 : BitVec 1) 0).bits, true,
        (((Reg.zero W true).store (r.val * 2 ^ 1)).loadBits (1 : BitVec 1) 0).ovf, false⟩ : Reg) := rfl
    _ = _ := by
      rw [ho]
      exact congrArg (fun z => (⟨W, z, true, false, false⟩ : Reg)) hb

/-- Writing an exact temporary back into its register of the same width is an exact store (R105). -/
theorem stored_writeBack {x : Reg} (v : Int) (hs : x.signed = true) (hw : 1 ≤ x.w) :
    Stored x v (x.writeBack ((Reg.zero x.w true).storeExact v)) := by
  refine ⟨by simp [Reg.writeBack], ?_⟩
  rw [range_iff hw, hs]
  simp [Reg.writeBack, Reg.fits]

/-- `LSL(ROOT, m)` and the digit below: the exact ROOT·2^m + t, stored (R96). -/
theorem stored_appendRoot {root : Reg} {m t : Nat} (hu : root.signed = false) (hm : m ≤ root.w) (hw : 1 ≤ root.w)
    (ht : t < 2 ^ m) : Stored root (root.val * 2 ^ m + t) ((root.lsl m).loadBits (BitVec.ofNat m t) 0) := by
  have hy : (BitVec.ofNat m t).toNat = t := by rw [BitVec.toNat_ofNat, Nat.mod_eq_of_lt ht]
  have hb := Reg.loadBits_low (root.lsl m) (m := m) (v := root.val) (BitVec.ofNat m t) (le_refl _)
    (by rw [Reg.lsl_eq]; rfl)
  have ho := Reg.loadBits_ovf_inside (root.lsl m) (BitVec.ofNat m t) (p := 0) (by change 0 + m ≤ root.w; omega)
  rw [hy] at hb
  refine ⟨?_, ?_⟩
  · exact congrArg (fun z => (⟨root.w, z, root.signed, ((root.lsl m).loadBits (BitVec.ofNat m t) 0).ovf, root.unf⟩ : Reg)) hb
  · rw [ho, Reg.lsl_eq, Reg.storeExact_ovf, Reg.fits, range_iff hw, hu,
      inRange_append (.inr ⟨rfl, hm⟩) (by positivity) (by exact_mod_cast ht)]
    simp

/-! ### The terms of the recurrence -/

/-- A product whose register holds it is exact (R82). -/
theorem Reg.val_mulInto (o : Bool) {r a b : Reg} (h : r.fits (a.val * b.val) = true) :
    (Reg.mulInto o r a b).val = a.val * b.val := by
  unfold Reg.mulInto Reg.storeExact
  simp only [Reg.val_setOvf]
  exact Reg.val_store h

/-- A register with the bits of a number it can hold has that value. -/
theorem Reg.val_of_bits {r : Reg} {v : Int} (hb : r.bits = BitVec.ofInt r.w v) (h : r.fits v = true) : r.val = v := by
  have : r.val = (r.store v).val := by
    unfold Reg.store
    rw [← hb]
  rw [this, Reg.val_store h]

/-- A digit below 2^m in an m-bit register. -/
theorem val_storeDigit {m t : Nat} (ht : t < 2 ^ m) : ((Reg.zero m false).store t).val = t :=
  Reg.val_store (inRange_unsigned.2 ⟨by positivity, by change (t : Int) < 2 ^ m; exact_mod_cast ht⟩)

/-- A product of an m-bit digit and an unsigned register fits in m bits more. -/
theorem digit_mul_fits {m t : Nat} {r : Reg} (hu : r.signed = false) (ht : t < 2 ^ m) :
    inRange (r.w + m) false (t * r.val) = true := by
  have h1 := r.val_bounds.2
  have h0 : 0 ≤ r.val := by
    rw [Reg.val_unsigned hu]
    positivity
  have ht' : (t : Int) < 2 ^ m := by exact_mod_cast ht
  refine inRange_unsigned.2 ⟨by positivity, ?_⟩
  rw [pow_add, mul_comm ((2 : Int) ^ r.w)]
  calc (t : Int) * r.val ≤ t * 2 ^ r.w := mul_le_mul_of_nonneg_left h1.le (by positivity)
    _ < 2 ^ m * 2 ^ r.w := mul_lt_mul_of_pos_right ht' (by positivity)

/-- PP is exactly b·MC (R90). -/
theorem partialProduct_val {c : Config} {e : Engine} {i : Nat} {mc : Reg} (hI : 1 ≤ e.total)
    (hw : mc.w = e.wA + c.m * (e.total - 1)) (hu : mc.signed = false) (hd : ∀ x ∈ e.bd.digits, x < 2 ^ c.m) :
    (e.partialProduct c i mc).val = e.multiplierDigit c i * mc.val := by
  have ht := Engine.multiplierDigit_lt hd i
  have hfit := digit_mul_fits (r := mc) hu ht
  obtain ⟨k, hk⟩ := Nat.exists_eq_add_of_le hI
  have hwidth : mc.w + c.m = e.wA + c.m * e.total := by
    rw [hw, hk, Nat.add_sub_cancel_left]
    ring
  rw [hwidth] at hfit
  unfold Engine.partialProduct
  rw [Reg.val_mulInto _ (by rw [val_storeDigit ht]; exact hfit), val_storeDigit ht]

/-- UT is 2·ROOT·r + t as far as ROOT·r is held by ROOT's width (R96). -/
theorem rootTerm_val {c : Config} {total t : Nat} {root : Reg} (hw : root.w = c.m * total) (hI : 1 ≤ total)
    (ht : t < 2 ^ c.m) : (rootTerm c total t root).val = 2 * (root.val * 2 ^ c.m % 2 ^ (c.m * total)) + t := by
  have hy : (BitVec.ofNat c.m t).toNat = t := by rw [BitVec.toNat_ofNat, Nat.mod_eq_of_lt ht]
  have hb : (rootTerm c total t root).bits = BitVec.ofInt (rootTerm c total t root).w (root.val * 2 * 2 ^ c.m + t) := by
    have h0 := Reg.loadBits_zero_bits (c.m * total + 1) false root (p := c.m + 1) (by omega)
    rw [show root.val * 2 ^ (c.m + 1) = root.val * 2 * 2 ^ c.m by ring] at h0
    have := Reg.loadBits_low _ (BitVec.ofNat c.m t) (le_refl c.m) h0
    rw [hy] at this
    exact this
  obtain ⟨k, hk⟩ := Nat.exists_eq_add_of_le (Nat.le_mul_of_pos_right c.m hI)
  have hr : root.val * 2 ^ c.m % 2 ^ (c.m * total) = root.val % 2 ^ k * 2 ^ c.m := by
    rw [hk, pow_add, mul_comm root.val, Int.mul_emod_mul_of_pos _ _ (by positivity), mul_comm]
  have hlt : root.val % 2 ^ k < 2 ^ k := Int.emod_lt_of_pos _ (by positivity)
  have hge : 0 ≤ root.val % 2 ^ k := Int.emod_nonneg _ (by positivity)
  have ht' : (t : Int) < 2 ^ c.m := by exact_mod_cast ht
  have hp : (0 : Int) < 2 ^ c.m := by positivity
  have hmul : (root.val % 2 ^ k + 1) * 2 ^ c.m ≤ 2 ^ k * 2 ^ c.m := mul_le_mul_of_nonneg_right hlt hp.le
  have hle : 0 ≤ root.val % 2 ^ k * 2 ^ c.m := by positivity
  have hW : (2 : Int) ^ (c.m * total + 1) = 2 * (2 ^ k * 2 ^ c.m) := by
    rw [hk]
    ring
  rw [hr]
  refine Reg.val_of_bits ?_ ?_
  · rw [hb]
    apply BitVec.eq_of_toInt_eq
    rw [BitVec.toInt_ofInt, BitVec.toInt_ofInt]
    change Int.bmod _ (2 ^ (c.m * total + 1)) = Int.bmod _ (2 ^ (c.m * total + 1))
    rw [Int.bmod_eq_bmod_iff_bmod_sub_eq_zero]
    apply Int.bmod_eq_zero_of_dvd
    have h2 := Int.emod_add_mul_ediv root.val (2 ^ k)
    refine ⟨root.val / 2 ^ k, ?_⟩
    push_cast
    rw [hW]
    generalize root.val / 2 ^ k = a at *
    generalize root.val % 2 ^ k = b at *
    rw [← h2]
    ring
  · refine inRange_unsigned.2 ⟨by omega, ?_⟩
    change _ < (2 : Int) ^ (c.m * total + 1)
    rw [hW]
    linarith

/-- LQT is exactly t·UT (R96). -/
theorem linearQuadratic_val {c : Config} {total t : Nat} {root : Reg} (hw : root.w = c.m * total) (hI : 1 ≤ total)
    (ht : t < 2 ^ c.m) : (linearQuadratic c total t root).val =
      t * (2 * (root.val * 2 ^ c.m % 2 ^ (c.m * total)) + t) := by
  have hfit := digit_mul_fits (r := rootTerm c total t root) rfl ht
  unfold linearQuadratic
  rw [Reg.val_mulInto _ (by
    rw [val_storeDigit ht]
    change inRange (c.m * total + c.m + 1) false _ = true
    rw [show c.m * total + c.m + 1 = (rootTerm c total t root).w + c.m by change _ = c.m * total + 1 + c.m; ring]
    exact hfit), val_storeDigit ht, rootTerm_val hw hI ht]

/-- LQ is exactly x·U for every digit |x| < r (R99). -/
theorem practicalQuadratic_val {c : Config} {total : Nat} {p : Practical} {x : Int} (h1 : -(2 ^ c.m : Int) < x)
    (h2 : x < 2 ^ c.m) : (practicalQuadratic c total p x).val = x * (doubledTerm c total p x).val := by
  have hx : ((Reg.zero (c.m + 1) true).store x).val = x := by
    refine Reg.val_store (inRange_signed.2 ?_)
    change -(2 ^ (c.m + 1) : Int) ≤ 2 * x ∧ 2 * x < 2 ^ (c.m + 1)
    rw [pow_succ]
    omega
  unfold practicalQuadratic
  rw [Reg.val_mulInto _ ?_, hx]
  rw [hx]
  have hU := (doubledTerm c total p x).fits_val
  unfold Reg.fits at hU
  rw [show (doubledTerm c total p x).signed = true by unfold doubledTerm; split <;> rfl,
    show (doubledTerm c total p x).w = c.m * total + 3 by unfold doubledTerm; split <;> rfl, inRange_signed] at hU
  refine inRange_signed.2 ?_
  change -(2 ^ (c.m * total + c.m + 4) : Int) ≤ _ ∧ _ < (2 : Int) ^ (c.m * total + c.m + 4)
  have e : (2 : Int) ^ (c.m * total + c.m + 4) = 2 * (2 ^ c.m * 2 ^ (c.m * total + 3)) := by ring
  rw [e]
  generalize (doubledTerm c total p x).val = u at *
  generalize (2 : Int) ^ (c.m * total + 3) = a at *
  have hxm : |x| ≤ 2 ^ c.m := abs_le.2 ⟨by omega, by omega⟩
  have hua : |2 * u| ≤ a := abs_le.2 ⟨by omega, by omega⟩
  have hmul := mul_le_mul hxm hua (abs_nonneg _) (by positivity)
  rw [← abs_mul] at hmul
  have hb := abs_le.1 hmul
  have ha : 0 < a := by omega
  have hpos : 0 < 2 ^ c.m * a := by positivity
  constructor <;> nlinarith

end Sys2Proof.Machine
end

