-- ==== Sys2Proof/Tests/Slice0.lean ====
section
/-! SUPPORT. The model's own tests. Expected results are those of the spec: the rules' examples, the worked encodings of
R60, and the vectors V<n> and traces of 95_test_vectors.md, named in each comment. The last sections show, for every
statement of Certificates/Slice0/Obligations.lean that has hypotheses, concrete inputs that meet them, clause by
clause. -/

namespace Sys2Proof.Tests

set_option Elab.async false

open Sys2Proof Sys2Proof.Machine

/-! ### Small states and what is read from an answer -/

/-- The reset state with registers placed in slots. -/
def place (l : List (Slot × Reg)) : State := l.foldl (fun s p => s.setReg p.1 (some p.2)) State.reset

/-- One step with these words on the host's channel. -/
def send (ws : List Word) (s : State) : Answer := step { s with input := ws.map .word }

/-- The next state, if the answer is one. -/
def after : Answer → Option State
  | .next t => some t
  | .fault _ => none
  | .refused _ => none

/-- The last response after a step. -/
def lastResponse (a : Answer) : Option Response := (after a).bind fun t => t.responses.getLast?

/-- The register in a slot after a step. -/
def regAfter (a : Answer) (i : Slot) : Option Reg := (after a).bind fun t => t.reg i

/-- A CSR after a step; all ones if there is no next state. -/
def csrAfter (c : Csr) (a : Answer) : Word := ((after a).map fun t => t.csr c).getD (BitVec.allOnes 64)

/-- The last response and FSR after a step. -/
def faultAfter (a : Answer) : Option Response × Word := (lastResponse a, csrAfter .fsr a)

/-- An engine register after a step. -/
def engineAfter (sel : EngineSel) (a : Answer) : Option Reg := (after a).bind fun t => t.engine.register sel

/-- The operands of parts 3.1 and 3.2: A = 700², B = 900², S = 700·900, in 20-bit unsigned registers. -/
def opA : Reg := ⟨20, 490000, false, false, false⟩
def opB : Reg := ⟨20, 810000, false, false, false⟩
def opS : Reg := ⟨20, 630000, false, false, false⟩
def operands : List (Slot × Reg) := [(3, opA), (4, opB), (5, opS)]

/-- An engine started on those operands. -/
def started (c : Config) (mode : EngineMode) : Engine := startEngine c mode opA opB opS

/-- The state of such a run after `i` iterations, with the engine registers `f` gives it. -/
def at_ (mode : EngineMode) (i : Nat) (f : Engine → Engine) : State :=
  { place operands with engine := f { started Config.ex1 mode with eiter := i } }

/-- The FAULTED state with this fault recorded. -/
def faulted (c : Cause) (fop : BitVec 6) : State := { State.reset with fsr := some ⟨c, fop⟩ }

/-- The operands placed under another configuration. -/
def under (c : Config) (l : List (Slot × Reg)) : State := { place l with cfg := c }

/-- EX1 with a column base that puts every sample outside the table and a first digit outside the digit set. -/
def badTable : Config := { Config.ex1 with colBase := 100, fdT3 := 0, beta := 2 }

/-! ### Well-formedness refuses what no word encodes (R56) -/

theorem test_wf_refuses_u32 :
    [(Instr.create 0 (2 ^ 32)).wf, (Instr.rdw 0 (2 ^ 32)).wf, (Instr.lsl 0 (2 ^ 32)).wf, (Instr.lsr 0 (2 ^ 32)).wf,
      (Instr.load 0 1 (2 ^ 32)).wf, (Instr.loadc 0 0 (2 ^ 32) 1).wf, (Instr.add 0 1 (2 ^ 32)).wf,
      (Instr.sub 0 1 (2 ^ 32)).wf, (Instr.dread 0 (2 ^ 32)).wf] = List.replicate 9 false := by decide

theorem test_wf_refuses_u8 :
    [(Instr.loadc 0 0 0 256).wf, (Instr.digits 0 0 256).wf] = [false, false] := by decide

theorem test_wf_refuses_s32 :
    [(Instr.extract 0 1 (2 ^ 31)).wf, (Instr.extract 0 1 (-2 ^ 31 - 1)).wf] = [false, false] := by decide

theorem test_wf_refuses_s64 :
    [(Instr.cmpc 0 (2 ^ 63)).wf, (Instr.cmpc 0 (-2 ^ 63 - 1)).wf] = [false, false] := by decide

theorem test_wf_accepts_bounds :
    [(Instr.create 31 (2 ^ 32 - 1)).wf, (Instr.loadc 0 0 0 255).wf, (Instr.extract 0 1 (-2 ^ 31)).wf,
      (Instr.cmpc 0 (2 ^ 63 - 1)).wf] = List.replicate 4 true := by decide

/-! ### Decoding: one word per command, laid out from R52, R53, R56, R57 -/

theorem test_decode_create : decodeWords [0x0420000000000014] = some (.ok (.create 1 20)) := by decide
theorem test_decode_free : decodeWords [0x0BE0000000000000] = some (.ok (.free 31)) := by decide
theorem test_decode_dup : decodeWords [0x0C22000000000000] = some (.ok (.dup 1 2)) := by decide
theorem test_decode_rand : decodeWords [0x10E0000000000000] = some (.ok (.rand 7)) := by decide
theorem test_decode_setsign : decodeWords [0x1420000100000000] = some (.ok (.setsign 1 true)) := by decide
theorem test_decode_rdst : decodeWords [0x1802000000000000] = some (.ok (.rdst 2)) := by decide
theorem test_decode_rdw : decodeWords [0x1C020000FFFFFFFF] = some (.ok (.rdw 2 0xFFFFFFFF)) := by decide
theorem test_decode_abs : decodeWords [0x2022000000000000] = some (.ok (.abs 1 2)) := by decide
theorem test_decode_neg : decodeWords [0x2600000000000000] = some (.ok (.neg 16)) := by decide
theorem test_decode_cmp : decodeWords [0x2801100000000000] = some (.ok (.cmp 1 2)) := by decide
theorem test_decode_cmpc : decodeWords [0x2C03000000000000, 0xFFFFFFFFFFFFFFFB] = some (.ok (.cmpc 3 (-5))) := by decide
theorem test_decode_lsl : decodeWords [0x3020000000000004] = some (.ok (.lsl 1 4)) := by decide
theorem test_decode_lsr : decodeWords [0x3420000000000064] = some (.ok (.lsr 1 100)) := by decide
theorem test_decode_load : decodeWords [0x3822000000000006] = some (.ok (.load 1 2 6)) := by decide
theorem test_decode_loadc : decodeWords [0x3C20000A00000009, 0x2A5] = some (.ok (.loadc 1 0x2A5 9 10)) := by decide
theorem test_decode_extract : decodeWords [0x40410000FFFFFFFD] = some (.ok (.extract 1 2 (-3))) := by decide
theorem test_decode_add : decodeWords [0x4422000000000003] = some (.ok (.add 1 2 3)) := by decide
theorem test_decode_sub : decodeWords [0x4822000000000003] = some (.ok (.sub 1 2 3)) := by decide
theorem test_decode_mul : decodeWords [0x4C61100000000000] = some (.ok (.mul 3 1 2)) := by decide
theorem test_decode_isqrt : decodeWords [0x5041000000000000] = some (.ok (.isqrt 2 1)) := by decide
theorem test_decode_digits : decodeWords [0x6061003F00000000] = some (.ok (.digits 3 1 63)) := by decide
theorem test_decode_dread : decodeWords [0x6440000000000005] = some (.ok (.dread 2 5)) := by decide
theorem test_decode_estart : decodeWords [0x80A3200000000000] = some (.ok (.estart 3 4 5 .basic)) := by decide
theorem test_decode_estep : decodeWords [0x8400000000000000] = some (.ok (.estep)) := by decide
theorem test_decode_erun : decodeWords [0x88A3200100000000] = some (.ok (.erun 3 4 5 .practical)) := by decide
theorem test_decode_eget : decodeWords [0x8CC0000800000000] = some (.ok (.eget 6 .dm)) := by decide
theorem test_decode_rdcsr : decodeWords [0xC000000400000000] = some (.ok (.rdcsr .elastd)) := by decide

/-! One command per family, its header written bit by bit: OP, RD, RA, RB, RSV, IMM8, IMM32 (R52). -/

theorem test_bits_registers : decodeWords [
    (0b000001#6 ++ 0b00001#5 ++ 0b00000#5 ++ 0b00000#5 ++ 0b000#3 ++
      0b00000000#8 ++ 0b00000000000000000000000000010100#32)] =
    some (.ok (.create 1 20)) := by decide

theorem test_bits_arithmetic : decodeWords [
    (0b001010#6 ++ 0b00000#5 ++ 0b00001#5 ++ 0b00010#5 ++ 0b000#3 ++
      0b00000000#8 ++ 0b00000000000000000000000000000000#32)] =
    some (.ok (.cmp 1 2)) := by decide

theorem test_bits_load_extract : decodeWords [
    (0b010000#6 ++ 0b00010#5 ++ 0b00001#5 ++ 0b00000#5 ++ 0b000#3 ++
      0b00000000#8 ++ 0b11111111111111111111111111111101#32)] =
    some (.ok (.extract 1 2 (-3))) := by decide

theorem test_bits_add_mul : decodeWords [
    (0b010011#6 ++ 0b00011#5 ++ 0b00001#5 ++ 0b00010#5 ++ 0b000#3 ++
      0b00000000#8 ++ 0b00000000000000000000000000000000#32)] =
    some (.ok (.mul 3 1 2)) := by decide

theorem test_bits_digit_streams : decodeWords [
    (0b011000#6 ++ 0b00011#5 ++ 0b00001#5 ++ 0b00000#5 ++ 0b000#3 ++
      0b00111111#8 ++ 0b00000000000000000000000000000000#32)] =
    some (.ok (.digits 3 1 63)) := by decide

theorem test_bits_engine : decodeWords [
    (0b100010#6 ++ 0b00101#5 ++ 0b00011#5 ++ 0b00100#5 ++ 0b000#3 ++
      0b00000001#8 ++ 0b00000000000000000000000000000000#32)] =
    some (.ok (.erun 3 4 5 .practical)) := by decide

theorem test_bits_system : decodeWords [
    (0b110000#6 ++ 0b00000#5 ++ 0b00000#5 ++ 0b00000#5 ++ 0b000#3 ++
      0b00000001#8 ++ 0b00000000000000000000000000000000#32)] =
    some (.ok (.rdcsr .esr)) := by decide

/-- A word short of its extension word, and a one-word command with a word too many, are no command (R51). -/
theorem test_decode_length :
    decodeWords [0x2C03000000000000] = none ∧ decodeWords [0x8400000000000000, 0] = none := by decide

/-- The opcode table's numbering: the header is bits 63..0, the extension word bits 127..64. -/
theorem test_decodeTableWord :
    decodeTableWord 64 0x0420000000000014 = some (.create 1 20) ∧
      decodeTableWord 128 (0x2A5 * 2 ^ 64 + 0x3C20000A00000000) = some (.loadc 1 0x2A5 0 10) ∧
      decodeTableWord 64 0x0000000000000000 = none := by decide

/-- A word placed where the next step takes it runs as the first command after reset: CREATE (R61), and LOADC into a
free slot (R76). -/
theorem test_withFetchWord :
    regAfter (step (State.reset.withFetchWord 64 0x0420000000000014)) 1 = some ⟨20, 0, false, false, false⟩ ∧
      lastResponse (step (State.reset.withFetchWord 128 (0x2A5 * 2 ^ 64 + 0x3C20000A00000000))) =
        some ⟨.fault, 0x01, 0⟩ := by decide +kernel

/-! ### One command: the vectors of part 2 and the rows of part 3 -/

/-- V1: `CREATE x1, 20`. -/
theorem test_v1_create :
    regAfter (send [0x0420000000000014]
      (place [])) 1 =
      some ⟨20, 0x0, false, false, false⟩ := by
  decide +kernel

/-- V4: `CREATE x1, 1048577`. -/
theorem test_v4_create_limit :
    faultAfter (send [0x0420000000100001]
      (place [])) = (some ⟨.fault, 0x08, 0⟩, 0x10801) := by
  decide +kernel

/-- V5: `FREE x1`. -/
theorem test_v5_free : regAfter (send [0x0820000000000000] (place [(1, ⟨8, 5, false, false, false⟩)])) 1 = none := by
  decide +kernel

/-- V6: `FREE x1`. -/
theorem test_v6_free_null :
    faultAfter (send [0x0820000000000000]
      (place [])) = (some ⟨.fault, 0x01, 0⟩, 0x20101) := by
  decide +kernel

/-- V7: `DUP x2, x1`. -/
theorem test_v7_dup :
    regAfter (send [0x0C41000000000000]
      (place [(1, ⟨8, 0xFE, true, true, false⟩)])) 2 =
      some ⟨8, 0xFE, true, true, false⟩ := by
  decide +kernel

/-- V8: `DUP x1, x1`. -/
theorem test_v8_dup_busy :
    faultAfter (send [0x0C21000000000000]
      (place [(1, ⟨8, 0x1, false, false, false⟩)])) = (some ⟨.fault, 0x06, 0⟩, 0x30601) := by
  decide +kernel

/-- V9: `RAND x1` with the draws 00000, 10000, 11000 (first bit to bit 0); the source's next bit stays. -/
theorem test_v9_rand : let a := send [0x1020000000000000] ({ place [(1, ⟨5, 0, true, false, false⟩)] with
      randomBits := [false, false, false, false, false, true, false, false, false, false, true, true, false, false,
        false, true] });
    regAfter a 1 = some ⟨5, 3, true, false, false⟩ ∧ (after a).map (·.randomBits) = some [true] := by
  decide +kernel

/-- V10: `RAND x1` in a signed 1-bit register: the single-bit rule does not apply. -/
theorem test_v10_rand_width1 : regAfter (send [0x1020000000000000] ({ place [(1, ⟨1, 0, true, false, false⟩)] with
    randomBits := [false, true] })) 1 = some ⟨1, 1, true, false, false⟩ := by
  decide +kernel

/-- V12: `SETSIGN x1, 1`. -/
theorem test_v12_setsign :
    regAfter (send [0x1420000100000000]
      (place [(1, ⟨8, 0x80, false, false, false⟩)])) 1 =
      some ⟨8, 0x80, true, false, false⟩ := by
  decide +kernel

/-- V13: `SETSIGN x1, 2`. -/
theorem test_v13_setsign_field :
    faultAfter (send [0x1420000200000000]
      (place [(1, ⟨8, 0x80, false, false, false⟩)])) = (some ⟨.fault, 0x11, 0⟩, 0x51101) := by
  decide +kernel

/-- V14: `RDST x2`. -/
theorem test_v14_rdst :
    lastResponse (send [0x1802000000000000]
      (place [(1, ⟨20, 0xC0000, true, false, false⟩), (2, ⟨4, 0x0, false, false, true⟩)])) =
      some ⟨.ok, 0, 0x400000004⟩ := by
  decide +kernel

/-- V16: `RDW x1, 1`. -/
theorem test_v16_rdw :
    lastResponse (send [0x1C01000000000001]
      (place [(1, ⟨100, 0x8000000000000000000001234, false, false, false⟩)])) =
      some ⟨.ok, 0, 0x800000000⟩ := by
  decide +kernel

/-- V17: `RDW x1, 2`. -/
theorem test_v17_rdw_beyond :
    lastResponse (send [0x1C01000000000002]
      (place [(1, ⟨100, 0x8000000000000000000001234, false, false, false⟩)])) =
      some ⟨.ok, 0, 0x0⟩ := by
  decide +kernel

/-- V19: `ABS x2, x1`. -/
theorem test_v19_abs :
    regAfter (send [0x2041000000000000]
      (place [(1, ⟨8, 0x80, true, true, false⟩)])) 2 =
      some ⟨8, 0x80, false, false, false⟩ := by
  decide +kernel

/-- V21: `NEG x1`. -/
theorem test_v21_neg :
    regAfter (send [0x2420000000000000]
      (place [(1, ⟨8, 0x80, true, false, false⟩)])) 1 =
      some ⟨8, 0x80, true, true, false⟩ := by
  decide +kernel

/-- V22: `NEG x1`. -/
theorem test_v22_neg_unsigned :
    faultAfter (send [0x2420000000000000]
      (place [(1, ⟨8, 0x5, false, false, false⟩)])) = (some ⟨.fault, 0x04, 0⟩, 0x90401) := by
  decide +kernel

/-- V23: `CMP x1, x2`. -/
theorem test_v23_cmp :
    lastResponse (send [0x2801100000000000]
      (place [(1, ⟨4, 0xF, true, false, false⟩), (2, ⟨4, 0xF, false, false, false⟩)])) =
      some ⟨.ok, 0, 0xFFFFFFFFFFFFFFFF⟩ := by
  decide +kernel

/-- V24: `CMP x1, x2`. -/
theorem test_v24_cmp_widths :
    lastResponse (send [0x2801100000000000]
      (place [(1, ⟨8, 0x7F, false, false, false⟩), (2, ⟨100, 0x7F, false, false, false⟩)])) =
      some ⟨.ok, 0, 0x0⟩ := by
  decide +kernel

/-- V26: `CMPC x1, -1`. -/
theorem test_v26_cmpc :
    lastResponse (send [0x2C01000000000000, 0xFFFFFFFFFFFFFFFF]
      (place [(1, ⟨4, 0xF, true, false, false⟩)])) =
      some ⟨.ok, 0, 0x0⟩ := by
  decide +kernel

/-- V28: `CMPC x1, 0x7FFFFFFFFFFFFFFF`. -/
theorem test_v28_cmpc_max :
    lastResponse (send [0x2C01000000000000, 0x7FFFFFFFFFFFFFFF]
      (place [(1, ⟨100, 0x100000000000000000000, false, false, false⟩)])) =
      some ⟨.ok, 0, 0x1⟩ := by
  decide +kernel

/-- V30: `LSL x1, 1`. -/
theorem test_v30_lsl :
    regAfter (send [0x3020000000000001]
      (place [(1, ⟨8, 0xC0, true, false, false⟩)])) 1 =
      some ⟨8, 0x80, true, false, false⟩ := by
  decide +kernel

/-- V32: `LSL x1, 5`. -/
theorem test_v32_lsl_overflow :
    regAfter (send [0x3020000000000005]
      (place [(1, ⟨8, 0xF, false, false, false⟩)])) 1 =
      some ⟨8, 0xE0, false, true, false⟩ := by
  decide +kernel

/-- V37: `LSR x1, 100`. -/
theorem test_v37_lsr_far :
    regAfter (send [0x3420000000000064]
      (place [(1, ⟨8, 0xFF, true, false, false⟩)])) 1 =
      some ⟨8, 0xFF, true, false, true⟩ := by
  decide +kernel

/-- V38: `LSR x1, 1`. -/
theorem test_v38_lsr :
    regAfter (send [0x3420000000000001]
      (place [(1, ⟨8, 0xFB, true, false, false⟩)])) 1 =
      some ⟨8, 0xFD, true, false, true⟩ := by
  decide +kernel

/-- V39: `LOAD x1, x2, 6`. -/
theorem test_v39_load :
    regAfter (send [0x3822000000000006]
      (place [(1, ⟨8, 0x0, false, false, false⟩), (2, ⟨4, 0xF, false, false, false⟩)])) 1 =
      some ⟨8, 0xC0, false, true, false⟩ := by
  decide +kernel

/-- V43: `LOAD x1, x2, 20`. -/
theorem test_v43_load_beyond :
    regAfter (send [0x3822000000000014]
      (place [(1, ⟨8, 0x11, false, false, false⟩), (2, ⟨4, 0xA, false, false, false⟩)])) 1 =
      some ⟨8, 0x11, false, true, false⟩ := by
  decide +kernel

/-- V47: `LOADC x1, 0xF, 4, 8`. -/
theorem test_v47_loadc :
    regAfter (send [0x3C20000800000004, 0x000000000000000F]
      (place [(1, ⟨8, 0x0, true, false, false⟩)])) 1 =
      some ⟨8, 0xF0, true, true, false⟩ := by
  decide +kernel

/-- V46: `LOADC x1, 1, 0, 65`. -/
theorem test_v46_loadc_bitcount :
    faultAfter (send [0x3C20004100000000, 0x0000000000000001]
      (place [(1, ⟨8, 0x0, false, false, false⟩)])) = (some ⟨.fault, 0x05, 0⟩, 0xF0501) := by
  decide +kernel

/-- V49: `EXTRACT x1, x2, -2`. -/
theorem test_v49_extract :
    regAfter (send [0x40410000FFFFFFFE]
      (place [(1, ⟨8, 0x96, true, false, false⟩), (2, ⟨6, 0x0, false, false, false⟩)])) 2 =
      some ⟨6, 0x18, false, false, false⟩ := by
  decide +kernel

/-- V52: `EXTRACT x1, x2, 100`. -/
theorem test_v52_extract_far :
    regAfter (send [0x4041000000000064]
      (place [(1, ⟨8, 0x96, true, false, false⟩), (2, ⟨3, 0x0, true, false, false⟩)])) 2 =
      some ⟨3, 0x7, true, false, false⟩ := by
  decide +kernel

/-- V57: `ADD x1, x2, 0`. -/
theorem test_v57_add :
    regAfter (send [0x4422000000000000]
      (place [(1, ⟨8, 0x7F, true, false, false⟩), (2, ⟨1, 0x1, false, false, false⟩)])) 1 =
      some ⟨8, 0x80, true, true, false⟩ := by
  decide +kernel

/-- V59: `ADD x1, x2, 40`. -/
theorem test_v59_add_far :
    regAfter (send [0x4422000000000028]
      (place [(1, ⟨8, 0x5, false, false, false⟩), (2, ⟨4, 0x1, false, false, false⟩)])) 1 =
      some ⟨8, 0x5, false, true, false⟩ := by
  decide +kernel

/-- V60: `SUB x1, x2, 1`. -/
theorem test_v60_sub :
    regAfter (send [0x4822000000000001]
      (place [(1, ⟨8, 0x5, false, false, false⟩), (2, ⟨4, 0x3, false, false, false⟩)])) 1 =
      some ⟨8, 0xFF, false, true, false⟩ := by
  decide +kernel

/-- V61: `SUB x1, x2, 0`. -/
theorem test_v61_sub_min :
    regAfter (send [0x4822000000000000]
      (place [(1, ⟨8, 0x80, true, false, false⟩), (2, ⟨4, 0x1, false, false, false⟩)])) 1 =
      some ⟨8, 0x7F, true, true, false⟩ := by
  decide +kernel

/-- V65: `MUL x3, x1, x2`. -/
theorem test_v65_mul_at_min :
    regAfter (send [0x4C61100000000000]
      (place [(1, ⟨4, 0x8, true, false, false⟩), (2, ⟨4, 0x1, false, false, false⟩), (3, ⟨4, 0x0, true, false, false⟩)])) 3 =
      some ⟨4, 0x8, true, true, false⟩ := by
  decide +kernel

/-- V93: `MUL x3, x1, x3`. -/
theorem test_v93_mul_alias_first :
    faultAfter (send [0x4C61180000000000]
      (place [(1, ⟨4, 0x1, true, false, false⟩), (3, ⟨8, 0x0, false, false, false⟩)])) = (some ⟨.fault, 0x07, 0⟩, 0x130701) := by
  decide +kernel

/-- V74: `ISQRT x2, x1`. -/
theorem test_v74_isqrt :
    regAfter (send [0x5041000000000000]
      (place [(1, ⟨64, 0xFFFFFFFFFFFFFFFF, false, false, false⟩)])) 2 =
      some ⟨64, 0xFFFFFFFF, false, false, false⟩ := by
  decide +kernel

/-- V72: `ISQRT x2, x1`. -/
theorem test_v72_isqrt_negative :
    faultAfter (send [0x5041000000000000]
      (place [(1, ⟨8, 0xFF, true, false, false⟩)])) = (some ⟨.fault, 0x12, 0⟩, 0x141201) := by
  decide +kernel

/-- V77: `DIGITS ds1, x1, 2`, the magnitude of −5. -/
theorem test_v77_digits : (after (send [0x6021000200000000] (place [(1, ⟨8, 0xFB, true, false, false⟩)]))).map
    (·.stream 1) = some (some ⟨[0, 0, 1, 1]⟩) := by
  decide +kernel

/-- V80: `DIGITS ds4, x1, 1`. -/
theorem test_v80_digits_field :
    faultAfter (send [0x6081000100000000]
      (place [(1, ⟨8, 0x1, false, false, false⟩)])) = (some ⟨.fault, 0x11, 0⟩, 0x181101) := by
  decide +kernel

/-- V82: `DREAD ds0, 3`. -/
theorem test_v82_dread :
    lastResponse (send [0x6400000000000003]
      ((place [(1, ⟨10, 0x2B5, false, false, false⟩)]).setStream 0 ⟨[1, 2, 6, 5]⟩)) =
      some ⟨.ok, 0, 0x6⟩ := by
  decide +kernel

/-- V83: `DREAD ds0, 5`. -/
theorem test_v83_dread_index :
    faultAfter (send [0x6400000000000005]
      ((place [(1, ⟨10, 0x2B5, false, false, false⟩)]).setStream 0 ⟨[1, 2, 6, 5]⟩)) = (some ⟨.fault, 0x13, 0⟩, 0x191301) := by
  decide +kernel

/-- V94 and part 3.1, row 0: `ESTART x3, x4, x5, basic`. -/
theorem test_v94_estart : let a := send [0x80A3200000000000] (place operands);
    (csrAfter .esr a, csrAfter .etotal a, engineAfter .res a) = (1, 12, some ⟨71, 0x166E30, true, false, false⟩) := by
  decide +kernel

/-- V103: `ESTART x3, x4, x5, basic` with a 22-bit B, which has 11 digits. -/
theorem test_v103_estart_digits : csrAfter .fsr (send [0x80A3200000000000] (place [(3, opA), (4, ⟨22, 0xC5C10, false,
    false, false⟩), (5, opS)])) = 0x200E01 := by
  decide +kernel

/-- Part 3.1, row 5: `ESTEP` in the basic run with the values of row 4. -/
theorem test_estep_basic_row5 : let a := send [0x8400000000000000] (at_ .basic 4 (fun e => { e with
      res := some ⟨71, 1038577664, true, false, false⟩, root := some ⟨24, 153, false, false, false⟩,
      mc := some ⟨42, 125440000, false, false, false⟩ }));
    (engineAfter .res a, engineAfter .root a, csrAfter .elastd a) =
      (some ⟨71, 1178009600, true, false, false⟩, some ⟨24, 615, false, false, false⟩, 3) := by
  decide +kernel

/-- Part 3.2, row 5: `ESTEP` in the practical run with the values of row 4: region −16 folds to row 47, and the digit 2
is negated. -/
theorem test_estep_practical_row5 : let a := send [0x8400000000000000] (at_ .practical 4 (fun e => { e with
      resp := some ⟨87, BitVec.ofInt 87 (-8151142400), true, false, false⟩, q := some ⟨29, 10, true, false, false⟩,
      qm := some ⟨29, 9, true, false, false⟩, d := some ⟨30, 20, true, false, false⟩,
      dm := some ⟨30, 19, true, false, false⟩, mc := some ⟨46, 125440000, false, false, false⟩ }));
    (engineAfter .resp a, engineAfter .q a, engineAfter .qm a, csrAfter .elastd a) =
      (some ⟨87, 37085446144, true, false, false⟩, some ⟨29, 38, true, false, false⟩,
        some ⟨29, 37, true, false, false⟩, 0xFFFFFFFFFFFFFFFE) := by
  decide +kernel

/-- V96: `ERUN x3, x4, x5, basic`. -/
theorem test_v96_erun_basic : let a := send [0x88A3200000000000] (place operands);
    (csrAfter .esr a, engineAfter .res a, engineAfter .root a) =
      (0x1A, some ⟨71, 0, true, false, false⟩, some ⟨24, 0x99CF00, false, false, false⟩) := by
  decide +kernel

/-- V97: `ERUN x3, x4, x5, practical`. -/
theorem test_v97_erun_practical : let a := send [0x88A3200100000000] (place operands);
    (csrAfter .esr a, engineAfter .resp a, engineAfter .q a, engineAfter .qm a) =
      (0x19E, some ⟨87, 0, true, false, false⟩, some ⟨29, 0x99CF00, true, false, false⟩,
        some ⟨29, 0x99CEFF, true, false, false⟩) := by
  decide +kernel

/-- R94: `EGET x6, 1` copies ROOT (the register of V98). -/
theorem test_v98_eget : regAfter (send [0x8CC0000100000000] (at_ .basic 11 (fun e => { e with
    root := some ⟨24, 0x99CF00, false, false, false⟩ }))) 6 = some ⟨24, 0x99CF00, false, false, false⟩ := by
  decide +kernel

/-- V99: `EGET x6, 4` in a basic run, which has no RESP. -/
theorem test_v99_eget_null : csrAfter .fsr (send [0x8CC0000400000000] (at_ .basic 11 id)) = 0x230F01 := by
  decide +kernel

/-- V117: `RDCSR FSR` in the FAULTED state executes; V116: CREATE is refused in it. -/
theorem test_v117_rdcsr_faulted :
    (lastResponse (send [0xC000000000000000] (faulted .signRequired 9)),
      lastResponse (send [0x0440000000000008] (faulted .signRequired 9))) =
      (some ⟨.ok, 0, 0x90401⟩, some ⟨.refused, 0, 0⟩) := by
  decide +kernel

/-- V120: `RDCSR ELASTD` after the digit −2. -/
theorem test_v120_rdcsr_elastd : lastResponse (send [0xC000000400000000] (at_ .practical 5 (fun e => { e with
    elastd := -2 }))) = some ⟨.ok, 0, 0xFFFFFFFFFFFFFFFE⟩ := by
  decide +kernel

/-- V85: `(raw word)`. -/
theorem test_v85_illegal :
    faultAfter (send [0xFC00000000000000]
      (place [])) = (some ⟨.fault, 0x10, 0⟩, 0x3F1001) := by
  decide +kernel

/-- V87: `(raw word)`. -/
theorem test_v87_rsv :
    faultAfter (send [0x0420010000000008]
      (place [])) = (some ⟨.fault, 0x11, 0⟩, 0x11101) := by
  decide +kernel

/-- V89: `(raw word)`. -/
theorem test_v89_unused_field :
    faultAfter (send [0x8420000000000000]
      (place [])) = (some ⟨.fault, 0x11, 0⟩, 0x211101) := by
  decide +kernel


/-! ### Checking the invariant of a concrete state -/

/-- `Allocated`, computed. -/
def allocatedCheck (c : Config) (o : Option Reg) (signed : Bool) (width : Option Nat) : Bool :=
  o.any fun r => decide (1 ≤ r.w ∧ r.w ≤ c.maxWidth) && r.signed == signed && width.all fun w => r.w == w

theorem allocatedCheck_sound {c : Config} {o : Option Reg} {signed : Bool} {width : Option Nat}
    (h : allocatedCheck c o signed width = true) : Allocated c o signed width := by
  cases o with
  | none => simp [allocatedCheck] at h
  | some r =>
    simp only [allocatedCheck, Option.any_some, Bool.and_eq_true, decide_eq_true_eq, beq_iff_eq] at h
    refine ⟨r, rfl, h.1.1, h.1.2, ?_⟩
    rintro w rfl
    simpa using h.2

/-- `PracticalOk`, computed. -/
def practicalCheck (c : Config) (e : Engine) : Bool :=
  match e.mode with
  | .basic => decide (e.resp = none ∧ e.q = none ∧ e.qm = none ∧ e.d = none ∧ e.dm = none)
  | .practical =>
    allocatedCheck c e.resp true none && allocatedCheck c e.q true (some (c.m * e.total + 1)) &&
      allocatedCheck c e.qm true (some (c.m * e.total + 1)) && allocatedCheck c e.d true (some (c.m * e.total + 2)) &&
      allocatedCheck c e.dm true (some (c.m * e.total + 2))

/-- `RunOk`, computed. -/
def runCheck (c : Config) (e : Engine) : Bool :=
  decide (1 ≤ c.m ∧ c.m ≤ 32) && decide (e.mode = .practical → c.alpha < 2 ^ c.m ∧ c.beta < 2 ^ c.m) &&
    decide (e.total = c.iterations e.mode) && decide ((e.k : Int) = c.alignment e.total) &&
    decide ((e.active = true ∧ e.done = false ∧ e.eiter < e.total) ∨
      (e.active = false ∧ e.done = true ∧ e.eiter = e.total)) &&
    decide (e.bd.count = c.n) && decide (∀ x ∈ e.bd.digits, x < 2 ^ c.m) && decide (∀ x ∈ e.sd.digits, x < 2 ^ c.m) &&
    allocatedCheck c e.res true none && allocatedCheck c e.root false (some (c.m * e.total)) &&
    allocatedCheck c e.mc false (some (e.wA + c.m * (e.total - 1))) && allocatedCheck c e.sref false none &&
    practicalCheck c e && decide (e.done = false → e.report = {})

theorem runCheck_sound {c : Config} {e : Engine} (h : runCheck c e = true) : RunOk c e := by
  simp only [runCheck, Bool.and_eq_true, decide_eq_true_eq] at h
  obtain ⟨⟨⟨⟨⟨⟨⟨⟨⟨⟨⟨⟨⟨h1, h2⟩, h3⟩, h4⟩, h5⟩, h6⟩, h7⟩, h8⟩, h9⟩, h10⟩, h11⟩, h12⟩, h13⟩, h14⟩ := h
  refine ⟨h1, h2, h3, h4, h5, ⟨h6, h7⟩, h8, allocatedCheck_sound h9, allocatedCheck_sound h10,
    allocatedCheck_sound h11, allocatedCheck_sound h12, ?_, h14⟩
  unfold practicalCheck at h13
  unfold PracticalOk
  revert h13
  cases e.mode <;> intro h13
  · exact of_decide_eq_true h13
  · simp only [Bool.and_eq_true] at h13
    exact ⟨allocatedCheck_sound h13.1.1.1.1, allocatedCheck_sound h13.1.1.1.2, allocatedCheck_sound h13.1.1.2,
      allocatedCheck_sound h13.1.2, allocatedCheck_sound h13.2⟩

/-- The invariant of a state whose buffers are EMPTY, computed. -/
def invCheck (s : State) : Bool :=
  s.cfg.wf && decide (∀ i : Slot, (s.reg i).all (fun r => decide (1 ≤ r.w ∧ r.w ≤ s.cfg.maxWidth)) = true) &&
    decide (∀ k : StreamNo, s.stream k = none) && (decide (s.engine = Engine.reset) || runCheck s.cfg s.engine)

theorem invCheck_sound {s : State} (h : invCheck s = true) : s.Inv := by
  simp only [invCheck, Bool.and_eq_true, decide_eq_true_eq, Bool.or_eq_true] at h
  obtain ⟨⟨⟨h1, h2⟩, h3⟩, h4⟩ := h
  refine ⟨h1, ?_, ?_, h4.imp id runCheck_sound⟩
  · intro i r hr
    have := h2 i
    rw [hr] at this
    exact (of_decide_eq_true this : 1 ≤ r.w ∧ r.w ≤ s.cfg.maxWidth)
  · intro k l hl
    rw [h3 k] at hl
    cases hl

/-! ### Witnesses: encoding and channels -/

theorem witness_EncodeThenDecode :
    (Instr.cmpc 31 (-2 ^ 63)).wf = true ∧ (Instr.loadc 31 0 (2 ^ 32 - 1) 255).wf = true ∧
      (Instr.extract 0 31 (2 ^ 31 - 1)).wf = true ∧ Instr.estep.wf = true := by decide

theorem witness_DecodeThenEncode :
    decode 0x8400000000000000 5 = .ok .estep ∧ decode 0x2C03000000000000 0xFFFFFFFFFFFFFFFB = .ok (.cmpc 3 (-5)) := by
  decide

/-- Words with an illegal OP, RSV not zero, an unused field not zero, and each field value just out of range. -/
theorem witness_IllegalWordsFault :
    State.reset.fsr = none ∧ (∀ o : Opcode, o.code ≠ (Header.unpack 0).op) ∧
      (∀ o : Opcode, o.code ≠ (Header.unpack 0x5400000000000000).op) ∧
      (Header.unpack 0x0420010000000008).rsv ≠ 0 ∧ Opcode.create.code = (Header.unpack 0x0420010000000008).op ∧
      (Header.unpack 0x0820000000000001).unusedZero Opcode.free.uses = false ∧
      Opcode.free.code = (Header.unpack 0x0820000000000001).op ∧
      1 < (Header.unpack 0x1420000200000000).imm8.toNat ∧ Opcode.setsign.code = (Header.unpack 0x1420000200000000).op ∧
      3 < (Header.unpack 0x6081000100000000).rd.toNat ∧ Opcode.digits.code = (Header.unpack 0x6081000100000000).op ∧
      1 < (Header.unpack 0x80A3200200000000).imm8.toNat ∧ Opcode.estart.code = (Header.unpack 0x80A3200200000000).op ∧
      8 < (Header.unpack 0x8C20000900000000).imm8.toNat ∧ Opcode.eget.code = (Header.unpack 0x8C20000900000000).op ∧
      4 < (Header.unpack 0xC000000500000000).imm8.toNat ∧
      Opcode.rdcsr.code = (Header.unpack 0xC000000500000000).op := by
  refine ⟨rfl, fun o => ?_, fun o => ?_, by decide⟩ <;> cases o <;> decide

/-- A one-word and a two-word command at the front of the channel, and both two-word OPs. -/
theorem witness_StepRunsDecodedInstruction :
    (Header.unpack 0x8400000000000000).op ≠ 0x0B ∧ (Header.unpack 0x8400000000000000).op ≠ 0x0F ∧ decode 0x8400000000000000 0 = .ok .estep ∧
      (Header.unpack 0x2C03000000000000).op = 0x0B ∧ (Header.unpack 0x3C20000A00000000).op = 0x0F ∧
      decode 0x2C03000000000000 0xFFFFFFFFFFFFFFFB = .ok (.cmpc 3 (-5)) ∧
      ({ State.reset with input := [.word 0x2C03000000000000, .word 0xFFFFFFFFFFFFFFFB, .reset] } : State).input =
        .word 0x2C03000000000000 :: .word 0xFFFFFFFFFFFFFFFB :: [.reset] := by decide

theorem witness_CoreWaitsForCommand :
    State.reset.input = [] ∧ twoWords (Header.unpack 0x3C20000A00000000).op = true ∧
      ({ State.reset with input := [.word 0x3C20000A00000000, .reset] } : State).input =
        .word 0x3C20000A00000000 :: .reset :: [] := by decide

/-- A reset request in the FAULTED state with a run active. -/
theorem witness_HostResetClearsCore :
    ({ at_ .practical 4 id with fsr := some ⟨.nullReg, 1⟩, input := [.reset] } : State).input = .reset :: [] ∧
      (at_ .practical 4 id).engine.active = true := by decide +kernel

/-- A refused command, and a reset, in the FAULTED state. -/
theorem witness_OnlyResetLeavesFaulted :
    (faulted .nullReg 1).fsr = some ⟨.nullReg, 1⟩ ∧
      (∃ t, step { faulted .nullReg 1 with input := [.word 0x8400000000000000] } = .next t) ∧
      ∃ t, step { faulted .nullReg 1 with input := [.reset] } = .next t :=
  ⟨rfl, ⟨_, rfl⟩, ⟨_, rfl⟩⟩

theorem witness_FaultedRefusesAllButRdcsr :
    (faulted .nullReg 1).fsr = some ⟨.nullReg, 1⟩ ∧ (∀ c, Instr.estep ≠ .rdcsr c) ∧ decode 0 0 = .error .illegalOpcode ∧
      decode 0xC000000700000000 0 = .error .badField := by
  exact ⟨rfl, fun c h => Instr.noConfusion h, by decide, by decide⟩

/-- A faulting FREE, and an ERUN that faults in iteration 3 with two iterations committed. -/
theorem witness_FaultHasNoOtherEffect :
    (∃ t, exec (.free 0) State.reset = .next t ∧ t.fsr ≠ none) ∧
      (after (exec (.erun 3 4 5 .practical) (under badTable operands))).map (fun t => (t.fsr, t.engine.eiter)) =
        some (some ⟨.digitRange, 0x22⟩, 2) := by
  exact ⟨⟨_, rfl, by decide⟩, by decide +kernel⟩

/-- A command that completes, one that faults and one that is refused. -/
theorem witness_OneResponsePerCommand :
    (∃ t, runCommand 0x0420000000000014 0 State.reset = .next t) ∧ (∃ t, runCommand 0 0 State.reset = .next t) ∧
      (∃ t, runCommand 0 0 (faulted .nullReg 1) = .next t) ∧ decode 0x0420000000000014 0 = .ok (.create 1 20) ∧
      Opcode.create ∉ [Opcode.rdst, .rdw, .cmp, .cmpc, .dread, .rdcsr] :=
  ⟨⟨_, rfl⟩, ⟨_, rfl⟩, ⟨_, rfl⟩, by decide, by decide⟩

/-- A command that completes, and one in the FAULTED state. -/
theorem witness_CommandFrame :
    (∃ t, exec (.create 1 20) State.reset = .next t) ∧ (∃ t, exec .estep (faulted .nullReg 1) = .next t) ∧
      destination (.create 1 20) ≠ some 2 ∧ destinationStream (.create 1 20) ≠ some 0 ∧
      drivesEngine (.create 1 20) = false ∧ ∀ rd, Instr.create 1 20 ≠ .rand rd :=
  ⟨⟨_, rfl⟩, ⟨_, rfl⟩, by decide, by decide, rfl, fun _ h => by cases h⟩

/-- A register with both flags set, and commands that write it, change its mode, set its unf and destroy it. -/
theorem witness_RegisterFlagsAreSticky :
    let r : Reg := ⟨8, 0xFF, true, true, true⟩
    (place [(1, r)]).reg 1 = some r ∧ (∃ t, exec (.lsl 1 1) (place [(1, r)]) = .next t) ∧
      (∃ t, exec (.lsr 1 1) (place [(1, r)]) = .next t) ∧ (∃ t, exec (.setsign 1 false) (place [(1, r)]) = .next t) ∧
      ∃ t, exec (.free 1) (place [(1, r)]) = .next t :=
  ⟨by decide, ⟨_, rfl⟩, ⟨_, rfl⟩, ⟨_, rfl⟩, ⟨_, rfl⟩⟩

theorem witness_ConfigurationIsStatic :
    ∃ t, step { State.reset with input := [.reset] } = .next t := ⟨_, rfl⟩

theorem witness_InvariantHoldsAtReset : Config.ex1.wf = true := by decide

/-- The invariant in the middle of a practical run, and a step from there. -/
theorem witness_StepKeepsInvariant :
    ({ at_ .practical 4 id with input := [.word 0x8400000000000000] } : State).Inv ∧
      ∃ t, step { at_ .practical 4 id with input := [.word 0x8400000000000000] } = .next t :=
  ⟨invCheck_sound (by decide +kernel), ⟨_, rfl⟩⟩

/-! ### Witnesses: kernel commands -/

/-- A busy slot, a free one, and the widths 0, 1, MAX_WIDTH and MAX_WIDTH + 1. -/
theorem witness_CreateMakesZeroRegister :
    let s := place [(1, opA)]
    s.fsr = none ∧ s.reg 1 = some opA ∧ s.reg 0 = none ∧ 1 ≤ s.cfg.maxWidth ∧ 2 ^ 20 ≤ s.cfg.maxWidth ∧
      s.cfg.maxWidth < 2 ^ 20 + 1 := by decide

theorem witness_FreeDestroysRegister :
    let s := place [(1, opA)]
    s.fsr = none ∧ s.reg 0 = none ∧ s.reg 1 = some opA := by decide

theorem witness_DupCopiesRegister :
    let s := place [(1, opA), (2, opB)]
    s.fsr = none ∧ s.reg 0 = none ∧ s.reg 1 = some opA ∧ s.reg 2 = some opB := by decide

/-- V9's draws in a signed 5-bit register: draws 0 and 1 are rejected and draw 2 accepted; a single bit accepted by an
unsigned register (V11); a signed width of 1 (V10); a draw that begins in the listed bits and ends past them. -/
theorem witness_RandStoresFirstAcceptedDraw :
    let s := { place [(1, ⟨5, 0, true, false, false⟩)] with
      randomBits := [false, false, false, false, false, true, false, false, false, false, true, true, false, false,
        false, true] }
    let u := { place [(1, ⟨4, 0, false, false, false⟩)] with randomBits := [false, false, false, true] }
    let v := { place [(1, ⟨1, 0, true, false, false⟩)] with randomBits := [true] }
    let p := { place [(1, ⟨2, 0, false, false, false⟩)] with randomBits := [true] }
    (s.fsr = none ∧ s.reg 0 = none ∧ s.reg 1 = some ⟨5, 0, true, false, false⟩ ∧ 2 * 5 ≤ s.randomBits.length ∧
      s.randomBits[10]? = some true ∧ (∀ k, k < 5 → s.sourceBit (0 * 5 + k) = false) ∧
      (List.range 5).countP (fun k => s.sourceBit (1 * 5 + k)) = 1 ∧ s.sourceBit (2 * 5 + 0) = true ∧
      (List.range 5).countP (fun k => s.sourceBit (2 * 5 + k)) ≠ 1) ∧
    (u.reg 1 = some ⟨4, 0, false, false, false⟩ ∧ u.sourceBit (0 * 4 + 3) = true) ∧
    (v.reg 1 = some ⟨1, 0, true, false, false⟩ ∧ v.sourceBit (0 * 1 + 0) = true ∧ ¬2 ≤ 1) ∧
    p.reg 1 = some ⟨2, 0, false, false, false⟩ ∧ 0 * 2 ≤ p.randomBits.length ∧ p.sourceBit (0 * 2 + 0) = true := by
  decide

/-- R36, R64: with one listed bit and a 4-bit register the draw begins with that bit, so bit 0 is 1; the draw is accepted,
whatever the bits past the list are. -/
theorem test_rand_listed_bit_first :
    let s := { place [(1, ⟨4, 0, false, false, false⟩)] with randomBits := [true] }
    ∃ r, regAfter (exec (.rand 1) s) 1 = some r ∧ r.w = 4 ∧ r.bits.getLsbD 0 = true := by
  intro s
  have h0 : accepted false ((s.skipBits (0 * 4)).drawPattern 4) = true :=
    (State.accepted_drawPattern _ _ _).2 ⟨⟨0, by decide, by decide⟩, by simp⟩
  rcases s.randomPattern_cases 4 false with ⟨n, he, _, hr⟩ | ⟨_, hr⟩
  · cases n with
    | zero =>
      have hreg : s.reg 1 = some ⟨4, 0, false, false, false⟩ := by decide
      refine ⟨⟨4, (s.skipBits (0 * 4)).drawPattern 4, false, false, false⟩, ?_, rfl, ?_⟩
      · simp only [exec, execRand, State.unlessFaulted_running (show s.fsr = none from rfl), hreg, he, regAfter, after,
          Option.bind_some, State.reg_respond, State.reg_setReg_same]
      · exact (State.getLsbD_drawPattern _ (by decide)).trans (by decide)
    | succ n => exact absurd h0 (by rw [hr 0 (Nat.succ_pos n)]; decide)
  · exact absurd h0 (by rw [hr 0 (Nat.zero_le _)]; decide)

theorem witness_RandPatternIsNeverDegenerate :
    let s := { place [(1, ⟨5, 0, true, false, false⟩)] with randomBits := [true, true, false, false, false] }
    s.fsr = none ∧ s.reg 1 = some ⟨5, 0, true, false, false⟩ ∧ (after (exec (.rand 1) s)).isSome = true := by decide

theorem witness_SetsignChangesModeOnly :
    let s := place [(1, opA)]
    s.fsr = none ∧ s.reg 0 = none ∧ s.reg 1 = some opA ∧ (Header.unpack 0x1420000200000000).op = 0x05 ∧
      1 < (Header.unpack 0x1420000200000000).imm8.toNat := by decide

theorem witness_RdstReportsStatus :
    let s := place [(1, opA)]
    s.fsr = none ∧ s.reg 0 = none ∧ s.reg 1 = some opA ∧ opA.w < 2 ^ 32 := by decide

theorem witness_RdwReadsRawWord :
    let s := place [(1, opA)]
    s.fsr = none ∧ s.reg 0 = none ∧ s.reg 1 = some opA := by decide

theorem witness_AbsGivesMagnitude :
    let s := place [(1, ⟨8, 0x80, true, true, false⟩), (2, opB)]
    s.fsr = none ∧ s.reg 0 = none ∧ s.reg 1 = some ⟨8, 0x80, true, true, false⟩ ∧ s.reg 2 = some opB := by decide

/-- An unsigned register, and signed ones at −2^(w−1) and elsewhere. -/
theorem witness_NegNegatesInPlace :
    let r : Reg := ⟨8, 0x80, true, false, false⟩
    let s := place [(1, r), (2, opA), (3, ⟨8, 0x05, true, false, false⟩)]
    s.fsr = none ∧ s.reg 0 = none ∧ s.reg 1 = some r ∧ 2 * r.val = -(2 ^ 8) ∧ s.reg 2 = some opA ∧
      opA.signed = false ∧ s.reg 3 = some ⟨8, 0x05, true, false, false⟩ := by decide

/-- Less, equal and greater, over different widths and modes; and each operand NULL. -/
theorem witness_CmpComparesValues :
    let a : Reg := ⟨4, 0xF, true, false, false⟩
    let b : Reg := ⟨4, 0xF, false, false, false⟩
    let c : Reg := ⟨100, 0xF, false, false, false⟩
    let s := place [(1, a), (2, b), (3, c)]
    s.fsr = none ∧ s.reg 0 = none ∧ s.reg 1 = some a ∧ s.reg 2 = some b ∧ s.reg 3 = some c ∧ a.val < b.val ∧
      b.val = c.val := by decide

theorem witness_CmpcComparesConstant :
    let a : Reg := ⟨4, 0xF, true, false, false⟩
    let s := place [(1, a)]
    s.fsr = none ∧ s.reg 0 = none ∧ s.reg 1 = some a ∧ a.val < 0 ∧ a.val = -1 ∧ (-2 ^ 63 : Int) < a.val := by decide

theorem witness_LslShiftsLeft :
    let s := place [(1, opA)]
    s.fsr = none ∧ s.reg 0 = none ∧ s.reg 1 = some opA := by decide

theorem witness_LsrShiftsRight :
    let s := place [(1, ⟨8, 0xFB, true, false, false⟩)]
    s.fsr = none ∧ s.reg 0 = none ∧ s.reg 1 = some ⟨8, 0xFB, true, false, false⟩ := by decide

/-- V31: the top four bits of an 8-bit register are zero; and k = 0. -/
theorem witness_ShiftInverse :
    let r : Reg := ⟨8, 0x0F, false, false, false⟩
    let s := place [(1, r)]
    s.fsr = none ∧ s.reg 1 = some r ∧ r.signed = false ∧ r.bits.toNat * 2 ^ 4 < 2 ^ r.w ∧
      r.bits.toNat * 2 ^ 0 < 2 ^ r.w := by decide

/-- A pair of equal modes, a pair of different modes, one slot twice, and a NULL slot. -/
theorem witness_LoadCopiesBits :
    let g : Reg := ⟨8, 0, true, false, false⟩
    let s := place [(1, opA), (2, opB), (3, g)]
    s.fsr = none ∧ s.reg 0 = none ∧ s.reg 1 = some opA ∧ s.reg 2 = some opB ∧ opA.signed = opB.signed ∧
      s.reg 3 = some g ∧ opA.signed ≠ g.signed ∧ (1 : Slot) ≠ 2 := by decide

/-- Bit counts 0, 1, 64 and 65. -/
theorem witness_LoadcCopiesLiteral :
    let s := place [(1, opA)]
    s.fsr = none ∧ s.reg 0 = none ∧ s.reg 1 = some opA ∧ (0 = 0 ∨ 64 < 0) ∧ 64 < 65 ∧ (1 ≤ 1 ∧ 1 ≤ 64) ∧
      (1 ≤ 64 ∧ 64 ≤ 64) := by decide

theorem witness_ExtractReadsField :
    let s := place [(1, opA), (2, opB)]
    s.fsr = none ∧ s.reg 0 = none ∧ s.reg 1 = some opA ∧ s.reg 2 = some opB ∧ (1 : Slot) ≠ 2 := by decide

theorem witness_AddAddsAtPosition :
    let s := place [(1, opA), (2, opB)]
    s.fsr = none ∧ s.reg 0 = none ∧ s.reg 1 = some opA ∧ s.reg 2 = some opB ∧ (1 : Slot) ≠ 2 := by decide

theorem witness_SubSubtractsAtPosition :
    let s := place [(1, opA), (2, opB)]
    s.fsr = none ∧ s.reg 0 = none ∧ s.reg 1 = some opA ∧ s.reg 2 = some opB ∧ (2 : Slot) ≠ 1 := by decide

/-- Unsigned operands, a signed operand with an unsigned and with a signed result, an aliased result, a NULL slot. -/
theorem witness_MulMultiplies :
    let g : Reg := ⟨8, 0xFD, true, false, false⟩
    let s := place [(1, opA), (2, opB), (3, opS), (4, g), (5, g)]
    s.fsr = none ∧ s.reg 0 = none ∧ s.reg 1 = some opA ∧ s.reg 2 = some opB ∧ s.reg 3 = some opS ∧ s.reg 4 = some g ∧
      s.reg 5 = some g ∧ (opA.signed = false ∧ opB.signed = false) ∧ g.signed = true ∧ opS.signed = false ∧
      (3 : Slot) ≠ 1 ∧ (3 : Slot) ≠ 2 ∧ (5 : Slot) ≠ 1 ∧ (5 : Slot) ≠ 4 := by decide

/-- A busy destination, a negative value, and the values 0 and 200. -/
theorem witness_IsqrtIsFloorRoot :
    let a : Reg := ⟨8, 0xC8, false, false, false⟩
    let z : Reg := ⟨8, 0, false, false, false⟩
    let g : Reg := ⟨8, 0xFF, true, false, false⟩
    let s := place [(1, a), (2, z), (3, g)]
    s.fsr = none ∧ s.reg 0 = none ∧ s.reg 1 = some a ∧ 0 ≤ a.val ∧ s.reg 2 = some z ∧ 0 ≤ z.val ∧ s.reg 3 = some g ∧
      g.val < 0 := by decide

/-- Digit widths 0, 1, 63 and 64; a register of MAX_DIGITS bits and one a bit wider; a buffer number out of range. -/
theorem witness_DigitsBuildsList :
    let x : Reg := ⟨65536, 0, false, false, false⟩
    let y : Reg := ⟨65537, 0, false, false, false⟩
    let s := place [(1, x), (2, y)]
    s.fsr = none ∧ s.reg 0 = none ∧ (s.reg 1).map (·.w) = some 65536 ∧ (s.reg 2).map (·.w) = some 65537 ∧
      (0 = 0 ∨ 63 < 0) ∧ 63 < 64 ∧ x.w ≤ s.cfg.maxDigits * 1 ∧ s.cfg.maxDigits * 1 < y.w ∧
      y.w ≤ s.cfg.maxDigits * 63 ∧ (Header.unpack 0x6081000100000000).op = 0x18 ∧
      3 < (Header.unpack 0x6081000100000000).rd.toNat := by decide +kernel

/-- V77. -/
theorem witness_DigitsReconstructMagnitude :
    let a : Reg := ⟨8, 0xFB, true, false, false⟩
    let s := place [(1, a)]
    s.fsr = none ∧ s.reg 1 = some a ∧ a.w ≤ s.cfg.maxDigits * 2 ∧ (after (exec (.digits 1 1 2) s)).isSome = true := by
  decide +kernel

/-- Element 0, the last element, and one past it; an EMPTY buffer; a buffer number out of range. -/
theorem witness_DreadReadsElement :
    let l : DigitList := ⟨[1, 2, 6, 5]⟩
    let s := State.reset.setStream 0 l
    s.fsr = none ∧ s.stream 1 = none ∧ s.stream 0 = some l ∧ l.count < 5 ∧ l.digits[3]? = some 5 ∧
      (Header.unpack 0x6480000000000000).op = 0x19 ∧ 3 < (Header.unpack 0x6480000000000000).rd.toNat := by decide

/-! ### Witnesses: the engine -/

/-- The cause ESTART records under a configuration and operands; none if it completes. -/
def startCause (c : Config) (l : List (Slot × Reg)) (mode : EngineMode) : Option Cause :=
  (after (exec (.estart 3 4 5 mode) (under c l))).bind fun t => t.fsr.map (·.cause)

/-- Each check of R89 fails on some input with every earlier one passed, and one input passes them all (V94, V102 to
V110, and the limits of check 2). -/
theorem witness_EstartChecksInOrder :
    [startCause Config.ex1 [(3, opA), (5, opS)] .basic,
      startCause { Config.ex1 with m := 0 } operands .basic, startCause { Config.ex1 with m := 33 } operands .basic,
      startCause { Config.ex1 with n := 0 } operands .basic,
      startCause { Config.ex1 with alpha := 4 } operands .practical,
      startCause { Config.ex1 with beta := 4 } operands .practical,
      startCause { Config.ex1 with iterP := 2 } operands .practical,
      startCause { Config.ex1 with trows := 0, table := #v[] } operands .practical,
      startCause { Config.ex1 with m := 3, n := 3 } operands .basic,
      startCause { Config.ex1 with z := 1 } operands .practical,
      startCause Config.ex1 [(3, { opA with signed := true }), (4, opB), (5, opS)] .basic,
      startCause Config.ex1 [(3, opA), (4, ⟨22, 810000, false, false, false⟩), (5, opS)] .basic,
      startCause Config.ex1 [(3, opA), (4, opB), (5, ⟨18, 105712, false, false, false⟩)] .basic,
      startCause { Config.ex1 with iterP := 3 } operands .practical,
      startCause { Config.ex1 with maxWidth := 70 } operands .basic,
      startCause { Config.ex1 with maxWidth := 71 } operands .basic,
      startCause { Config.ex1 with maxWidth := 86 } operands .practical,
      startCause { Config.ex1 with maxWidth := 87 } operands .practical] =
    [some .nullReg, some .cfgOther, some .cfgOther, some .cfgOther, some .cfgOther, some .cfgOther, some .cfgOther,
      some .cfgOther, some .cfgEven, some .cfgZm, some .unsignedRequired, some .digitCount, some .digitCount,
      some .cfgOther, some .widthLimit, none, some .widthLimit, none] := by decide +kernel

/-- I, K, WRT and WRP of EX1 and 20-bit operands, in either mode (parts 3.1 and 3.2). -/
theorem witness_EstartChecksNumbers :
    let c := Config.ex1
    (12 : Nat) = c.n + (c.z + c.m - 1) / c.m ∧ (22 : Int) = c.m * (2 * (12 : Nat) + 1 - c.n) - 2 * c.z ∧
      71 = c.resWidthT.getD (1 + c.m * (2 * 12 + 1 - c.n) + max (20 + 20) (2 * 20)) ∧
      71 = c.resWidthP.getD (1 + max (20 + 20 + c.m * (2 * 12 + 1 - c.n)) (22 + 2 * c.m * 12)) ∧ 14 = c.iterP ∧
      (30 : Int) = c.m * (2 * (14 : Nat) + 1 - c.n) - 2 * c.z ∧
      79 = c.resWidthT.getD (1 + c.m * (2 * 14 + 1 - c.n) + max (20 + 20) (2 * 20)) ∧
      87 = c.resWidthP.getD (1 + max (20 + 20 + c.m * (2 * 14 + 1 - c.n)) (30 + 2 * c.m * 14)) := by decide

/-- The field check of ESTART and its word: IMM8 = 2. -/
theorem witness_EstartBadField :
    (Header.unpack 0x80A3200200000000).op = 0x20 ∧ 1 < (Header.unpack 0x80A3200200000000).imm8.toNat := by decide

/-- The conditions of R89 hold of EX1 and the operands of part 3, in either mode. -/
theorem operands_startOk_basic : StartOk Config.ex1 .basic opA opB opS 12 22 71 71 := by
  constructor <;> decide +kernel

theorem operands_startOk_practical : StartOk Config.ex1 .practical opA opB opS 14 30 79 87 := by
  constructor <;> decide +kernel

/-- EX1 with given residual widths too narrow for b_1·A = 3·490000. -/
def narrow : Config := { Config.ex1 with resWidthT := some 20, resWidthP := some 21 }

/-- The default residual widths, in either mode; given ones, into which b_1·A does not fit; and a range it does not
leave. -/
theorem witness_EstartInitialisesEngine :
    (place operands).fsr = none ∧ (place operands).reg 3 = some opA ∧ (place operands).reg 4 = some opB ∧
      (place operands).reg 5 = some opS ∧ StartOk (place operands).cfg .basic opA opB opS 12 22 71 71 ∧
      StartOk (place operands).cfg .practical opA opB opS 14 30 79 87 ∧
      (under narrow operands).reg 3 = some opA ∧ StartOk narrow .practical opA opB opS 14 30 20 21 ∧
      ¬Range 20 true (3 * 490000) ∧ ¬Range 21 true (3 * 490000) ∧ Range 22 true (3 * 490000) ∧
      (started narrow .practical).res = some ⟨20, 421424, true, true, false⟩ ∧
      (started narrow .practical).resp = some ⟨21, 1470000, true, true, false⟩ := by
  refine ⟨rfl, by decide, by decide, by decide, operands_startOk_basic, operands_startOk_practical, by decide, ?_,
    by unfold Range; decide, by unfold Range; decide, by unfold Range; decide, by decide +kernel, by decide +kernel⟩
  constructor <;> decide +kernel

theorem witness_EstepWithoutRunFaults : State.reset.fsr = none ∧ State.reset.engine.active = false := by decide

/-- Row 4 of part 3.2. -/
def row4 : State := at_ .practical 4 fun e => { e with
  resp := some ⟨87, BitVec.ofInt 87 (-8151142400), true, false, false⟩, q := some ⟨29, 10, true, false, false⟩,
  qm := some ⟨29, 9, true, false, false⟩, d := some ⟨30, 20, true, false, false⟩,
  dm := some ⟨30, 19, true, false, false⟩, mc := some ⟨46, 125440000, false, false, false⟩ }

/-- The first and the last iteration of a basic run, the last from row 11 of part 3.1, and a practical iteration; none
latches overflow. One whose residual alone overflows, with the flag clear or latched before, and one whose root does. -/
theorem witness_EstepBasicRecurrence :
    let last : State := at_ .basic 11 fun e => { e with
      res := some ⟨71, 0, true, false, false⟩, root := some ⟨24, 2520000, false, false, false⟩,
      mc := some ⟨42, 2055208960000, false, false, false⟩ }
    let latched : State := at_ .basic 0 fun e => { e with res := some ⟨71, 0, true, true, false⟩ }
    let wideRes : State := at_ .basic 0 fun e => { e with res := some ⟨71, 2 ^ 69, true, false, false⟩ }
    let wideRoot : State := at_ .basic 0 fun e => { e with root := some ⟨24, 2 ^ 23, false, false, false⟩ }
    let flags := fun s : State => (after (exec .estep s)).map fun t =>
      (t.engine.done, t.engine.res.map (·.ovf), t.engine.root.map (·.ovf), t.engine.mc.map (·.ovf))
    (at_ .basic 0 id).Inv ∧ last.Inv ∧ row4.Inv ∧ latched.Inv ∧ wideRes.Inv ∧ wideRoot.Inv ∧ last.fsr = none ∧
      last.engine.active = true ∧ last.engine.mode = .basic ∧ last.engine.eiter + 1 = last.engine.total ∧
      row4.fsr = none ∧ row4.engine.active = true ∧
      flags last = some (true, some false, some false, some false) ∧
      [at_ .basic 0 id, row4, latched, wideRes, wideRoot].map flags =
        [some (false, some false, some false, some false), some (false, some false, some false, some false),
          some (false, some true, some false, some false), some (false, some true, some false, some false),
          some (false, some false, some true, some false)] := by
  refine ⟨invCheck_sound (by decide +kernel), invCheck_sound (by decide +kernel), invCheck_sound (by decide +kernel),
    invCheck_sound (by decide +kernel), invCheck_sound (by decide +kernel), invCheck_sound (by decide +kernel),
    rfl, rfl, rfl, rfl, rfl, rfl, by decide +kernel, by decide +kernel⟩

/-- Iterations 1 and 2 of EX1 lie below delta = 3. -/
theorem witness_EstepEarlyPracticalSelectsZero :
    (at_ .practical 0 id).Inv ∧ (at_ .practical 1 id).Inv ∧ (at_ .practical 1 id).fsr = none ∧
      (at_ .practical 1 id).engine.active = true ∧ (at_ .practical 1 id).engine.mode = .practical ∧
      1 + 1 < Config.ex1.z / Config.ex1.m + 1 := by
  refine ⟨invCheck_sound (by decide +kernel), invCheck_sound (by decide +kernel), by decide +kernel⟩

/-- Row 4 meets the premises, its multiplier digit is b_6 = 0, its digit is −2 (part 3.2, row 5) and no register holds
overflow after it; beyond n the multiplier digit is 0. Below delta, where the digit is 0: a residual that alone
overflows, and a root pair that overflows. -/
theorem witness_EstepPracticalRecurrence :
    let wideRes : State := at_ .practical 0 fun e => { e with resp := some ⟨87, 2 ^ 85, true, false, false⟩ }
    let wideRoot : State := at_ .practical 1 fun e => { e with
      q := some ⟨29, 2 ^ 27, true, false, false⟩, qm := some ⟨29, 2 ^ 27 - 1, true, false, false⟩,
      d := some ⟨30, 2 ^ 28, true, false, false⟩, dm := some ⟨30, 2 ^ 28 - 1, true, false, false⟩ }
    let flags := fun s : State => (after (exec .estep s)).map fun t =>
      (t.engine.elastd, [t.engine.resp, t.engine.q, t.engine.qm, t.engine.d, t.engine.dm].map (·.map (·.ovf)))
    row4.Inv ∧ wideRes.Inv ∧ wideRoot.Inv ∧ row4.fsr = none ∧ row4.engine.active = true ∧
      row4.engine.mode = .practical ∧ wideRes.engine.mode = .practical ∧ wideRoot.engine.mode = .practical ∧
      NextMultiplierDigit row4.cfg row4.engine 0 ∧
      NextMultiplierDigit Config.ex1 { row4.engine with eiter := 9 } 0 ∧
      (∃ e, exec .estep row4 = .next ({ row4 with engine := e }.respond ⟨.ok, 0, 0⟩)) ∧
      (⟨29, 9, true, false, false⟩ : Reg).val = (⟨29, 10, true, false, false⟩ : Reg).val - 1 ∧
      (⟨30, 20, true, false, false⟩ : Reg).val = 2 * (⟨29, 10, true, false, false⟩ : Reg).val ∧
      (⟨30, 19, true, false, false⟩ : Reg).val = 2 * (⟨29, 10, true, false, false⟩ : Reg).val - 1 ∧
      flags row4 = some (-2, [some false, some false, some false, some false, some false]) ∧
      flags wideRes = some (0, [some true, some false, some false, some false, some false]) ∧
      flags wideRoot = some (0, [some false, some true, some true, some false, some false]) := by
  refine ⟨invCheck_sound (by decide +kernel), invCheck_sound (by decide +kernel), invCheck_sound (by decide +kernel),
    rfl, rfl, rfl, rfl, rfl, by unfold NextMultiplierDigit; decide +kernel,
    by unfold NextMultiplierDigit; decide +kernel, ⟨_, rfl⟩, by decide +kernel⟩

/-- Each of the three outcomes: row 4, and iterations 3 and 4 under a bad table. -/
theorem witness_EstepPracticalFaultsChangeNothing :
    let s := fun i => { under badTable operands with engine := { started badTable .practical with eiter := i } }
    row4.Inv ∧ (s 2).Inv ∧ (s 3).Inv ∧ (s 2).fsr = none ∧ (s 2).engine.active = true ∧ (s 2).engine.mode = .practical ∧
      [csrAfter .fsr (exec .estep (s 2)), csrAfter .fsr (exec .estep (s 3))] = [0x210A01, 0x210901] := by
  refine ⟨invCheck_sound (by decide +kernel), invCheck_sound (by decide +kernel), invCheck_sound (by decide +kernel),
    by decide +kernel⟩

/-- S12 of part 1: samples 56 and −56 at i = 4, loose bit 1. -/
def sampleAt (v : Int) : Reg := (Reg.zero 87 true).store (v * 2 ^ 29)

/-- S12: regions 14 and −14, row 49, column 0, the digits 2 and −2; the same beside an override of that iteration for
another row; and a column outside the table. -/
theorem witness_SymmetricTableMirrors :
    let q : Reg := ⟨29, 2, true, false, false⟩
    let other : Config := { Config.ex1 with overrides := [⟨4, 10, 20⟩] }
    let outcomes := fun c : Config => [tableDigit c 4 (sampleAt 56) q, tableDigit c 4 (sampleAt (-56)) q]
    Config.ex1.symmetric = true ∧ other.symmetric = true ∧ badTable.symmetric = true ∧
      (∀ o ∈ other.overrides, o.iteration = 4 → o.fromRow ≠ other.origin - 14) ∧
      (∀ o ∈ badTable.overrides, o.iteration = 4 → o.fromRow ≠ badTable.origin - 14) ∧
      (∀ c ∈ [Config.ex1, other, badTable],
        (samples c 4 (sampleAt 56) q).1.val / 2 ^ c.fracP = 14 ∧
          (samples c 4 (sampleAt (-56)) q).1.val / 2 ^ c.fracP = -14 ∧
          (samples c 4 (sampleAt 56) q).2 = (samples c 4 (sampleAt (-56)) q).2) ∧
      outcomes Config.ex1 = [.ok 2, .ok (-2)] ∧ outcomes other = [.ok 2, .ok (-2)] ∧
      outcomes badTable = [.error .tableIndex, .error .tableIndex] := by
  decide +kernel

/-- Below delta; at delta with F = 2 (part 3.2, row 3); above it with loose bit 1 and 0, without and with an override,
inside and outside the table. -/
theorem witness_SelectionFollowsRules :
    let c := Config.ex1
    2 < c.z / c.m + 1 ∧ 3 = c.z / c.m + 1 ∧
      (∀ j : Fin 3, (2 : BitVec 3).getLsbD j = ((Reg.zero 87 true).store (2 * 2 ^ 31)).bitAt (c.fdPos + j.val)) ∧
      c.z / c.m + 1 < 4 ∧ (⟨29, 2, true, false, false⟩ : Reg).bitAt (c.sBase + c.m * 4 + c.ns) = true ∧
      (⟨29, 1, true, false, false⟩ : Reg).bitAt (c.sBase + c.m * 4 + c.ns) = false ∧
      (∀ j : Fin 10, (56 : BitVec 10).getLsbD j = (sampleAt 56).bitAt (c.pBase + c.m * 4 - 0 + j.val)) ∧
      (∀ j : Fin 10, (112 : BitVec 10).getLsbD j = (sampleAt 56).bitAt (c.pBase + c.m * 4 - 1 + j.val)) ∧
      (∀ j : Fin 4, (8 : BitVec 4).getLsbD j =
        (⟨29, 2, true, false, false⟩ : Reg).bitAt (c.sBase + c.m * 4 - 0 + j.val)) ∧
      (∀ j : Fin 4, (8 : BitVec 4).getLsbD j =
        (⟨29, 1, true, false, false⟩ : Reg).bitAt (c.sBase + c.m * 4 - 1 + j.val)) ∧
      (56 : BitVec 10).toInt / 2 ^ c.fracP = 14 ∧ c.origin - |14| = 49 ∧ (49 : Int) < c.trows ∧
      (8 : Int) / 2 ^ c.fracS - c.colBase = 0 ∧ (0 : Int) < c.tcols ∧ c.overrides = [] ∧
      [(⟨4, 49, 70⟩ : Override)] = [] ++ ⟨4, 49, 70⟩ :: [] ∧ ¬(70 : Int) < c.trows ∧
      selectDigit c 4 (sampleAt 56) ⟨29, 2, true, false, false⟩ = .ok 2 := by
  decide +kernel

theorem witness_ErunBasicCompletes :
    (place operands).Inv ∧ (place operands).fsr = none ∧ (place operands).reg 3 = some opA ∧
      (place operands).reg 4 = some opB ∧ (place operands).reg 5 = some opS ∧
      StartOk (place operands).cfg .basic opA opB opS 12 22 71 71 := by
  refine ⟨invCheck_sound (by decide +kernel), rfl, by decide, by decide, by decide, operands_startOk_basic⟩

/-- The engine after k iterations, as long as none raises. -/
def iterated (c : Config) (e : Engine) : Nat → Engine
  | 0 => e
  | k + 1 => match (iterated c e k).iterate c with
    | .ok e' => e'
    | .error _ => iterated c e k

/-- A run of one iteration: n = 1, Z = 0, two-bit operands. -/
def tiny : Config := { Config.ex1 with n := 1, z := 0 }
def tinyState : State := under tiny [(3, ⟨2, 1, false, false, false⟩), (4, ⟨2, 1, false, false, false⟩),
  (5, ⟨2, 1, false, false, false⟩)]
def tinyStart : Engine :=
  startEngine tiny .basic ⟨2, 1, false, false, false⟩ ⟨2, 1, false, false, false⟩ ⟨2, 1, false, false, false⟩

/-- A word with IMM8 = 2, an ESTART that raises, a run that ends after its one iteration, and a practical run whose third
iteration raises. -/
theorem witness_ErunIsEstartThenEsteps :
    ((Header.unpack 0x88A3200200000000).op = 0x22 ∧ 1 < (Header.unpack 0x88A3200200000000).imm8.toNat ∧
      exec (.estart 3 4 5 .basic) State.reset = .next (State.reset.takeFault 0x20 .nullReg)) ∧
    (tinyState.Inv ∧ tinyState.fsr = none ∧
      exec (.estart 3 4 5 .basic) tinyState =
        .next ({ tinyState with engine := iterated tiny tinyStart 0 }.respond ⟨.ok, 0, 0⟩) ∧
      exec .estep { tinyState with engine := iterated tiny tinyStart 0 } =
        .next ({ tinyState with engine := iterated tiny tinyStart 1 }.respond ⟨.ok, 0, 0⟩) ∧
      (iterated tiny tinyStart 1).active = false) ∧
    let s := under badTable operands
    let es := iterated badTable (started badTable .practical)
    s.Inv ∧ s.fsr = none ∧
      exec (.estart 3 4 5 .practical) s = .next ({ s with engine := es 0 }.respond ⟨.ok, 0, 0⟩) ∧
      exec .estep { s with engine := es 0 } = .next ({ s with engine := es 1 }.respond ⟨.ok, 0, 0⟩) ∧
      exec .estep { s with engine := es 1 } = .next ({ s with engine := es 2 }.respond ⟨.ok, 0, 0⟩) ∧
      (es 2).active = true ∧
      exec .estep { s with engine := es 2 } = .next ({ s with engine := es 2 }.takeFault 0x21 .digitRange) := by
  refine ⟨⟨by decide, by decide, rfl⟩, ⟨invCheck_sound (by decide +kernel), rfl, rfl, rfl, by decide +kernel⟩,
    invCheck_sound (by decide +kernel), rfl, rfl, rfl, rfl, by decide +kernel, rfl⟩

/-- Row 11 of part 3.1 and row 13 of part 3.2: one iteration is left; and row 13 with S in 26 bits, so that c = 15 > I = 14
and THEO_ROOT_OK is 0 (R95, 90_conflicts.md C4). -/
theorem witness_TerminalReport :
    let b : State := at_ .basic 11 fun e => { e with
      res := some ⟨71, 0, true, false, false⟩, root := some ⟨24, 2520000, false, false, false⟩,
      mc := some ⟨42, 2055208960000, false, false, false⟩ }
    let p : State := at_ .practical 13 fun e => { e with
      res := some ⟨79, 0, true, false, false⟩, root := some ⟨28, 2520000, false, false, false⟩,
      resp := some ⟨87, 0, true, false, false⟩, q := some ⟨29, 2520000, true, false, false⟩,
      qm := some ⟨29, 2519999, true, false, false⟩, d := some ⟨30, 5040000, true, false, false⟩,
      dm := some ⟨30, 5039999, true, false, false⟩, mc := some ⟨46, 32883343360000, false, false, false⟩ }
    let w : Reg := ⟨26, 630000, false, false, false⟩
    let x : State := { p with engine := { p.engine with
      sref := some w, sd := (paddedRoot Config.ex1 w).digitList 2 } }
    b.Inv ∧ p.Inv ∧ x.Inv ∧ b.engine.active = true ∧ p.engine.active = true ∧ x.engine.active = true ∧
      x.engine.sd.count = 15 ∧ x.engine.total = 14 ∧ b.engine.eiter + 1 = b.engine.total ∧
      p.engine.eiter + 1 = p.engine.total ∧
      (after (exec .estep b)).map (fun t => (t.engine.mode, t.engine.res.isSome, t.engine.root.isSome,
        t.engine.sref.isSome, t.engine.esr)) = some (.basic, true, true, true, 0x1A) ∧
      (after (exec .estep p)).map (fun t => (t.engine.mode, t.engine.resp.isSome, t.engine.q.isSome,
        t.engine.esr)) = some (.practical, true, true, 0x19E) ∧
      csrAfter .esr (exec .estep x) = 0x9E := by
  refine ⟨invCheck_sound (by decide +kernel), invCheck_sound (by decide +kernel), invCheck_sound (by decide +kernel),
    by decide +kernel⟩

/-- s1 = 700, s2 = 900 under EX1. -/
theorem witness_BasicRunConverges :
    let c := (place operands).cfg
    (place operands).fsr = none ∧ 1 ≤ c.m ∧ c.m ≤ 32 ∧ 1 ≤ c.n ∧ c.n * c.m % 2 = 0 ∧ c.resWidthT = none ∧
      12 = c.n + (c.z + c.m - 1) / c.m ∧
      1 + c.m * (2 * 12 + 1 - c.n) + 2 * (c.n * c.m) ≤ c.maxWidth ∧ c.m * 12 + c.m + 1 ≤ c.maxWidth ∧
      c.n * c.m + c.m * 12 ≤ c.maxWidth ∧ c.n * c.m + c.z ≤ c.maxWidth ∧ 700 < 2 ^ (c.n * c.m / 2) ∧
      900 < 2 ^ (c.n * c.m / 2) ∧ (place operands).reg 3 = some opA ∧ (place operands).reg 4 = some opB ∧
      (place operands).reg 5 = some opS ∧ opA.w = c.n * c.m ∧ opB.w = c.n * c.m ∧ opS.w = c.n * c.m ∧
      opA.signed = false ∧ opB.signed = false ∧ opS.signed = false ∧ opA.bits.toNat = 700 * 700 ∧
      opB.bits.toNat = 900 * 900 ∧ opS.bits.toNat = 700 * 900 := by
  decide +kernel

/-- A free and a busy destination, an allocated and a NULL engine register, a selector out of range. -/
theorem witness_EgetCopiesEngineRegister :
    let s := at_ .basic 0 id
    s.fsr = none ∧ s.reg 3 = some opA ∧ s.reg 6 = none ∧ s.engine.register .resp = none ∧
      s.engine.register .sref = some opS ∧ (Header.unpack 0x8C20000900000000).op = 0x23 ∧
      8 < (Header.unpack 0x8C20000900000000).imm8.toNat := by decide +kernel

/-- A CSR number out of range, FAULTED and not; ELASTD of a practical run. -/
theorem witness_RdcsrReadsCsr :
    (Header.unpack 0xC000000500000000).op = 0x30 ∧ 4 < (Header.unpack 0xC000000500000000).imm8.toNat ∧
      State.reset.fsr = none ∧ (faulted .nullReg 1).fsr ≠ none ∧
      (-2 ^ 63 : Int) ≤ ({ State.reset with engine := { Engine.reset with elastd := -2 } } : State).engine.elastd := by
  decide

theorem witness_FsrLayout :
    State.reset.fsr = none ∧ (faulted .unsignedRequired 0x20).fsr = some ⟨.unsignedRequired, 0x20⟩ := by decide

theorem witness_EsrLayout : (at_ .basic 4 id).Inv ∧ (at_ .basic 4 id).engine.done = false :=
  ⟨invCheck_sound (by decide +kernel), rfl⟩

end Sys2Proof.Tests
end

section
/-! PROOFS. Scope: what a command leaves of the configuration and of the registers allocated before it (R7, R12, R23 to
R25, R28). -/

namespace Sys2Proof.Machine

/-! ### What the commands outside `State.command` can do -/

/-- Everything a command can do that runs unless the core is FAULTED (R112). -/
theorem State.unlessFaulted_cases {s t : State} {k : Answer} (h : s.unlessFaulted k = .next t) :
    (s.fsr ≠ none ∧ t = s.respond refusedResponse) ∨ (s.fsr = none ∧ k = .next t) := by
  cases hf : s.fsr with
  | some f =>
    rw [State.unlessFaulted_faulted hf] at h
    cases h
    exact .inl ⟨by simp, rfl⟩
  | none =>
    rw [State.unlessFaulted_running hf] at h
    exact .inr ⟨rfl, h⟩

/-- Everything RAND can do when it ends: be refused, raise NULL_REG, or store an accepted pattern (R64). -/
theorem execRand_cases {s t : State} {rd : Slot} (h : execRand rd s = .next t) :
    (s.fsr ≠ none ∧ t = s.respond refusedResponse) ∨
      (s.fsr = none ∧ s.reg rd = none ∧ t = s.takeFault (Opcode.code .rand) .nullReg) ∨
      (s.fsr = none ∧ ∃ r b u, s.reg rd = some r ∧ s.randomPattern r.w r.signed = some (b, u) ∧
        t = (u.setReg rd (some { r with bits := b })).respond (okResponse 0)) := by
  rcases State.unlessFaulted_cases h with hfault | ⟨hf, h⟩
  · exact .inl hfault
  · split at h
    · next hr => cases h; exact .inr (.inl ⟨hf, hr, rfl⟩)
    · next r hr =>
      split at h
      · next b u hp => cases h; exact .inr (.inr ⟨hf, r, b, u, hr, hp, rfl⟩)
      · cases h

/-- Everything ERUN can do: be refused, raise a cause at its start, end its run, or raise the cause of an iteration, which
leaves the engine as the iterations before it did (R93, R112). -/
theorem execErun_cases {s t : State} {ra rb rd : Slot} {mode : EngineMode} (h : execErun ra rb rd mode s = .next t) :
    (s.fsr ≠ none ∧ t = s.respond refusedResponse) ∨
      (s.fsr = none ∧ ∃ c, s.startRun ra rb rd mode = .error c ∧ t = s.takeFault (Opcode.code .erun) c) ∨
      (s.fsr = none ∧ ∃ e e', s.startRun ra rb rd mode = .ok e ∧
        ((Engine.runToEnd s.cfg e.total e = (e', none) ∧ t = { s with engine := e' }.respond (okResponse 0)) ∨
          ∃ c, Engine.runToEnd s.cfg e.total e = (e', some c) ∧
            t = { s with engine := e' }.takeFault (Opcode.code .erun) c)) := by
  rcases State.unlessFaulted_cases h with hfault | ⟨hf, h⟩
  · exact .inl hfault
  · split at h
    · next c hc => cases h; exact .inr (.inl ⟨hf, c, hc, rfl⟩)
    · next e he =>
      rcases hrun : Engine.runToEnd s.cfg e.total e with ⟨e', _ | c⟩ <;> simp only [hrun] at h <;> cases h
      · exact .inr (.inr ⟨hf, e, e', he, .inl ⟨hrun, rfl⟩⟩)
      · exact .inr (.inr ⟨hf, e, e', he, .inr ⟨c, hrun, rfl⟩⟩)

/-- The words taken off the channel run as the instruction they decode to, or are rejected (R58). -/
theorem runCommand_cases {w x : Word} {s t : State} (h : runCommand w x s = .next t) :
    (∃ i, decode w x = .ok i ∧ exec i s = .next t) ∨ ∃ e, decode w x = .error e ∧ rejectCommand w e s = .next t := by
  unfold runCommand at h
  split at h
  · next i hd => exact .inl ⟨i, hd, h⟩
  · next e hd => exact .inr ⟨e, hd, h⟩

/-! ### What a command leaves of an allocated register -/

/-- `o` is what the command `i` may leave in slot `j` where register `r` stood: nothing, if it is FREE of the slot, or a
register of the same width with every flag of `r`, whose unf only LSR and whose mode only SETSIGN may have changed (R12,
R23 to R25). -/
def Reg.KeptBy (i : Instr) (j : Slot) (r : Reg) (o : Option Reg) : Prop :=
  (i = .free j ∧ o = none) ∨
    ∃ r', o = some r' ∧ r'.w = r.w ∧ (r.ovf = true → r'.ovf = true) ∧ (r.unf = true → r'.unf = true) ∧
      (r'.unf = r.unf ∨ ∃ n, i = .lsr j n) ∧ (r'.signed = r.signed ∨ ∃ b, i = .setsign j b)

namespace Reg.KeptBy

variable {i : Instr} {j : Slot} {r r' : Reg}

/-- Any command may latch overflow in a register whose width, mode and unf it keeps. -/
theorem of_ovf_mono (hw : r'.w = r.w) (hs : r'.signed = r.signed) (hu : r'.unf = r.unf)
    (ho : r.ovf = true → r'.ovf = true) : KeptBy i j r (some r') :=
  .inr ⟨r', rfl, hw, ho, hu.trans, .inl hu, .inl hs⟩

theorem refl : KeptBy i j r (some r) := of_ovf_mono rfl rfl rfl id

theorem free : KeptBy (.free j) j r none := .inl ⟨rfl, rfl⟩

theorem setsign (b : Bool) : KeptBy (.setsign j b) j r (some { r with signed := b }) :=
  .inr ⟨_, rfl, rfl, id, id, .inl rfl, .inr ⟨b, rfl⟩⟩

theorem lsr (n : Nat) : KeptBy (.lsr j n) j r (some (r.lsr n)) :=
  .inr ⟨_, rfl, rfl, id, fun h => by simp [Reg.lsr, h], .inr ⟨n, rfl⟩, .inl rfl⟩

theorem storeExact (v : Int) : KeptBy i j r (some (r.storeExact v)) :=
  of_ovf_mono rfl rfl rfl fun h => by simp [h]

theorem mulInto (o : Bool) (a b : Reg) : KeptBy i j r (some (Reg.mulInto o r a b)) :=
  of_ovf_mono rfl rfl rfl fun h => by simp [Reg.mulInto, h]

theorem loadBits {n : Nat} (src : BitVec n) (p : Nat) : KeptBy i j r (some (r.loadBits src p)) :=
  of_ovf_mono rfl rfl rfl fun h => by simp [Reg.loadBits, h]

end Reg.KeptBy

/-! ### The frame of every command -/

/-- From `s` to `t` the command `i` has kept the configuration and what R12 and R23 to R25 say of every register allocated
in `s`. -/
structure RegisterFrame (i : Instr) (s t : State) : Prop where
  cfg : t.cfg = s.cfg
  kept : ∀ j r, s.reg j = some r → r.KeptBy i j (t.reg j)

namespace RegisterFrame

variable {i : Instr} {s t : State} {rd : Slot}

theorem of_regs_eq (hcfg : t.cfg = s.cfg) (hregs : ∀ j, t.reg j = s.reg j) : RegisterFrame i s t :=
  ⟨hcfg, fun j r hr => by rw [hregs, hr]; exact .refl⟩

/-- Writing one slot keeps the frame if it keeps it of the register in that slot, if there is one. -/
theorem setReg (o : Option Reg) (h : ∀ r, s.reg rd = some r → r.KeptBy i rd o) :
    RegisterFrame i s (s.setReg rd o) where
  cfg := rfl
  kept j r hr := by
    rw [State.reg_setReg]
    split
    · next hj => subst hj; exact h r hr
    · rw [hr]; exact .refl

/-- A command that fills a slot finds it free. -/
theorem fill (o : Option Reg) (h : s.reg rd = none) : RegisterFrame i s (s.setReg rd o) :=
  setReg o fun r hr => by simp [h] at hr

/-- A command that writes an allocated register keeps the frame if it keeps it of that register. -/
theorem update {r : Reg} {o : Option Reg} (hr : s.reg rd = some r) (h : r.KeptBy i rd o) :
    RegisterFrame i s (s.setReg rd o) :=
  setReg o fun r' hr' => by rw [hr] at hr'; cases hr'; exact h

/-- A refusal, a response and a fault change no register: a command built by `command` keeps the frame if its rule does
where it completes. -/
theorem of_command {o : Opcode} {body : Except Cause (State × Word)} (h : s.command o body = .next t)
    (hok : ∀ u v, body = .ok (u, v) → RegisterFrame i s u) : RegisterFrame i s t := by
  rcases State.command_cases h with ⟨-, rfl⟩ | ⟨-, u, v, hbody, rfl⟩ | ⟨-, c, -, rfl⟩
  · exact of_regs_eq rfl fun _ => rfl
  · obtain ⟨hcfg, hkept⟩ := hok u v hbody
    exact ⟨hcfg, hkept⟩
  · exact of_regs_eq rfl fun _ => rfl

theorem of_rand (h : execRand rd s = .next t) : RegisterFrame (.rand rd) s t := by
  rcases execRand_cases h with ⟨-, rfl⟩ | ⟨-, -, rfl⟩ | ⟨-, r, b, u, hr, hp, rfl⟩
  · exact of_regs_eq rfl fun _ => rfl
  · exact of_regs_eq rfl fun _ => rfl
  · obtain ⟨n, rfl⟩ := State.randomPattern_channel hp
    have hbits : r.KeptBy (.rand rd) rd (some { r with bits := b }) := .of_ovf_mono rfl rfl rfl id
    obtain ⟨hcfg, hkept⟩ := update (s := s.skipBits n) hr hbits
    exact ⟨hcfg, hkept⟩

theorem of_erun {ra rb : Slot} {mode : EngineMode} (h : execErun ra rb rd mode s = .next t) :
    RegisterFrame (.erun ra rb rd mode) s t := by
  rcases execErun_cases h with ⟨-, rfl⟩ | ⟨-, c, -, rfl⟩ | ⟨-, e, e', -, ⟨-, rfl⟩ | ⟨c, -, rfl⟩⟩ <;>
    exact of_regs_eq rfl fun _ => rfl

end RegisterFrame

/-- Every command keeps the register frame: it writes no register, fills a free slot, or writes an allocated register by
an operation that keeps it. -/
theorem exec_registerFrame {i : Instr} {s t : State} (h : exec i s = .next t) : RegisterFrame i s t := by
  cases i
  case rand => exact .of_rand h
  case erun => exact .of_erun h
  case rdcsr => cases h; exact .of_regs_eq rfl fun _ => rfl
  all_goals
    refine .of_command h fun u v hbody => ?_
    simp only [bind_eq_ok, require_eq_ok, State.freeSlot_eq_ok, State.operand_eq_ok, exists_const, return_eq_ok,
      Except.ok.injEq, Prod.mk.injEq] at hbody
  case rdst | rdw | cmpc | estart | estep =>
    obtain ⟨_, -, rfl, -⟩ := hbody
    exact .of_regs_eq rfl fun _ => rfl
  case cmp =>
    obtain ⟨_, -, _, -, rfl, -⟩ := hbody
    exact .of_regs_eq rfl fun _ => rfl
  case digits =>
    obtain ⟨_, -, -, -, rfl, -⟩ := hbody
    exact .of_regs_eq rfl fun _ => rfl
  case dread =>
    obtain ⟨_, -, -, rfl, -⟩ := hbody
    exact .of_regs_eq rfl fun _ => rfl
  case create =>
    obtain ⟨hfree, -, -, rfl, -⟩ := hbody
    exact .fill _ hfree
  case dup | abs =>
    obtain ⟨_, -, hfree, rfl, -⟩ := hbody
    exact .fill _ hfree
  case isqrt =>
    obtain ⟨_, -, hfree, -, rfl, -⟩ := hbody
    exact .fill _ hfree
  case eget =>
    obtain ⟨hfree, _, -, rfl, -⟩ := hbody
    exact .fill _ hfree
  case free =>
    obtain ⟨_, hr, rfl, -⟩ := hbody
    exact .update hr .free
  case setsign b =>
    obtain ⟨_, hr, rfl, -⟩ := hbody
    exact .update hr (.setsign b)
  case lsr n =>
    obtain ⟨_, hr, rfl, -⟩ := hbody
    exact .update hr (.lsr n)
  case lsl =>
    obtain ⟨_, hr, rfl, -⟩ := hbody
    exact .update hr (.storeExact _)
  case neg =>
    obtain ⟨_, hr, -, rfl, -⟩ := hbody
    exact .update hr (.storeExact _)
  case add | sub =>
    obtain ⟨_, -, _, hr, -, rfl, -⟩ := hbody
    exact .update hr (.storeExact _)
  case mul =>
    obtain ⟨a, -, b, -, _, hr, -, -, rfl, -⟩ := hbody
    exact .update hr (.mulInto _ a b)
  case load =>
    obtain ⟨a, -, _, hr, -, -, rfl, -⟩ := hbody
    exact .update hr (.loadBits a.bits _)
  case loadc =>
    obtain ⟨_, hr, -, rfl, -⟩ := hbody
    exact .update hr (.loadBits _ _)
  case extract =>
    obtain ⟨_, -, _, hr, -, rfl, -⟩ := hbody
    exact .update hr (.of_ovf_mono rfl rfl rfl id)

/-- Settles O14: the register frame, read at one register. -/
theorem registerFlagsAreSticky : Obligations.RegisterFlagsAreSticky :=
  fun _ _ _ j r h hr => (exec_registerFrame h).kept j r hr

/-! ### The configuration -/

/-- Taking a command off the channel keeps the configuration. -/
theorem fetch_command_cfg {s u : State} {w x : Word} (h : fetch s = .command w x u) : u.cfg = s.cfg := by
  rcases fetch_cases s with ⟨-, hf⟩ | ⟨_, -, hf⟩ | ⟨_, _, -, -, hf⟩ | ⟨_, _, _, -, -, hf⟩ | ⟨_, -, -, hf⟩ |
      ⟨_, _, -, -, hf⟩ <;> rw [hf] at h <;> cases h <;> rfl

theorem runCommand_cfg {w x : Word} {s t : State} (h : runCommand w x s = .next t) : t.cfg = s.cfg := by
  rcases runCommand_cases h with ⟨i, -, hexec⟩ | ⟨e, -, hreject⟩
  · exact (exec_registerFrame hexec).cfg
  · rcases rejectCommand_cases w e s with ⟨-, hr⟩ | ⟨-, hr⟩ <;> rw [hr] at hreject <;> cases hreject <;> rfl

/-- Settles O15: waiting, a reset and a command, decoded or rejected, each keep the configuration. -/
theorem configurationIsStatic : Obligations.ConfigurationIsStatic := by
  intro s t h
  rcases step_cases h with rfl | ⟨rest, -, rfl⟩ | ⟨w, x, u, hfetch, hrun⟩
  · rfl
  · rfl
  · rw [runCommand_cfg hrun, fetch_command_cfg hfetch]

end Sys2Proof.Machine
end

section
/-! PROOFS. The engine under the machine's invariant: a started run is within the bounds of R30 and R33, and every
iteration keeps it so (R22, R27, R29, R30, R33). -/

namespace Sys2Proof.Machine

/-! ### Engine registers -/

section Registers

variable {c : Config} {r r' : Reg} {signed : Bool} {width : Option Nat}

/-- Any operation that keeps the width and the mode of an engine register keeps what R30 says of it. -/
theorem Allocated.of_shape (h : Allocated c (some r) signed width) (hw : r'.w = r.w) (hs : r'.signed = r.signed) :
    Allocated c (some r') signed width := by
  obtain ⟨_, hr, ⟨hpos, hmax⟩, hsigned, hwidth⟩ := h
  cases hr
  exact ⟨r', rfl, ⟨hw ▸ hpos, hw ▸ hmax⟩, hs.trans hsigned, fun w h => hw.trans (hwidth w h)⟩

theorem Allocated.w_eq {w : Nat} (h : Allocated c (some r) signed (some w)) : r.w = w := by
  obtain ⟨_, hr, -, -, hwidth⟩ := h
  cases hr
  exact hwidth w rfl

theorem Allocated.regOk {o : Option Reg} (h : Allocated c o signed width) (ho : o = some r) : r.Ok c := by
  obtain ⟨_, rfl, hok, -⟩ := h
  cases ho
  exact hok

/-- A new register of a legal width. -/
theorem Allocated.of_width (hpos : 1 ≤ r.w) (hmax : r.w ≤ c.maxWidth) (hs : r.signed = signed)
    (hw : ∀ w, width = some w → r.w = w) : Allocated c (some r) signed width :=
  ⟨r, rfl, ⟨hpos, hmax⟩, hs, hw⟩

end Registers

/-- A practical register that is allocated has a legal width (R22, R30). -/
theorem PracticalOk.regOk {c : Config} {e : Engine} {r : Reg} (h : PracticalOk c e)
    (hr : e.resp = some r ∨ e.q = some r ∨ e.qm = some r ∨ e.d = some r ∨ e.dm = some r) : r.Ok c := by
  unfold PracticalOk at h
  split at h
  · obtain ⟨hresp, hq, hqm, hd, hdm⟩ := h
    simp [hresp, hq, hqm, hd, hdm] at hr
  · obtain ⟨hresp, hq, hqm, hd, hdm⟩ := h
    rcases hr with hr | hr | hr | hr | hr
    exacts [hresp.regOk hr, hq.regOk hr, hqm.regOk hr, hd.regOk hr, hdm.regOk hr]

/-- Under the invariant every engine register that EGET can name has a legal width (R22, R30, R94). -/
theorem Engine.Ok.register {c : Config} {e : Engine} (h : e.Ok c) {sel : EngineSel} {r : Reg}
    (hr : e.register sel = some r) : r.Ok c := by
  rcases h with rfl | h
  · cases sel <;> cases hr
  · cases sel with
    | res => exact h.res.regOk hr
    | root => exact h.root.regOk hr
    | mc => exact h.mc.regOk hr
    | sref => exact h.sref.regOk hr
    | resp => exact h.practical.regOk (.inl hr)
    | q => exact h.practical.regOk (.inr (.inl hr))
    | qm => exact h.practical.regOk (.inr (.inr (.inl hr)))
    | d => exact h.practical.regOk (.inr (.inr (.inr (.inl hr))))
    | dm => exact h.practical.regOk (.inr (.inr (.inr (.inr hr))))

/-- Under the invariant ESR's result bits are 0 until a run is done (R33). -/
theorem Engine.Ok.report_eq {c : Config} {e : Engine} (h : e.Ok c) (hdone : e.done = false) : e.report = {} := by
  rcases h with rfl | h
  · rfl
  · exact h.unreported hdone

/-! ### Starting a run (R89) -/

theorem Config.wf_iff {c : Config} :
    c.wf = true ↔ (1 ≤ c.maxWidth ∧ c.maxWidth < 2 ^ 32) ∧ 1 ≤ c.maxDigits ∧ c.resWidthT ≠ some 0 ∧
      c.resWidthP ≠ some 0 := by
  simp [Config.wf, and_assoc]

/-- A parameter that is not given as 0, with a positive default, is positive. -/
theorem one_le_getD {o : Option Nat} {d : Nat} (h : o ≠ some 0) (hd : 1 ≤ d) : 1 ≤ o.getD d := by
  cases o with
  | none => exact hd
  | some w => exact Nat.one_le_iff_ne_zero.2 fun hw => h (congrArg some hw)

/-- The engine that ESTART leaves has the constants, digits and registers of its mode (R29, R30, R89). -/
theorem startEngine_runOk {c : Config} {mode : EngineMode} {a b d : Reg} {u : Unit} (hc : c.wf = true) (ha : a.Ok c)
    (hd : d.Ok c) (h : startChecks c mode a b d = .ok u) : RunOk c (startEngine c mode a b d) := by
  obtain ⟨-, -, hT, hP⟩ := Config.wf_iff.1 hc
  obtain ⟨⟨hm1, hm32, hn⟩, hpractical, -, -, -, hcount, -, hk, hwidest⟩ := startChecks_ok h
  obtain ⟨⟨hres, hlq, -, hmc, -⟩, hwidthP⟩ := (widestRegister_le rfl rfl rfl rfl).1 hwidest
  have htotal : 1 ≤ c.iterations mode := by
    cases mode with
    | basic => exact Nat.le_add_right_of_le hn
    | practical =>
      obtain ⟨-, -, hdelta, -⟩ := hpractical rfl
      exact le_trans (Nat.le_add_left 1 _) hdelta
  have hpos : 1 ≤ c.m * c.iterations mode := Nat.mul_pos hm1 htotal
  have hroot : c.m * c.iterations mode ≤ c.maxWidth := by omega
  refine
    { radix := ⟨hm1, hm32⟩
      digitSet := fun hmode =>
        have ⟨halpha, hbeta, _⟩ := hpractical hmode
        ⟨halpha, hbeta⟩
      total_eq := rfl
      k_eq := Int.toNat_of_nonneg hk
      phase := .inl ⟨rfl, rfl, htotal⟩
      multiplier := ⟨(b.digitList_count c.m).trans hcount, b.digitList_lt c.m⟩
      rootDigits := (paddedRoot c d).digitList_lt c.m
      res := .of_width (one_le_getD hT (by omega)) hres rfl nofun
      root := .of_width hpos hroot rfl fun _ => Option.some.inj
      mc := .of_width (Nat.le_add_right_of_le ha.1) hmc rfl fun _ => Option.some.inj
      sref := .of_width hd.1 hd.2 rfl nofun
      practical := ?_
      unreported := fun _ => rfl }
  cases mode with
  | basic => exact ⟨rfl, rfl, rfl, rfl, rfl⟩
  | practical =>
    obtain ⟨hresp, hlqP⟩ := hwidthP rfl
    have hq : c.m * c.iterations .practical + 1 ≤ c.maxWidth := by omega
    have hd : c.m * c.iterations .practical + 2 ≤ c.maxWidth := by omega
    exact ⟨.of_width (one_le_getD hP (by omega)) hresp rfl nofun,
      .of_width (Nat.le_add_left 1 _) hq rfl fun _ => Option.some.inj,
      .of_width (Nat.le_add_left 1 _) hq rfl fun _ => Option.some.inj,
      .of_width (Nat.le_add_left 1 _) hd rfl fun _ => Option.some.inj,
      .of_width (Nat.le_add_left 1 _) hd rfl fun _ => Option.some.inj⟩

theorem State.Inv.startRun {s : State} {ra rb rd : Slot} {mode : EngineMode} {e : Engine} (hs : s.Inv)
    (h : s.startRun ra rb rd mode = .ok e) : RunOk s.cfg e := by
  simp only [State.startRun, bind_eq_ok, State.operand_eq_ok, return_eq_ok, Except.ok.injEq] at h
  obtain ⟨a, ha, b, -, d, hd, _, hchecks, rfl⟩ := h
  exact startEngine_runOk hs.cfg (hs.regs ra a ha) (hs.regs rd d hd) hchecks

/-! ### One iteration (R90 to R92, R99, R105) -/

theorem Engine.practicalRegs_eq_ok {e : Engine} {p : Practical} :
    e.practicalRegs = .ok p ↔
      e.resp = some p.resp ∧ e.q = some p.q ∧ e.qm = some p.qm ∧ e.d = some p.d ∧ e.dm = some p.dm := by
  obtain ⟨resp, q, qm, d, dm⟩ := p
  simp only [Engine.practicalRegs, bind_eq_ok, allocated_eq_ok, return_eq_ok, Except.ok.injEq, Practical.mk.injEq]
  constructor
  · rintro ⟨_, h1, _, h2, _, h3, _, h4, _, h5, rfl, rfl, rfl, rfl, rfl⟩
    exact ⟨h1, h2, h3, h4, h5⟩
  · rintro ⟨h1, h2, h3, h4, h5⟩
    exact ⟨_, h1, _, h2, _, h3, _, h4, _, h5, rfl, rfl, rfl, rfl, rfl⟩

theorem Engine.finish_report {c : Config} {e : Engine} {i : Nat} {digit : Int} {mc : Reg} {report : Report}
    (h : i ≠ e.total) : (Engine.finish c e i digit mc report).report = e.report := by
  rw [Engine.finish, if_neg h]

/-- An iteration that does not end its run leaves ESR's result bits alone (R92). -/
theorem Engine.iterate_report {c : Config} {e e' : Engine} (h : e.iterate c = .ok e')
    (hlast : e.eiter + 1 ≠ e.total) : e'.report = e.report := by
  simp only [Engine.iterate, bind_eq_ok] at h
  obtain ⟨_, -, res, -, root, -, mc, -, sref, -, h⟩ := h
  split at h
  · cases h
    exact Engine.finish_report hlast
  · simp only [bind_eq_ok, Engine.practicalIteration, return_eq_ok, Except.ok.injEq] at h
    obtain ⟨p, -, out, -, rfl⟩ := h
    exact Engine.finish_report hlast

/-- The practical registers of a practical iteration are those of the practical update (R99, R107). -/
theorem Engine.iterate_practicalRegs {c : Config} {e e' : Engine} (h : e.iterate c = .ok e')
    (hm : e.mode = .practical) :
    ∃ pp p p' digit, e.practicalRegs = .ok p ∧
      practicalUpdate c e.total e.k (e.eiter + 1) pp p = .ok (p', digit) ∧ e'.practicalRegs = .ok p' := by
  simp only [Engine.iterate, hm, bind_eq_ok, Engine.practicalIteration, return_eq_ok, Except.ok.injEq] at h
  obtain ⟨_, -, res, -, root, -, mc, -, sref, -, p, hp, ⟨p', digit⟩, hupdate, rfl⟩ := h
  refine ⟨_, p, p', digit, hp, hupdate, ?_⟩
  simp only [Engine.practicalRegs_eq_ok, Engine.finish_fields, and_self]

/-- A committed iteration keeps the shape of the practical registers (R30). -/
theorem PracticalOk.iterate {c : Config} {e e' : Engine} (hp : PracticalOk c e) (h : e.iterate c = .ok e') :
    PracticalOk c e' := by
  obtain ⟨-, htotal, hmode, -⟩ := Engine.iterate_progress h
  unfold PracticalOk at hp ⊢
  cases hm : e.mode with
  | basic =>
    obtain ⟨_, _, _, _, -, -, -, -, -, -, -, -, -, -, -, hbasic⟩ := Engine.iterate_track h
    obtain ⟨-, hresp, hq, hqm, hd, hdm⟩ := hbasic hm
    simpa only [hmode, hm, hresp, hq, hqm, hd, hdm] using hp
  | practical =>
    obtain ⟨pp, p, p', digit, hregs, hupdate, hregs'⟩ := Engine.iterate_practicalRegs h hm
    obtain ⟨hresp, hq, hqm, hd, hdm⟩ := Engine.practicalRegs_eq_ok.1 hregs
    obtain ⟨hresp', hq', hqm', hd', hdm'⟩ := Engine.practicalRegs_eq_ok.1 hregs'
    obtain ⟨wresp, sresp, wq, sq, wqm, sqm, wd, sd, wdm, sdm⟩ := practicalUpdate_widths hupdate
    simp only [hm, hresp, hq, hqm, hd, hdm] at hp
    obtain ⟨oresp, oq, oqm, od, odm⟩ := hp
    simp only [hmode, hm, htotal, hresp', hq', hqm', hd', hdm']
    exact ⟨oresp.of_shape wresp sresp, oq.of_shape (wq.trans oq.w_eq.symm) sq,
      oqm.of_shape (wqm.trans oqm.w_eq.symm) sqm, od.of_shape (wd.trans od.w_eq.symm) sd,
      odm.of_shape (wdm.trans odm.w_eq.symm) sdm⟩

/-- A committed iteration keeps what the invariant says of a run (R29, R30, R33). -/
theorem RunOk.iterate {c : Config} {e e' : Engine} (h : RunOk c e) (hi : e.iterate c = .ok e') : RunOk c e' := by
  obtain ⟨heiter, htotal, hmode, hactive, hlast, hmore⟩ := Engine.iterate_progress hi
  obtain ⟨res, root, mc, sref, hres, hroot, hmc, hsref, ⟨hres', hroot'⟩, hmc', hk, hbd, hsd, hwA, hsref', -⟩ :=
    Engine.iterate_track hi
  obtain ⟨-, hdone, hlt⟩ : e.active = true ∧ e.done = false ∧ e.eiter < e.total := by
    rcases h.phase with hphase | ⟨hidle, -⟩
    · exact hphase
    · rw [hactive] at hidle; cases hidle
  exact
    { radix := h.radix
      digitSet := hmode ▸ h.digitSet
      total_eq := by rw [htotal, hmode, h.total_eq]
      k_eq := by rw [hk, htotal, h.k_eq]
      phase := by
        by_cases hend : e.eiter + 1 = e.total
        · obtain ⟨hactive', hdone'⟩ := hlast hend
          exact .inr ⟨hactive', hdone', by omega⟩
        · obtain ⟨hactive', hdone'⟩ := hmore hend
          exact .inl ⟨hactive'.trans hactive, hdone'.trans hdone, by omega⟩
      multiplier := hbd ▸ h.multiplier
      rootDigits := hsd ▸ h.rootDigits
      res := hres' ▸ (hres ▸ h.res).of_shape rfl rfl
      root := by
        rw [htotal, hroot']
        exact (hroot ▸ h.root).of_shape rfl rfl
      mc := by
        rw [htotal, hwA, hmc']
        split <;> exact (hmc ▸ h.mc).of_shape rfl rfl
      sref := hsref' ▸ h.sref
      practical := h.practical.iterate hi
      unreported := fun hdone' => by
        have hend : e.eiter + 1 ≠ e.total := fun hend => by rw [(hlast hend).2] at hdone'; cases hdone'
        rw [Engine.iterate_report hi hend, h.unreported hdone] }

/-- However far a run gets, its engine keeps what the invariant says of it (R93). -/
theorem RunOk.runToEnd {c : Config} (fuel : Nat) {e : Engine} (h : RunOk c e) :
    RunOk c (Engine.runToEnd c fuel e).1 := by
  induction fuel generalizing e with
  | zero => exact h
  | succ fuel ih =>
    rw [Engine.runToEnd]
    split
    · split
      · next e' hi => exact ih (h.iterate hi)
      · exact h
    · exact h

/-- ESTEP answers only where a run has been started, and keeps the bounds of its engine (R90). -/
theorem Engine.Ok.iterate {c : Config} {e e' : Engine} (h : e.Ok c) (hi : e.iterate c = .ok e') : RunOk c e' := by
  rcases h with rfl | h
  · obtain ⟨-, -, -, hactive, -⟩ := Engine.iterate_progress hi
    cases hactive
  · exact h.iterate hi

end Sys2Proof.Machine
end

section
/-! PROOFS. What a command can do, said once for all of them: the one slot, buffer, engine or channel it may write, and
the one response it ends with (R15, R20, R27, R34, R35, R112). -/

namespace Sys2Proof.Machine

/-! ### What a command writes -/

/-- `u` is `s` with what the command `i` may write of it: nothing, its destination slot, RAND's slot and the random-bit
channel, the buffer of DIGITS, or the engine (R20, R27, R127). What is written is within the bounds of the invariant if
`s` is. -/
inductive Effect (i : Instr) (s : State) : State → Prop
  | unchanged : Effect i s s
  | write {rd : Slot} (o : Option Reg) (hrd : destination i = some rd) (ho : s.Inv → ∀ r, o = some r → r.Ok s.cfg) :
    Effect i s (s.setReg rd o)
  | random {rd : Slot} {r : Reg} (n : Nat) (b : BitVec r.w) (hi : i = .rand rd) (hr : s.reg rd = some r) :
    Effect i s ((s.skipBits n).setReg rd (some { r with bits := b }))
  | list {ds : StreamNo} (l : DigitList) (hds : destinationStream i = some ds) (hl : s.Inv → l.Ok s.cfg) :
    Effect i s (s.setStream ds l)
  | engine (e : Engine) (hi : drivesEngine i = true) (he : s.Inv → RunOk s.cfg e) : Effect i s { s with engine := e }

namespace Effect

variable {i : Instr} {s u : State} {rd : Slot}

/-- Every register a command writes that it has not created has the width of one it found allocated. -/
theorem of_width_eq {j : Slot} {r r' : Reg} (hrd : destination i = some rd) (hr : s.reg j = some r) (hw : r'.w = r.w) :
    Effect i s (s.setReg rd (some r')) :=
  .write _ hrd fun hs _ h => by
    cases h
    obtain ⟨hpos, hmax⟩ := hs.regs j r hr
    exact ⟨hw ▸ hpos, hw ▸ hmax⟩

/-- What no command writes (R7, R34, R112): the configuration, the command channel, the responses given, FSR. -/
theorem fields (h : Effect i s u) :
    u.cfg = s.cfg ∧ u.input = s.input ∧ u.responses = s.responses ∧ u.fsr = s.fsr := by
  cases h <;> exact ⟨rfl, rfl, rfl, rfl⟩

/-- A command writes no slot but its destination (R20). -/
theorem reg_eq (h : Effect i s u) {j : Slot} (hj : destination i ≠ some j) : u.reg j = s.reg j := by
  cases h with
  | write o hrd => exact s.reg_setReg_ne o fun hjr => hj (hjr ▸ hrd)
  | random n b hi => exact State.reg_setReg_ne _ _ fun hjr => hj (by rw [hi, hjr]; rfl)
  | _ => rfl

/-- A command writes no buffer but the one DIGITS names (R27). -/
theorem stream_eq (h : Effect i s u) {k : StreamNo} (hk : destinationStream i ≠ some k) : u.stream k = s.stream k := by
  cases h with
  | list l hds => exact s.stream_setStream_ne l fun hkd => hk (hkd ▸ hds)
  | _ => rfl

/-- Only ESTART, ESTEP and ERUN change the engine (R127). -/
theorem engine_eq (h : Effect i s u) (hi : drivesEngine i = false) : u.engine = s.engine := by
  cases h with
  | engine e hd => rw [hd] at hi; cases hi
  | _ => rfl

/-- Only RAND draws random bits (R34, R36). -/
theorem randomBits_eq (h : Effect i s u) (hi : ∀ rd, i ≠ .rand rd) :
    u.randomBits = s.randomBits ∧ u.furtherDrawn = s.furtherDrawn := by
  cases h with
  | random n b hrand => exact absurd hrand (hi _)
  | _ => exact ⟨rfl, rfl⟩

end Effect

/-- Writing a slot within the bounds keeps the invariant. -/
theorem State.Inv.setReg {s : State} {rd : Slot} {o : Option Reg} (hs : s.Inv) (ho : ∀ r, o = some r → r.Ok s.cfg) :
    (s.setReg rd o).Inv where
  cfg := hs.cfg
  regs j r hr := by
    rw [State.reg_setReg] at hr
    split at hr
    · exact ho r hr
    · exact hs.regs j r hr
  streams := hs.streams
  engine := hs.engine

/-- Writing a buffer within the bounds keeps the invariant. -/
theorem State.Inv.setStream {s : State} {ds : StreamNo} {l : DigitList} (hs : s.Inv) (hl : l.Ok s.cfg) :
    (s.setStream ds l).Inv where
  cfg := hs.cfg
  regs := hs.regs
  streams k l' h := by
    by_cases hk : k = ds
    · subst hk
      rw [State.stream_setStream_same] at h
      cases h
      exact hl
    · rw [State.stream_setStream_ne s l hk] at h
      exact hs.streams k l' h
  engine := hs.engine

/-- The channels and FSR play no part in the invariant. -/
theorem State.Inv.skipBits {s : State} (hs : s.Inv) (n : Nat) : (s.skipBits n).Inv :=
  ⟨hs.cfg, hs.regs, hs.streams, hs.engine⟩

theorem State.Inv.respond {s : State} (hs : s.Inv) (r : Response) : (s.respond r).Inv :=
  ⟨hs.cfg, hs.regs, hs.streams, hs.engine⟩

theorem State.Inv.takeFault {s : State} (hs : s.Inv) (fop : BitVec 6) (c : Cause) : (s.takeFault fop c).Inv :=
  ⟨hs.cfg, hs.regs, hs.streams, hs.engine⟩

theorem Effect.inv {i : Instr} {s u : State} (h : Effect i s u) (hs : s.Inv) : u.Inv := by
  cases h with
  | unchanged => exact hs
  | write o hrd ho => exact hs.setReg (ho hs)
  | random n b hi hr =>
    have hok : Reg.Ok s.cfg _ := hs.regs _ _ hr
    refine (hs.skipBits n).setReg fun r' h => ?_
    cases h
    exact hok
  | list l hds hl => exact hs.setStream (hl hs)
  | engine e hi he => exact ⟨hs.cfg, hs.regs, hs.streams, .inr (he hs)⟩

/-! ### How a command ends -/

/-- The commands whose response has a value (R35). -/
def answersValue (i : Instr) : Prop := i.opcode ∈ [Opcode.rdst, .rdw, .cmp, .cmpc, .dread, .rdcsr]

/-- The state in which the command `i` ends, with its one response: refused in the FAULTED state; or, with no other
effect, answered by a value; or, after what it writes, completed or faulted (R35, R112). -/
inductive Ends (i : Instr) (s : State) : State → Prop
  | refused (hf : s.fsr ≠ none) : Ends i s (s.respond refusedResponse)
  | answered (v : Word) (hi : answersValue i) : Ends i s (s.respond (okResponse v))
  | completed {u : State} (hf : s.fsr = none) (hu : Effect i s u) : Ends i s (u.respond (okResponse 0))
  | faulted {u : State} (c : Cause) (hf : s.fsr = none) (hu : Effect i s u) : Ends i s (u.takeFault i.opcode.code c)

namespace Ends

variable {i : Instr} {s t : State} {body : Except Cause (State × Word)}

/-- A command built by `command` that answers no value ends so if its rule, where it completes, does no more than its
effect. -/
theorem of_effect (h : s.command i.opcode body = .next t)
    (hok : ∀ u v, body = .ok (u, v) → Effect i s u ∧ 0 = v) : Ends i s t := by
  rcases State.command_cases h with ⟨hf, rfl⟩ | ⟨hf, u, v, hbody, rfl⟩ | ⟨hf, c, -, rfl⟩
  · exact .refused hf
  · obtain ⟨hu, rfl⟩ := hok u v hbody
    exact .completed hf hu
  · exact .faulted c hf .unchanged

/-- A command built by `command` that answers a value ends so if its rule has no effect. -/
theorem of_value (hi : answersValue i) (h : s.command i.opcode body = .next t)
    (hok : ∀ u v, body = .ok (u, v) → s = u) : Ends i s t := by
  rcases State.command_cases h with ⟨hf, rfl⟩ | ⟨hf, u, v, hbody, rfl⟩ | ⟨hf, c, -, rfl⟩
  · exact .refused hf
  · obtain rfl := hok u v hbody
    exact .answered v hi
  · exact .faulted c hf .unchanged

theorem of_rand {rd : Slot} (h : execRand rd s = .next t) : Ends (.rand rd) s t := by
  rcases execRand_cases h with ⟨hf, rfl⟩ | ⟨hf, -, rfl⟩ | ⟨hf, r, b, u, hr, hp, rfl⟩
  · exact .refused hf
  · exact .faulted _ hf .unchanged
  · obtain ⟨n, rfl⟩ := State.randomPattern_channel hp
    exact .completed hf (.random n b rfl hr)

theorem of_erun {ra rb rd : Slot} {mode : EngineMode} (h : execErun ra rb rd mode s = .next t) :
    Ends (.erun ra rb rd mode) s t := by
  rcases execErun_cases h with ⟨hf, rfl⟩ | ⟨hf, c, -, rfl⟩ | ⟨hf, e, e', he, hrun⟩
  · exact .refused hf
  · exact .faulted c hf .unchanged
  · have heffect : Effect (.erun ra rb rd mode) s { s with engine := (Engine.runToEnd s.cfg e.total e).1 } :=
      .engine _ rfl fun hs => (hs.startRun he).runToEnd e.total
    rcases hrun with ⟨hrun, rfl⟩ | ⟨c, hrun, rfl⟩ <;> rw [hrun] at heffect
    · exact .completed hf heffect
    · exact .faulted c hf heffect

/-- A command ends in the state of its effect, with a response or a fault; in the FAULTED state with a response alone
(R112). -/
theorem effect (h : Ends i s t) :
    ∃ u, Effect i s u ∧ (s.fsr ≠ none → ∃ r, t = s.respond r) ∧
      ((∃ r, t = u.respond r) ∨ ∃ fop c, t = u.takeFault fop c) := by
  cases h with
  | refused hf => exact ⟨s, .unchanged, fun _ => ⟨_, rfl⟩, .inl ⟨_, rfl⟩⟩
  | answered v => exact ⟨s, .unchanged, fun _ => ⟨_, rfl⟩, .inl ⟨_, rfl⟩⟩
  | completed hf hu => exact ⟨_, hu, fun hs => absurd hf hs, .inl ⟨_, rfl⟩⟩
  | faulted c hf hu => exact ⟨_, hu, fun hs => absurd hf hs, .inr ⟨_, c, rfl⟩⟩

end Ends

/-- The list that DIGITS builds is within the bounds of a buffer (R27, R85). -/
theorem Reg.digitList_ok {c : Config} {r : Reg} {bpd : Nat} (hr : r.Ok c) (hb : 1 ≤ bpd ∧ bpd ≤ 63)
    (hmax : digitCount r.w bpd ≤ c.maxDigits) : (r.digitList bpd).Ok c := by
  obtain ⟨hb1, hb63⟩ := hb
  rw [DigitList.Ok, Reg.digitList_count]
  refine ⟨?_, hmax, fun x hx => (r.digitList_lt bpd x hx).trans_le (Nat.pow_le_pow_right (by omega) hb63)⟩
  by_contra hzero
  obtain ⟨hle, -⟩ := digitCount_bounds r.w bpd hb1
  obtain ⟨hpos, -⟩ := hr
  rw [show digitCount r.w bpd = 0 by omega] at hle
  omega

/-- Every command ends in one of the ways of `Ends`. -/
theorem exec_ends {i : Instr} {s t : State} (h : exec i s = .next t) : Ends i s t := by
  cases i
  case rand => exact .of_rand h
  case erun => exact .of_erun h
  case rdcsr => cases h; exact .answered _ (by simp [answersValue, Instr.opcode])
  case rdst | rdw | cmpc =>
    refine .of_value (by simp [answersValue, Instr.opcode]) h fun u v hbody => ?_
    simp only [bind_eq_ok, return_eq_ok, Except.ok.injEq, Prod.mk.injEq] at hbody
    obtain ⟨_, -, rfl, -⟩ := hbody
    rfl
  case cmp | dread =>
    refine .of_value (by simp [answersValue, Instr.opcode]) h fun u v hbody => ?_
    simp only [bind_eq_ok, return_eq_ok, Except.ok.injEq, Prod.mk.injEq] at hbody
    obtain ⟨_, -, _, -, rfl, -⟩ := hbody
    rfl
  all_goals
    refine .of_effect h fun u v hbody => ?_
    simp only [bind_eq_ok, require_eq_ok, State.freeSlot_eq_ok, State.operand_eq_ok, allocated_eq_ok, exists_const,
      return_eq_ok, Except.ok.injEq, Prod.mk.injEq] at hbody
  case create =>
    obtain ⟨-, hpos, hmax, rfl, hv⟩ := hbody
    refine ⟨.write _ rfl fun hs r hr => ?_, hv⟩
    cases hr
    exact ⟨Nat.one_le_iff_ne_zero.2 hpos, hmax⟩
  case free =>
    obtain ⟨_, -, rfl, hv⟩ := hbody
    exact ⟨.write none rfl (fun _ _ h => nomatch h), hv⟩
  case eget =>
    obtain ⟨-, _, hreg, rfl, hv⟩ := hbody
    refine ⟨.write _ rfl fun hs r hr => ?_, hv⟩
    cases hr
    exact hs.engine.register hreg
  case digits =>
    obtain ⟨a, ha, hb, hmax, rfl, hv⟩ := hbody
    exact ⟨.list _ rfl fun hs => Reg.digitList_ok (hs.regs _ a ha) hb hmax, hv⟩
  case estart =>
    obtain ⟨e, he, rfl, hv⟩ := hbody
    exact ⟨.engine e rfl fun hs => hs.startRun he, hv⟩
  case estep =>
    obtain ⟨e, he, rfl, hv⟩ := hbody
    exact ⟨.engine e rfl fun hs => hs.engine.iterate he, hv⟩
  case setsign | lsl | lsr =>
    obtain ⟨_, hr, rfl, hv⟩ := hbody
    exact ⟨.of_width_eq rfl hr rfl, hv⟩
  case dup | abs | neg | loadc =>
    obtain ⟨_, hr, -, rfl, hv⟩ := hbody
    exact ⟨.of_width_eq rfl hr rfl, hv⟩
  case isqrt =>
    obtain ⟨_, hr, -, -, rfl, hv⟩ := hbody
    exact ⟨.of_width_eq rfl hr rfl, hv⟩
  case add | sub | extract =>
    obtain ⟨_, -, _, hr, -, rfl, hv⟩ := hbody
    exact ⟨.of_width_eq rfl hr rfl, hv⟩
  case load =>
    obtain ⟨_, -, _, hr, -, -, rfl, hv⟩ := hbody
    exact ⟨.of_width_eq rfl hr rfl, hv⟩
  case mul =>
    obtain ⟨_, -, _, -, _, hr, -, -, rfl, hv⟩ := hbody
    exact ⟨.of_width_eq rfl hr rfl, hv⟩

end Sys2Proof.Machine
end

section
/-! PROOFS. Scope: the machine's state (R20 to R38): the frame of a command, its response, the invariant. -/

namespace Sys2Proof.Machine

/-! ### The invariant -/

/-- Every command keeps the invariant. -/
theorem Ends.inv {i : Instr} {s t : State} (h : Ends i s t) (hs : s.Inv) : t.Inv := by
  cases h with
  | refused => exact hs.respond _
  | answered v => exact hs.respond _
  | completed hf hu => exact (hu.inv hs).respond _
  | faulted c hf hu => exact (hu.inv hs).takeFault _ c

/-- The invariant holds of every reset state of a legal configuration (R38). -/
theorem inv_resetWith {c : Config} (hc : c.wf = true) : (State.resetWith c).Inv where
  cfg := hc
  regs i r h := by simp at h
  streams k l h := by simp at h
  engine := .inl rfl

theorem State.Inv.hostReset {s : State} (hs : s.Inv) : s.hostReset.Inv := by
  obtain ⟨hcfg, hregs, hstreams, hengine⟩ := inv_resetWith hs.cfg
  exact ⟨hcfg, hregs, hstreams, hengine⟩

/-- Taking words off the channel keeps the invariant. -/
theorem State.Inv.input {s : State} (hs : s.Inv) (rest : List HostEvent) : ({ s with input := rest } : State).Inv :=
  ⟨hs.cfg, hs.regs, hs.streams, hs.engine⟩

theorem State.Inv.runCommand {s t : State} {w x : Word} (hs : s.Inv) (h : runCommand w x s = .next t) : t.Inv := by
  rcases runCommand_cases h with ⟨i, -, hexec⟩ | ⟨e, -, hreject⟩
  · exact (exec_ends hexec).inv hs
  · rcases rejectCommand_cases w e s with ⟨-, hr⟩ | ⟨-, hr⟩ <;> rw [hr] at hreject <;> cases hreject
    · exact hs.respond _
    · exact hs.takeFault _ _

/-- A fetched command leaves the state but for the channel. -/
theorem fetch_command_eq {s u : State} {w x : Word} (h : fetch s = .command w x u) :
    ∃ rest, u = { s with input := rest } := by
  rcases fetch_cases s with ⟨-, hf⟩ | ⟨_, -, hf⟩ | ⟨_, rest, -, -, hf⟩ | ⟨_, _, rest, -, -, hf⟩ | ⟨_, -, -, hf⟩ |
      ⟨_, _, -, -, hf⟩ <;> rw [hf] at h <;> cases h <;> exact ⟨rest, rfl⟩

/-- Settles O17: waiting, a reset, and a command, decoded or rejected, each keep the invariant. -/
theorem stepKeepsInvariant : Obligations.StepKeepsInvariant := by
  intro s t hs h
  rcases step_cases h with rfl | ⟨rest, -, rfl⟩ | ⟨w, x, u, hfetch, hrun⟩
  · exact hs
  · exact (hs.input rest).hostReset
  · obtain ⟨rest, rfl⟩ := fetch_command_eq hfetch
    exact (hs.input rest).runCommand hrun

/-- Settles O16: every slot and buffer is free and the engine idle. -/
theorem invariantHoldsAtReset : Obligations.InvariantHoldsAtReset :=
  ⟨fun _ => inv_resetWith, inv_resetWith (by decide)⟩

/-! ### The frame of a command -/

/-- Settles O13: each item is framed by what the command's effect may write. -/
theorem commandFrame : Obligations.CommandFrame := by
  intro i s t h
  obtain ⟨u, hu, hfaulted, ht⟩ := (exec_ends h).effect
  obtain ⟨hcfg, hinput, -, -⟩ := hu.fields
  have hframe : s.fsr ≠ none →
      t.fsr = s.fsr ∧ (∀ j, t.reg j = s.reg j) ∧ (∀ k, t.stream k = s.stream k) ∧ t.engine = s.engine := by
    intro hf
    obtain ⟨r, rfl⟩ := hfaulted hf
    exact ⟨rfl, fun _ => rfl, fun _ => rfl, rfl⟩
  rcases ht with ⟨r, rfl⟩ | ⟨fop, c, rfl⟩ <;>
    exact ⟨hcfg, hinput, fun _ => hu.reg_eq, fun _ => hu.stream_eq, hu.engine_eq, hu.randomBits_eq, hframe⟩

/-! ### The response (R35) -/

/-- Two fields of a word that do not overlap add up. -/
theorem toNat_or_shiftLeft {x y : Word} {k n : Nat} (hx : x.toNat < 2 ^ k) (hy : y.toNat < 2 ^ n) (hk : k + n ≤ 64) :
    (x ||| (y <<< k)).toNat = x.toNat + y.toNat * 2 ^ k := by
  have hlt : y.toNat * 2 ^ k < 2 ^ 64 := calc
    y.toNat * 2 ^ k < 2 ^ n * 2 ^ k := Nat.mul_lt_mul_of_pos_right hy (by positivity)
    _ = 2 ^ (k + n) := by rw [← pow_add, Nat.add_comm]
    _ ≤ 2 ^ 64 := Nat.pow_le_pow_right (by norm_num) hk
  rw [BitVec.toNat_or, BitVec.toNat_shiftLeft, Nat.shiftLeft_eq, Nat.mod_eq_of_lt hlt, Nat.or_comm, Nat.mul_comm,
    ← Nat.two_pow_add_eq_or_of_lt hx, Nat.add_comm]

/-- RESP0 is STATUS + 256·CODE (R35). -/
theorem Response.resp0_toNat (r : Response) : r.resp0.toNat = r.status.code.toNat + 256 * r.code.toNat := by
  have hstatus : r.status.code.toNat < 2 ^ 8 := by cases r.status <;> decide
  have hcode : (r.code.setWidth 64).toNat = r.code.toNat := BitVec.toNat_setWidth_of_le (by norm_num)
  rw [Response.resp0, toNat_or_shiftLeft hstatus (hcode ▸ r.code.isLt) (by norm_num), hcode]
  omega

/-- From `s` to `t` the core has given the one response `r`: its CODE is that of the fault FSR records, and its VALUE is
0 unless it is OK (R35). -/
structure Responds (s t : State) (r : Response) : Prop where
  responses : t.responses = s.responses ++ [r]
  code_eq_zero : r.status ≠ .fault → r.code = 0
  code_eq_cause : r.status = .fault → ∃ f, t.fsr = some f ∧ r.code = f.cause.code
  value_eq_zero : r.status ≠ .ok → r.value = 0

namespace Responds

variable {s u : State}

theorem ok (v : Word) (h : u.responses = s.responses) : Responds s (u.respond (okResponse v)) (okResponse v) :=
  ⟨by rw [State.respond_responses, h], fun _ => rfl, nofun, fun h => absurd rfl h⟩

theorem refused : Responds s (s.respond refusedResponse) refusedResponse :=
  ⟨rfl, fun _ => rfl, nofun, fun _ => rfl⟩

theorem fault (fop : BitVec 6) (c : Cause) (h : u.responses = s.responses) :
    Responds s (u.takeFault fop c) ⟨.fault, c.code, 0⟩ :=
  ⟨by rw [State.takeFault_responses, h], fun h => absurd rfl h, fun _ => ⟨_, rfl, rfl⟩, fun _ => rfl⟩

end Responds

/-- Every command ends with one response, of value 0 unless it is one whose rule gives a value. -/
theorem Ends.responds {i : Instr} {s t : State} (h : Ends i s t) :
    ∃ r, Responds s t r ∧ (¬answersValue i → r.value = 0) := by
  cases h with
  | refused => exact ⟨_, .refused, fun _ => rfl⟩
  | answered v hi => exact ⟨_, .ok v rfl, fun hn => absurd hi hn⟩
  | completed hf hu =>
    obtain ⟨-, -, hresponses, -⟩ := hu.fields
    exact ⟨_, .ok 0 hresponses, fun _ => rfl⟩
  | faulted c hf hu =>
    obtain ⟨-, -, hresponses, -⟩ := hu.fields
    exact ⟨_, .fault _ c hresponses, fun _ => rfl⟩

/-- Words that are not an instruction are rejected with one response of value 0 (R58, R112). -/
theorem rejectCommand_responds {w : Word} {e : DecodeError} {s t : State} (h : rejectCommand w e s = .next t) :
    ∃ r, Responds s t r ∧ r.value = 0 := by
  rcases rejectCommand_cases w e s with ⟨-, hr⟩ | ⟨-, hr⟩ <;> rw [hr] at h <;> cases h
  · exact ⟨_, .refused, rfl⟩
  · exact ⟨_, .fault _ _ rfl, rfl⟩

/-- Settles O11: an instruction responds as its end says, other words as their rejection does. -/
theorem oneResponsePerCommand : Obligations.OneResponsePerCommand := by
  intro w x s t h
  obtain ⟨r, hr, hvalue⟩ : ∃ r, Responds s t r ∧ ∀ i, decode w x = .ok i → ¬answersValue i → r.value = 0 := by
    rcases runCommand_cases h with ⟨i, hdecode, hexec⟩ | ⟨e, -, hreject⟩
    · obtain ⟨r, hr, hvalue⟩ := (exec_ends hexec).responds
      refine ⟨r, hr, fun i' hdecode' => ?_⟩
      rw [hdecode] at hdecode'
      cases hdecode'
      exact hvalue
    · obtain ⟨r, hr, hvalue⟩ := rejectCommand_responds hreject
      exact ⟨r, hr, fun _ _ _ => hvalue⟩
  obtain ⟨hresponses, hcode, hcause, hzero⟩ := hr
  refine ⟨r, hresponses, hcode, hcause, hzero, hvalue, ?_, rfl⟩
  rw [Response.resp0_toNat]
  cases r.status <;> rfl

/-! ### FSR and ESR (R32, R33) -/

/-- FSR's three fields (R32). -/
theorem fsrWord_toNat (f : FaultRecord) :
    (fsrWord (some f)).toNat = 1 + f.cause.code.toNat * 2 ^ 8 + f.fop.toNat * 2 ^ 16 := by
  have hcause : (f.cause.code.setWidth 64).toNat = f.cause.code.toNat := BitVec.toNat_setWidth_of_le (by norm_num)
  have hfop : (f.fop.setWidth 64).toNat = f.fop.toNat := BitVec.toNat_setWidth_of_le (by norm_num)
  have hlt := f.cause.code.isLt
  have hlow : (1 ||| (f.cause.code.setWidth 64 <<< 8) : Word).toNat = 1 + f.cause.code.toNat * 2 ^ 8 := by
    rw [toNat_or_shiftLeft (n := 8) (by decide) (hcause ▸ hlt) (by norm_num), hcause]
    rfl
  rw [fsrWord, toNat_or_shiftLeft (n := 6) (by omega) (hfop ▸ f.fop.isLt) (by norm_num), hlow, hfop]

/-- Settles O59: FSR by its fields, and the code of each cause. -/
theorem fsrLayout : Obligations.FsrLayout := by
  refine ⟨fun s => ⟨fun h => ?_, fun f h => ?_⟩, rfl⟩
  · rw [State.csr, h, fsrWord]
  · rw [State.csr, h, fsrWord_toNat]

/-- A one-bit field above a word's bits adds its weight, and is then the word's top bit. -/
theorem toNat_or_bitField {x : Word} {k : Nat} (b : Bool) (hx : x.toNat < 2 ^ k) (hk : k < 64) :
    (x ||| bitField b k).toNat = x.toNat + b.toNat * 2 ^ k ∧ (x ||| bitField b k).toNat < 2 ^ (k + 1) := by
  have hb : ((BitVec.ofBool b).setWidth 64).toNat = b.toNat := by cases b <;> rfl
  have hle := b.toNat_le
  have hsum : (x ||| bitField b k).toNat = x.toNat + b.toNat * 2 ^ k := by
    rw [bitField, toNat_or_shiftLeft (n := 1) hx (by omega) hk, hb]
  refine ⟨hsum, ?_⟩
  rw [hsum, pow_succ]
  nlinarith [Nat.two_pow_pos k]

/-- ESR's nine fields (R33). -/
theorem Engine.esr_toNat (e : Engine) :
    e.esr.toNat =
      e.active.toNat + e.done.toNat * 2 + (if e.mode = .practical then 4 else 0) + e.report.resZero.toNat * 8 +
        e.report.rootOk.toNat * 16 + e.report.resOvf.toNat * 32 + e.report.resUnf.toNat * 64 +
        e.report.theoZero.toNat * 128 + e.report.theoRootOk.toNat * 256 := by
  have hactive : (bitField e.active 0).toNat = e.active.toNat := by cases e.active <;> rfl
  have hmode : (if e.mode = .practical then 4 else 0) = (e.mode == .practical).toNat * 2 ^ 2 := by
    cases e.mode <;> rfl
  obtain ⟨h1, lt1⟩ := toNat_or_bitField (k := 1) e.done (x := bitField e.active 0)
    (by rw [hactive]; exact e.active.toNat_lt) (by norm_num)
  obtain ⟨h2, lt2⟩ := toNat_or_bitField (e.mode == .practical) lt1 (by norm_num)
  obtain ⟨h3, lt3⟩ := toNat_or_bitField e.report.resZero lt2 (by norm_num)
  obtain ⟨h4, lt4⟩ := toNat_or_bitField e.report.rootOk lt3 (by norm_num)
  obtain ⟨h5, lt5⟩ := toNat_or_bitField e.report.resOvf lt4 (by norm_num)
  obtain ⟨h6, lt6⟩ := toNat_or_bitField e.report.resUnf lt5 (by norm_num)
  obtain ⟨h7, lt7⟩ := toNat_or_bitField e.report.theoZero lt6 (by norm_num)
  obtain ⟨h8, -⟩ := toNat_or_bitField e.report.theoRootOk lt7 (by norm_num)
  rw [Engine.esr, hmode]
  simp only [Nat.reduceAdd] at h1 h2 h3 h4 h5 h6 h7 h8
  omega

/-- Settles O60: the fields of ESR, and the invariant's word on a run that is not done. -/
theorem esrLayout : Obligations.EsrLayout := by
  intro s
  refine ⟨s.engine.esr_toNat, fun hs hdone => ?_⟩
  have hactive := s.engine.active.toNat_le
  rw [State.csr, Engine.esr_toNat, hdone, hs.engine.report_eq hdone]
  simp only [Bool.toNat_false]
  split <;> omega

/-! ### The step (R51, R124) -/

theorem twoWords_eq_false {op : BitVec 6} : twoWords op = false ↔ op ≠ 0x0B ∧ op ≠ 0x0F := by
  simp [twoWords]

theorem twoWords_eq_true {op : BitVec 6} : twoWords op = true ↔ op = 0x0B ∨ op = 0x0F := by
  simp [twoWords]

theorem runCommand_of_decode {w x : Word} {i : Instr} (h : decode w x = .ok i) (s : State) :
    runCommand w x s = exec i s := by
  simp only [runCommand, h]

/-- Settles O5: OP alone says how many words are taken off. -/
theorem stepRunsDecodedInstruction : Obligations.StepRunsDecodedInstruction := by
  intro s w x rest
  constructor
  · intro hinput hB hF
    have hstep : step s = runCommand w 0 { s with input := rest } := by
      simp only [step, fetch, hinput, twoWords_eq_false.2 ⟨hB, hF⟩, Bool.false_eq_true, if_false]
    exact ⟨hstep, fun i hi => hstep.trans (runCommand_of_decode hi _)⟩
  · intro hinput hop
    have hstep : step s = runCommand w x { s with input := rest } := by
      simp only [step, fetch, hinput, twoWords_eq_true.2 hop, if_true]
    exact ⟨hstep, fun i hi => hstep.trans (runCommand_of_decode hi _)⟩

/-- Every CSR reads 0 after reset (R38). -/
theorem State.csr_hostReset (s : State) (c : Csr) : s.hostReset.csr c = 0 := by
  have hesr : Engine.reset.esr = 0 := by decide
  cases c with
  | esr => exact hesr
  | _ => rfl

theorem Engine.register_reset (sel : EngineSel) : Engine.reset.register sel = none := by
  cases sel <;> rfl

/-- Settles O7: the step is the reset of the state with the request taken off the channel. -/
theorem hostResetClearsCore : Obligations.HostResetClearsCore := by
  intro s rest hinput
  have hstep : step s = .next ({ s with input := rest } : State).hostReset := by simp only [step, fetch, hinput]
  exact ⟨_, hstep, State.reg_hostReset _, State.stream_hostReset _, rfl, rfl, rfl, rfl, rfl, rfl, rfl, rfl, rfl, rfl,
    rfl, Engine.register_reset, State.csr_hostReset _, rfl, rfl, rfl, rfl⟩

end Sys2Proof.Machine
end

section
/-! PROOFS. Scope: the encoding of commands (R51 to R60): the decoder and the encoder are inverse on every command, and
words that are no instruction fault. -/

namespace Sys2Proof

/-! ### Tables of codes (R30, R31, R57) -/

/-- Looking a code up in a table finds exactly the row with that code, if it finds each row by its own code. -/
theorem find?_code_eq_some {α : Type} {n : Nat} {code : α → BitVec n} {rows : List α} {b : BitVec n} {v : α}
    (hrows : ∀ v, rows.find? (fun r => code r == code v) = some v) :
    rows.find? (fun r => code r == b) = some v ↔ code v = b := by
  constructor
  · intro h
    simpa using List.find?_some h
  · rintro rfl
    exact hrows v

theorem Opcode.ofCode_eq_some {b : BitVec 6} {o : Opcode} : Opcode.ofCode b = some o ↔ o.code = b :=
  find?_code_eq_some fun o => by cases o <;> rfl

theorem selOf_eq_some {b : BitVec 8} {sel : EngineSel} : selOf b = some sel ↔ sel.code = b :=
  find?_code_eq_some fun sel => by cases sel <;> rfl

theorem csrOf_eq_some {b : BitVec 8} {c : Csr} : csrOf b = some c ↔ c.code = b :=
  find?_code_eq_some fun c => by cases c <;> rfl

/-! ### Operand fields (R53, R54) -/

@[simp] theorem slotOf_slotField (r : Slot) : slotOf (slotField r) = r := by
  simp [slotOf, slotField]

@[simp] theorem slotField_slotOf (b : BitVec 5) : slotField (slotOf b) = b := by
  simp [slotOf, slotField]

theorem streamOf_eq_some {b : BitVec 5} {k : StreamNo} : streamOf b = some k ↔ streamField k = b := by
  constructor
  · intro h
    obtain ⟨hlt, hk⟩ := Option.dite_none_right_eq_some.1 h
    cases hk
    simp [streamField]
  · rintro rfl
    fin_cases k <;> rfl

theorem signOf_eq_some {b : BitVec 8} {s : Bool} : signOf b = some s ↔ signField s = b := by
  constructor
  · intro h
    unfold signOf at h
    split_ifs at h with h0 h1 <;> cases h
    · exact h0.symm
    · exact h1.symm
  · rintro rfl
    cases s <;> rfl

theorem modeOf_eq_some {b : BitVec 8} {m : EngineMode} : modeOf b = some m ↔ modeField m = b := by
  constructor
  · intro h
    unfold modeOf at h
    split_ifs at h with h0 h1 <;> cases h
    · exact h0.symm
    · exact h1.symm
  · rintro rfl
    cases m <;> rfl

/-- A field reads as nothing above the greatest code of what it may read as. -/
theorem eq_none_of_code_le {α : Type} {n top : Nat} {read : BitVec n → Option α} {code : α → BitVec n} {b : BitVec n}
    (hread : ∀ v, read b = some v → code v = b) (hcode : ∀ v, (code v).toNat ≤ top) (hb : top < b.toNat) :
    read b = none :=
  Option.eq_none_iff_forall_ne_some.2 fun v hv => (hcode v).not_gt (hread v hv ▸ hb)

theorem signOf_eq_none {b : BitVec 8} (hb : 1 < b.toNat) : signOf b = none :=
  eq_none_of_code_le (fun _ => signOf_eq_some.1) (fun s => by cases s <;> decide) hb

theorem streamOf_eq_none {b : BitVec 5} (hb : 3 < b.toNat) : streamOf b = none :=
  dif_neg (by omega)

theorem modeOf_eq_none {b : BitVec 8} (hb : 1 < b.toNat) : modeOf b = none :=
  eq_none_of_code_le (fun _ => modeOf_eq_some.1) (fun m => by cases m <;> decide) hb

theorem selOf_eq_none {b : BitVec 8} (hb : 8 < b.toNat) : selOf b = none :=
  eq_none_of_code_le (fun _ => selOf_eq_some.1) (fun sel => by cases sel <;> decide) hb

theorem csrOf_eq_none {b : BitVec 8} (hb : 4 < b.toNat) : csrOf b = none :=
  eq_none_of_code_le (fun _ => csrOf_eq_some.1) (fun c => by cases c <;> decide) hb

/-! ### Immediates (R56) -/

@[simp] theorem isU32_toNat (b : BitVec 32) : isU32 b.toNat = true := decide_eq_true b.isLt

@[simp] theorem isU8_toNat (b : BitVec 8) : isU8 b.toNat = true := decide_eq_true b.isLt

@[simp] theorem isS32_toInt (b : BitVec 32) : isS32 b.toInt = true :=
  Bool.and_eq_true_iff.2 ⟨decide_eq_true b.le_toInt, decide_eq_true b.toInt_lt⟩

@[simp] theorem isS64_toInt (b : Word) : isS64 b.toInt = true :=
  Bool.and_eq_true_iff.2 ⟨decide_eq_true b.le_toInt, decide_eq_true b.toInt_lt⟩

theorem toNat_ofNat_of_isU32 {v : Nat} (h : isU32 v = true) : (BitVec.ofNat 32 v).toNat = v :=
  Nat.mod_eq_of_lt (of_decide_eq_true h)

theorem toNat_ofNat_of_isU8 {v : Nat} (h : isU8 v = true) : (BitVec.ofNat 8 v).toNat = v :=
  Nat.mod_eq_of_lt (of_decide_eq_true h)

theorem toInt_ofInt_of_isS32 {v : Int} (h : isS32 v = true) : (BitVec.ofInt 32 v).toInt = v := by
  obtain ⟨hle, hlt⟩ := Bool.and_eq_true_iff.1 h
  exact BitVec.toInt_ofInt_eq_self (by norm_num) (of_decide_eq_true hle) (of_decide_eq_true hlt)

theorem toInt_ofInt_of_isS64 {v : Int} (h : isS64 v = true) : (BitVec.ofInt 64 v).toInt = v := by
  obtain ⟨hle, hlt⟩ := Bool.and_eq_true_iff.1 h
  exact BitVec.toInt_ofInt_eq_self (by norm_num) (of_decide_eq_true hle) (of_decide_eq_true hlt)

/-! ### What the decoder accepts (R53, R54, R57, R58) -/

/-- Packing an unpacked word gives it back: the seven fields are all of its bits (R52). -/
theorem Header.pack_unpack (h : Word) : (Header.unpack h).pack = h := by
  simp only [Header.pack, Header.unpack]
  iterate 6 rw [BitVec.extractLsb'_append_extractLsb'_eq_extractLsb' (by rfl)]
  exact BitVec.extractLsb'_eq_self

theorem Header.unusedZero_iff {u : FieldUse} {f : Header} :
    f.unusedZero u = true ↔ (u.rd = false → f.rd = 0) ∧ (u.ra = false → f.ra = 0) ∧ (u.rb = false → f.rb = 0) ∧
      (u.imm8 = false → f.imm8 = 0) ∧ (u.imm32 = false → f.imm32 = 0) := by
  simp [Header.unusedZero, and_assoc, or_iff_not_imp_left]

/-- The header fields `f` keep R53 for a command of row `o`. -/
structure Header.Fits (f : Header) (o : Opcode) : Prop where
  op : o.code = f.op
  rsv : f.rsv = 0
  unused : f.unusedZero o.uses = true

/-- A command decodes to `i` just when its header keeps R53 for some row and `i` is read from that row's operands. -/
theorem decode_eq_ok {h x : Word} {i : Instr} :
    decode h x = .ok i ↔ ∃ o, (Header.unpack h).Fits o ∧ operands (Header.unpack h) x o = some i := by
  constructor
  · intro hdecode
    simp only [decode] at hdecode
    split at hdecode
    · cases hdecode
    · next o ho =>
      split_ifs at hdecode with hfits
      obtain ⟨hrsv, hunused⟩ := hfits
      split at hdecode
      · next hi =>
        cases hdecode
        exact ⟨o, ⟨Opcode.ofCode_eq_some.1 ho, hrsv, hunused⟩, hi⟩
      · cases hdecode
  · rintro ⟨o, ⟨ho, hrsv, hunused⟩, hi⟩
    simp only [decode, Opcode.ofCode_eq_some.2 ho, hrsv, hunused, and_self, if_true, hi]

/-- A field value out of the ranges of R54 gives no operands. -/
theorem operands_eq_none {f : Header} {o : Opcode} (x : Word)
    (h : o = .setsign ∧ 1 < f.imm8.toNat ∨ (o = .digits ∨ o = .dread) ∧ 3 < f.rd.toNat ∨
      (o = .estart ∨ o = .erun) ∧ 1 < f.imm8.toNat ∨ o = .eget ∧ 8 < f.imm8.toNat ∨
      o = .rdcsr ∧ 4 < f.imm8.toNat) : operands f x o = none := by
  rcases h with ⟨rfl, h⟩ | ⟨rfl | rfl, h⟩ | ⟨rfl | rfl, h⟩ | ⟨rfl, h⟩ | ⟨rfl, h⟩
  · simp [operands, signOf_eq_none h]
  · simp [operands, streamOf_eq_none h]
  · simp [operands, streamOf_eq_none h]
  · simp [operands, modeOf_eq_none h]
  · simp [operands, modeOf_eq_none h]
  · simp [operands, selOf_eq_none h]
  · simp [operands, csrOf_eq_none h]

theorem decode_eq_illegalOpcode {h : Word} (hop : ∀ o : Opcode, o.code ≠ (Header.unpack h).op) (x : Word) :
    decode h x = .error .illegalOpcode := by
  have hnone : Opcode.ofCode (Header.unpack h).op = none :=
    Option.eq_none_iff_forall_ne_some.2 fun o ho => hop o (Opcode.ofCode_eq_some.1 ho)
  simp only [decode, hnone]

theorem decode_eq_badField {h x : Word} {o : Opcode} (ho : o.code = (Header.unpack h).op)
    (hbad : (Header.unpack h).Fits o → operands (Header.unpack h) x o = none) : decode h x = .error .badField := by
  simp only [decode, Opcode.ofCode_eq_some.2 ho]
  split_ifs with hfits
  · obtain ⟨hrsv, hunused⟩ := hfits
    rw [hbad ⟨ho, hrsv, hunused⟩]
  · rfl

/-! ### Encoding, then decoding -/

/-- The encoder keeps R53. -/
theorem Instr.header_fits (i : Instr) : i.header.Fits i.opcode := by
  cases i <;> exact ⟨rfl, rfl, rfl⟩

theorem Instr.twoWords_opcode (i : Instr) : twoWords i.opcode.code = i.extension.isSome := by
  cases i <;> rfl

/-- The operands read from the fields of a well-formed instruction, and from its extension word if it has one, are its
own. -/
theorem Instr.operands_header {i : Instr} (hwf : i.wf = true) :
    operands i.header (i.extension.getD 0) i.opcode = some i := by
  cases i with
  | setsign rd s => simp [operands, Instr.header, Instr.opcode, signOf_eq_some.2 rfl]
  | digits k ra bpd =>
    simp [operands, Instr.header, Instr.opcode, streamOf_eq_some.2 rfl, toNat_ofNat_of_isU8 hwf]
  | dread k n =>
    simp [operands, Instr.header, Instr.opcode, streamOf_eq_some.2 rfl, toNat_ofNat_of_isU32 hwf]
  | estart _ _ _ m | erun _ _ _ m => simp [operands, Instr.header, Instr.opcode, modeOf_eq_some.2 rfl]
  | eget _ sel => simp [operands, Instr.header, Instr.opcode, selOf_eq_some.2 rfl]
  | rdcsr c => simp [operands, Instr.header, Instr.opcode, csrOf_eq_some.2 rfl]
  | create _ n | rdw _ n | lsl _ n | lsr _ n | load _ _ n | add _ _ n | sub _ _ n =>
    simp [operands, Instr.header, Instr.opcode, -BitVec.toNat_ofNat, toNat_ofNat_of_isU32 hwf]
  | extract _ _ n => simp [operands, Instr.header, Instr.opcode, -BitVec.toInt_ofInt, toInt_ofInt_of_isS32 hwf]
  | cmpc _ k =>
    simp [operands, Instr.header, Instr.opcode, Instr.extension, -BitVec.toInt_ofInt, toInt_ofInt_of_isS64 hwf]
  | loadc _ _ _ _ =>
    obtain ⟨hpos, hcount⟩ := Bool.and_eq_true_iff.1 hwf
    simp [operands, Instr.header, Instr.opcode, Instr.extension, -BitVec.toNat_ofNat, toNat_ofNat_of_isU32 hpos,
      toNat_ofNat_of_isU8 hcount]
  | _ => simp [operands, Instr.header, Instr.opcode]

theorem decode_encode {i : Instr} (hwf : i.wf = true) :
    decode i.header.pack (i.extension.getD 0) = .ok i := by
  rw [decode_eq_ok, Header.unpack_pack]
  exact ⟨i.opcode, i.header_fits, Instr.operands_header hwf⟩

/-- A header is decoded with the extension word that follows it, if OP says that there is one (R51). -/
theorem decodeWords_header {h : Word} {x : Option Word} (htwo : twoWords (Header.unpack h).op = x.isSome) :
    decodeWords (h :: x.toList) = some (decode h (x.getD 0)) := by
  cases x <;> simp only [Option.toList, Option.getD, decodeWords, htwo] <;> rfl

/-- Settles O1: OP gives the number of words and the row, and the fields and the extension word give the operands. -/
theorem encodeThenDecode : Obligations.EncodeThenDecode := by
  intro i hwf
  have htwo : twoWords (Header.unpack i.header.pack).op = i.extension.isSome := by
    rw [Header.unpack_pack, ← i.header_fits.op, i.twoWords_opcode]
  rw [encode, decodeWords_header htwo, decode_encode hwf]

/-! ### Decoding, then encoding -/

/-- The row whose operands read `i` is the row of `i`, `i` is well formed, and it has the extension word that OP says. -/
theorem operands_eq_some {f : Header} {x : Word} {o : Opcode} {i : Instr} (h : operands f x o = some i) :
    i.wf = true ∧ i.opcode = o ∧ i.extension = if twoWords o.code then some x else none := by
  cases o with
  | setsign | digits | dread | estart | erun | eget | rdcsr =>
    obtain ⟨v, -, rfl⟩ := Option.map_eq_some_iff.1 h
    simp [Instr.wf, Instr.opcode, Instr.extension, Opcode.code, twoWords]
  | _ =>
    cases h
    simp [Instr.wf, Instr.opcode, Instr.extension, Opcode.code, twoWords]

/-- A header that keeps R53 is that of the instruction read from it: the fields used read back, the others are zero. -/
theorem Header.Fits.header_eq {f : Header} {x : Word} {o : Opcode} {i : Instr} (hf : f.Fits o)
    (h : operands f x o = some i) : i.header = f := by
  obtain ⟨op, rd, ra, rb, rsv, imm8, imm32⟩ := f
  obtain ⟨rfl, rfl, hunused⟩ := hf
  obtain ⟨hrd, hra, hrb, himm8, himm32⟩ := Header.unusedZero_iff.1 hunused
  cases o with
  | setsign | digits | dread | estart | erun | eget | rdcsr =>
    obtain ⟨v, hv, rfl⟩ := Option.map_eq_some_iff.1 h
    simp_all [Instr.header, Instr.opcode, Opcode.uses, signOf_eq_some, streamOf_eq_some, modeOf_eq_some, selOf_eq_some,
      csrOf_eq_some]
  | _ =>
    cases h
    simp_all [Instr.header, Instr.opcode, Opcode.uses]

/-- Settles O2: the header is that of the instruction read from it, and OP says if there is an extension. -/
theorem decodeThenEncode : Obligations.DecodeThenEncode := by
  intro h x i hdecode
  obtain ⟨o, hfits, hi⟩ := decode_eq_ok.1 hdecode
  obtain ⟨hwf, -, hx⟩ := operands_eq_some hi
  refine ⟨hwf, ?_⟩
  rw [encode, hfits.header_eq hi, Header.pack_unpack, hx, hfits.op]
  split <;> rfl

/-- Settles O3, by computing both ways. -/
theorem workedEncodings : Obligations.WorkedEncodings := by
  unfold Obligations.WorkedEncodings
  decide

end Sys2Proof

namespace Sys2Proof.Machine

/-! ### Words that are no instruction (R58) -/

theorem runCommand_of_decode_error {w x : Word} {e : DecodeError} {s : State} (hs : s.fsr = none)
    (h : decode w x = .error e) : runCommand w x s = .next (s.takeFault (Header.unpack w).op (causeOf e)) := by
  simp only [runCommand, h]
  exact s.unlessFaulted_running hs _

/-- Settles O4: the decoder's two errors are the causes of the same name. -/
theorem illegalWordsFault : Obligations.IllegalWordsFault := by
  intro s h x hs
  refine ⟨fun hop => runCommand_of_decode_error hs (decode_eq_illegalOpcode hop x), fun o ho hbad => ?_⟩
  rw [ho]
  refine runCommand_of_decode_error hs (decode_eq_badField ho fun hfits => ?_)
  rcases hbad with hrsv | hunused | hrange
  · exact absurd hfits.rsv hrsv
  · exact absurd hfits.unused (by simp [hunused])
  · exact operands_eq_none x hrange

end Sys2Proof.Machine
end

section
/-! PROOFS. Scope: kernel register management (R61 to R67): what each command raises and completes with, the pattern RAND
stores, and the words RDST and RDW respond. -/

namespace Sys2Proof.Machine

/-! ### The rule of a command, in a core that is not FAULTED (R15) -/

theorem State.command_of_error {s : State} (hs : s.fsr = none) {o : Opcode} {body : Except Cause (State × Word)}
    {c : Cause} (h : body = .error c) : s.command o body = .next (s.takeFault o.code c) :=
  h ▸ s.command_error hs o c

theorem State.command_of_ok {s t : State} {v : Word} (hs : s.fsr = none) {o : Opcode}
    {body : Except Cause (State × Word)} (h : body = .ok (t, v)) : s.command o body = .next (t.respond (okResponse v)) :=
  h ▸ s.command_ok hs o t v

/-! ### The draws of RAND (R64) -/

/-- Draw j of a register's width, by the bits the source supplies in it. -/
theorem State.accepted_draw (s : State) (w : Nat) (signed : Bool) (j : Nat) :
    accepted signed ((s.skipBits (j * w)).drawPattern w) = true ↔
      (∃ k, k < w ∧ s.sourceBit (j * w + k) = true) ∧
        ¬(signed = true ∧ 2 ≤ w ∧ (List.range w).countP (fun k => s.sourceBit (j * w + k)) = 1) := by
  simpa only [State.sourceBit_skipBits] using (s.skipBits (j * w)).accepted_drawPattern w signed

/-- A draw with no 1 bit, or with a single one in a signed register of width 2 or more, is rejected. -/
theorem State.rejected_draw {s : State} {w : Nat} {signed : Bool} {j : Nat}
    (h : (∀ k, k < w → s.sourceBit (j * w + k) = false) ∨
      (signed = true ∧ 2 ≤ w ∧ (List.range w).countP (fun k => s.sourceBit (j * w + k)) = 1)) :
    accepted signed ((s.skipBits (j * w)).drawPattern w) = false := by
  rw [Bool.eq_false_iff]
  intro haccepted
  obtain ⟨⟨k, hk, hone⟩, hmany⟩ := (s.accepted_draw w signed j).1 haccepted
  rcases h with hzero | hsingle
  · rw [hzero k hk] at hone
    cases hone
  · exact hmany hsingle

/-- An accepted draw that begins in the listed bits or right after them, with none accepted before it, is the one that
rejection sampling stores. -/
theorem State.randomPattern_of_first {s : State} {w : Nat} {signed : Bool} {n : Nat} (hn : n * w ≤ s.randomBits.length)
    (hrejected : ∀ j, j < n → accepted signed ((s.skipBits (j * w)).drawPattern w) = false)
    (haccepted : accepted signed ((s.skipBits (n * w)).drawPattern w) = true) :
    s.randomPattern w signed = some ((s.skipBits (n * w)).drawPattern w, s.skipBits ((n + 1) * w)) := by
  obtain ⟨⟨k, hk, -⟩, -⟩ := (s.accepted_draw w signed n).1 haccepted
  have hreached : n ≤ s.randomBits.length := (Nat.le_mul_of_pos_right n (by omega)).trans hn
  rcases s.randomPattern_cases w signed with ⟨i, hi, hacc, hrej⟩ | ⟨-, hrej⟩
  · rcases Nat.lt_trichotomy i n with hlt | rfl | hlt
    · rw [hrejected i hlt] at hacc
      cases hacc
    · exact hi
    · rw [hrej n hlt] at haccepted
      cases haccepted
  · rw [hrej n hreached] at haccepted
    cases haccepted

/-- Every pattern that rejection sampling answers is an accepted one. -/
theorem State.randomPattern_accepted {s t : State} {w : Nat} {signed : Bool} {b : BitVec w}
    (h : s.randomPattern w signed = some (b, t)) : accepted signed b = true := by
  rcases s.randomPattern_cases w signed with ⟨n, hn, haccepted, -⟩ | ⟨hnone, -⟩
  · rw [hn] at h
    cases h
    exact haccepted
  · rw [hnone] at h
    cases h

/-- A pattern whose only 1 bit is bit k has one 1 bit. -/
theorem popcount_eq_one {w : Nat} {b : BitVec w} {k : Nat} (hk : k < w) (hone : b.getLsbD k = true)
    (honly : ∀ j, b.getLsbD j = true → j = k) : popcount b = 1 := by
  have hcount : popcount b = (List.range w).count k :=
    List.countP_congr fun j _ => by
      rw [beq_iff_eq]
      exact ⟨honly j, fun hj => hj ▸ hone⟩
  rw [hcount]
  exact List.count_eq_one_of_mem List.nodup_range (List.mem_range.2 hk)

/-- An accepted pattern has a 1 bit, and a second one in a signed register of width 2 or more. -/
theorem exists_ones_of_accepted {w : Nat} {signed : Bool} {b : BitVec w} (h : accepted signed b = true) :
    (∃ j, b.getLsbD j = true) ∧
      (signed = true → 2 ≤ w → ∃ j k, j ≠ k ∧ b.getLsbD j = true ∧ b.getLsbD k = true) := by
  obtain ⟨⟨k, hk, hone⟩, hmany⟩ := accepted_eq_true.1 h
  refine ⟨⟨k, hone⟩, fun hsigned hw => ?_⟩
  by_contra hsingle
  refine hmany ⟨hsigned, hw, popcount_eq_one hk hone fun j hj => ?_⟩
  by_contra hjk
  exact hsingle ⟨j, k, hjk, hj, hone⟩

/-- RAND in a core that is not FAULTED, when its sampling answers a pattern. -/
theorem execRand_of_randomPattern {s t : State} {rd : Slot} {r : Reg} {b : BitVec r.w} (hs : s.fsr = none)
    (hr : s.reg rd = some r) (hp : s.randomPattern r.w r.signed = some (b, t)) :
    execRand rd s = .next ((t.setReg rd (some { r with bits := b })).respond (okResponse 0)) := by
  rw [execRand, State.unlessFaulted_running hs]
  simp only [hr, hp]

theorem execRand_of_free {s : State} {rd : Slot} (hs : s.fsr = none) (hr : s.reg rd = none) :
    execRand rd s = .next (s.takeFault (Opcode.code .rand) .nullReg) := by
  rw [execRand, State.unlessFaulted_running hs]
  simp only [hr]

/-- Settles O21: draw n is the one sampling stores, and its bits are the source's from n·w on. -/
theorem randStoresFirstAcceptedDraw : Obligations.RandStoresFirstAcceptedDraw := by
  intro s rd hs
  refine ⟨rfl, fun _ _ => State.sourceBit_listed, execRand_of_free hs, fun r n hr hn hrejected hone hmany => ?_⟩
  have hpattern := State.randomPattern_of_first hn (fun j hj => State.rejected_draw (hrejected j hj))
    ((s.accepted_draw r.w r.signed n).2 ⟨hone, hmany⟩)
  refine ⟨(s.skipBits (n * r.w)).drawPattern r.w, _, fun k hk => ?_, rfl, execRand_of_randomPattern hs hr hpattern⟩
  rw [State.getLsbD_drawPattern _ hk, State.sourceBit_skipBits]

/-- Settles O22: what RAND stores is an accepted pattern. -/
theorem randPatternIsNeverDegenerate : Obligations.RandPatternIsNeverDegenerate := by
  intro s t rd r hs hr h
  rcases execRand_cases h with ⟨hf, -⟩ | ⟨-, hfree, -⟩ | ⟨-, r', b, u, hr', hp, rfl⟩
  · exact absurd hs hf
  · rw [hfree] at hr
    cases hr
  · rw [hr'] at hr
    cases hr
    exact ⟨b, State.reg_setReg_same u rd _, exists_ones_of_accepted (State.randomPattern_accepted hp)⟩

/-! ### The words RDST and RDW respond (R66, R67) -/

/-- The four fields of the status word (R66). -/
theorem Reg.statusWord_toNat (r : Reg) (hw : r.w < 2 ^ 32) :
    r.statusWord.toNat = r.w + r.signed.toNat * 2 ^ 32 + r.ovf.toNat * 2 ^ 33 + r.unf.toNat * 2 ^ 34 := by
  have hwidth : (BitVec.ofNat 64 r.w).toNat = r.w := Nat.mod_eq_of_lt (by omega)
  obtain ⟨hsigned, lt33⟩ := toNat_or_bitField r.signed (hwidth.symm ▸ hw) (by norm_num)
  obtain ⟨hovf, lt34⟩ := toNat_or_bitField r.ovf lt33 (by norm_num)
  obtain ⟨hunf, -⟩ := toNat_or_bitField r.unf lt34 (by norm_num)
  exact hunf.trans (by rw [hovf, hsigned, hwidth])

/-- Settles O24: the fields of the status word do not overlap. -/
theorem rdstReportsStatus : Obligations.RdstReportsStatus := by
  intro s ra hs
  refine ⟨rfl, fun hfree => State.command_of_error hs (by simp [hfree]), fun r hr hw => ?_⟩
  exact ⟨r.statusWord, State.command_of_ok hs (by simp [hr]), r.statusWord_toNat hw⟩

/-- Past the last word the quotient is 0 too, so word k is the quotient at every k (R67). -/
theorem Reg.word_eq (r : Reg) (k : Nat) : r.word k = BitVec.ofNat 64 (r.bits.toNat / 2 ^ (64 * k)) := by
  rw [Reg.word]
  split
  · next hk =>
    have hlt : r.bits.toNat < 2 ^ (64 * k) := r.bits.isLt.trans_le (Nat.pow_le_pow_right (by norm_num) hk)
    rw [Nat.div_eq_of_lt hlt]
    rfl
  · rfl

theorem Reg.getLsbD_word (r : Reg) (k : Nat) {j : Nat} (hj : j < 64) :
    (r.word k).getLsbD j = r.bits.getLsbD (64 * k + j) := by
  rw [r.word_eq, BitVec.getLsbD_ofNat, Nat.testBit_div_two_pow, Nat.add_comm]
  simp [hj, BitVec.getLsbD]

/-- Settles O25: the word responded is the quotient, and bit by bit the register's from bit 64k on. -/
theorem rdwReadsRawWord : Obligations.RdwReadsRawWord := by
  intro s ra k hs
  refine ⟨rfl, fun hfree => State.command_of_error hs (by simp [hfree]), fun r hr => ?_⟩
  refine ⟨r.word k, State.command_of_ok hs (by simp [hr]), ?_, fun j => r.getLsbD_word k⟩
  rw [r.word_eq, BitVec.toNat_ofNat]

/-! ### Making, freeing and copying a register; its mode (R61 to R63, R65) -/

/-- Settles O18: the three checks of CREATE in order, and its completion. -/
theorem createMakesZeroRegister : Obligations.CreateMakesZeroRegister := by
  intro s rd width hs
  refine ⟨rfl, fun r hr => State.command_of_error hs (by simp [hr]), fun hfree => ⟨?_, ?_, ?_⟩⟩
  · exact fun hzero => State.command_of_error hs (by simp [hfree, hzero])
  · exact fun hpos hwide => State.command_of_error hs (by simp [hfree, hpos, hwide])
  · exact fun hpos hfits => State.command_of_ok hs (by simp [hfree, hpos, hfits, Reg.zero])

/-- Settles O19: FREE has the one check that its slot is allocated. -/
theorem freeDestroysRegister : Obligations.FreeDestroysRegister := by
  intro s rd hs
  exact ⟨rfl, fun hfree => State.command_of_error hs (by simp [hfree]),
    fun r hr => State.command_of_ok hs (by simp [hr])⟩

/-- Settles O20: the source is checked before the destination, so one slot twice is SLOT_BUSY. -/
theorem dupCopiesRegister : Obligations.DupCopiesRegister := by
  intro s rd ra hs
  refine ⟨rfl, fun hfree => State.command_of_error hs (by simp [hfree]), fun a ha => ⟨fun r hr => ?_, fun hfree => ?_⟩⟩
  · exact State.command_of_error hs (by simp [ha, hr])
  · exact State.command_of_ok hs (by simp [ha, hfree])

/-- Settles O23: an IMM8 above 1 is a field out of range (R54), and the rule of SETSIGN writes the mode alone. -/
theorem setsignChangesModeOnly : Obligations.SetsignChangesModeOnly := by
  intro s rd b hs
  refine ⟨rfl, fun h x hop himm8 => ?_, fun hfree => State.command_of_error hs (by simp [hfree]),
    fun r hr => State.command_of_ok hs (by simp [hr])⟩
  obtain ⟨-, hbadField⟩ := illegalWordsFault s h x hs
  exact hbadField .setsign hop.symm (.inr (.inr (.inl ⟨rfl, himm8⟩)))

end Sys2Proof.Machine
end

section
/-! PROOFS. Scope: kernel sign, compare and shift (R68 to R73): what each command raises and completes with, and that LSR
undoes an LSL that loses no bit. -/

namespace Sys2Proof.Machine

/-! ### Sign (R68, R69) -/

theorem Reg.absolute_eq (r : Reg) :
    r.absolute = ⟨r.w, ((Reg.zero r.w false).store r.val.natAbs).bits, false, false, false⟩ := rfl

/-- Settles O26: the magnitude fits an unsigned register of the source's width. -/
theorem absGivesMagnitude : Obligations.AbsGivesMagnitude := by
  intro s rd ra hs
  refine ⟨rfl, fun hnull => State.command_of_error hs (by simp [hnull]), fun a ha => ⟨fun r hr => ?_, fun hfree => ?_⟩⟩
  · exact State.command_of_error hs (by simp [ha, hr])
  · exact ⟨_, a.absolute_toNat, State.command_of_ok hs (by simp [ha, hfree, Reg.absolute_eq])⟩

/-- A register's bits are those its value stores (R10, R11). -/
theorem Reg.ofInt_val (r : Reg) : BitVec.ofInt r.w r.val = r.bits := by
  simpa using r.ofInt_val_shiftLeft 0

theorem Reg.storeExact_eq (r : Reg) (v : Int) :
    r.storeExact v = ⟨r.w, BitVec.ofInt r.w v, r.signed, r.ovf || !r.fits v, r.unf⟩ := rfl

/-- Of a signed register's values only the least, −2^(w−1), has a negation out of range (R69). -/
theorem Reg.not_fits_neg_val {r : Reg} (hsigned : r.signed = true) :
    (!r.fits (-r.val)) = decide (2 * r.val = -(2 ^ r.w)) := by
  have hval := r.fits_val
  rw [Reg.fits, hsigned, inRange_signed] at hval
  have hfits : r.fits (-r.val) = true ↔ 2 * r.val ≠ -(2 ^ r.w) := by
    rw [Reg.fits, hsigned, inRange_signed]
    omega
  rw [Bool.eq_iff_iff, Bool.not_eq_true', Bool.eq_false_iff, Ne, hfits, decide_eq_true_iff, not_not]

/-- `NEG` on a signed register (R69). -/
theorem Reg.negate_eq {r : Reg} (hsigned : r.signed = true) :
    r.negate = ⟨r.w, -r.bits, true, r.ovf || decide (2 * r.val = -(2 ^ r.w)), r.unf⟩ := by
  rw [Reg.negate, r.storeExact_eq, BitVec.ofInt_neg, r.ofInt_val, Reg.not_fits_neg_val hsigned, hsigned]

/-- Settles O27: the two checks of NEG in order, and its completion. -/
theorem negNegatesInPlace : Obligations.NegNegatesInPlace := by
  intro s rd hs
  refine ⟨rfl, fun hnull => State.command_of_error hs (by simp [hnull]),
    fun r hr => ⟨fun hunsigned => ?_, fun hsigned => ?_⟩⟩
  · exact State.command_of_error hs (by simp [hr, hunsigned])
  · exact State.command_of_ok hs (by simp [hr, hsigned, Reg.negate_eq hsigned])

/-! ### Shift (R72, R73) -/

/-- `LSL` on a register, by its bits (R72). -/
theorem Reg.lsl_eq_shiftLeft (r : Reg) (n : Nat) :
    r.lsl n = ⟨r.w, r.bits <<< n, r.signed, r.ovf || !r.fits (r.val * 2 ^ n), r.unf⟩ := by
  rw [r.lsl_eq, r.storeExact_eq, r.ofInt_val_shiftLeft]

/-- Settles O30: the overflow latched is that of R11's range. -/
theorem lslShiftsLeft : Obligations.LslShiftsLeft := by
  intro s rd n hs
  refine ⟨rfl, fun hnull => State.command_of_error hs (by simp [hnull]), fun r hr => ?_⟩
  refine ⟨!r.fits (r.val * 2 ^ n), fun hw => ?_, State.command_of_ok hs (by simp [hr, Reg.lsl_eq_shiftLeft])⟩
  rw [range_iff hw, Bool.not_eq_true', Bool.eq_false_iff]
  rfl

/-- The value `LSR` leaves is exactly the floor quotient (R73). -/
theorem Reg.val_lsr (r : Reg) (n : Nat) : (r.lsr n).val = r.val / 2 ^ n := by
  rw [r.lsr_eq, Reg.val_setUnf, Reg.val_store (r.fits_val_div n)]

/-- Settles O31: the quotient always fits, and unf records a division that is not exact. -/
theorem lsrShiftsRight : Obligations.LsrShiftsRight := by
  intro s rd n hs
  refine ⟨rfl, fun hnull => State.command_of_error hs (by simp [hnull]), fun r hr => ?_⟩
  refine ⟨r.lsr n, rfl, rfl, rfl, r.val_lsr n, ?_, State.command_of_ok hs (by simp [hr])⟩
  rw [r.lsr_eq, Reg.setUnf_unf, Reg.store_unf]

/-- A shift left that fits latches nothing and is undone by the shift right, in either mode (R73). -/
theorem Reg.lsr_lsl {r : Reg} {n : Nat} (h : r.fits (r.val * 2 ^ n) = true) : (r.lsl n).lsr n = r := by
  have hval : (r.lsl n).val = r.val * 2 ^ n := by rw [r.lsl_eq]; exact Reg.val_store h
  have hquot : r.val * 2 ^ n / 2 ^ n = r.val := Int.mul_ediv_cancel _ (by positivity)
  rw [Reg.lsr_eq, hval, hquot, r.lsl_eq_shiftLeft, h]
  simp [Reg.store, Reg.setUnf, r.ofInt_val]

/-- Settles O32: where the top k bits are zero, val·2^k fits. -/
theorem shiftInverse : Obligations.ShiftInverse := by
  intro s rd r k hs hr hunsigned htop
  have hfits : r.fits (r.val * 2 ^ k) = true := by
    rw [Reg.fits, hunsigned, inRange_unsigned, Reg.val_unsigned hunsigned]
    exact ⟨by positivity, by exact_mod_cast htop⟩
  have hlsl : r.lsl k = ⟨r.w, r.bits <<< k, false, r.ovf, r.unf⟩ := by simp [r.lsl_eq_shiftLeft, hfits, hunsigned]
  rw [← hlsl]
  refine ⟨_, State.command_of_ok hs (by simp [hr]), rfl, ?_⟩
  exact State.command_of_ok (by simpa using hs) (by simp [Reg.lsr_lsl hfits])

/-! ### Compare (R70, R71) -/

/-- The three answers of a compare (R70). -/
theorem compareWord_cases (a b : Int) :
    (a < b → compareWord a b = 0xFFFFFFFFFFFFFFFF) ∧ (a = b → compareWord a b = 0) ∧
      (b < a → compareWord a b = 1) := by
  refine ⟨fun hlt => if_pos hlt, fun heq => ?_, fun hgt => ?_⟩
  · exact (if_neg heq.not_lt).trans (if_pos heq)
  · exact (if_neg hgt.not_gt).trans (if_neg hgt.ne')

/-- Settles O28: the answer is the comparison of the two values. -/
theorem cmpComparesValues : Obligations.CmpComparesValues := by
  intro s ra rb hs
  refine ⟨rfl, fun hnull => State.command_of_error hs ?_, fun a b ha hb => ?_⟩
  · cases ha : s.reg ra with
    | none => simp [ha]
    | some a => simp [ha, hnull.resolve_left (by simp [ha])]
  · exact ⟨_, State.command_of_ok hs (by simp [ha, hb]), compareWord_cases a.val b.val⟩

/-- Settles O29: the answer is the comparison of the value with the constant. -/
theorem cmpcComparesConstant : Obligations.CmpcComparesConstant := by
  intro s ra k hs
  refine ⟨rfl, rfl, fun hnull => State.command_of_error hs (by simp [hnull]), fun a ha => ?_⟩
  exact ⟨_, State.command_of_ok hs (by simp [ha]), compareWord_cases a.val k⟩

end Sys2Proof.Machine
end

section
/-! PROOFS. Scope: kernel load and extract (R74 to R78): the bit copy the model runs is the loop of R74, and what LOAD,
LOADC and EXTRACT raise and complete with. -/

namespace Sys2Proof.Machine

/-! ### The loop of the bit copy (R74) -/

/-- A source bit below the width is written, and the copy goes on. -/
theorem Reg.loadBit_inside (dst : Reg) {p : Nat} (b : Bool) (h : p < dst.w) :
    dst.loadBit p b = ({ dst with bits := insertBits dst.bits (BitVec.ofBool b) p }, false) := by
  have hbits : (dst.bits &&& ~~~BitVec.twoPow dst.w p) ||| (if b then BitVec.twoPow dst.w p else 0) =
      insertBits dst.bits (BitVec.ofBool b) p := by
    apply BitVec.eq_of_getLsbD_eq
    intro j hj
    have hat : (p ≤ j ∧ j < p + 1 ∧ j < dst.w) ↔ j = p := by omega
    simp only [getLsbD_insertBits, hat]
    by_cases hjp : j = p
    · cases b <;> simp [hjp, h]
    · cases b <;> simp [hjp, hj]
  rw [Reg.loadBit, if_pos h, hbits]

/-- Writing a pattern is writing its lowest bit and then the others one position up. -/
theorem insertBits_cons {w p : Nat} (dst : BitVec w) (b : Bool) (bs : List Bool) :
    insertBits (insertBits dst (BitVec.ofBool b) p) (BitVec.ofBoolListLE bs) (p + 1) =
      insertBits dst (BitVec.ofBoolListLE (b :: bs)) p := by
  apply BitVec.eq_of_getLsbD_eq
  intro j hj
  simp only [getLsbD_insertBits, BitVec.getLsbD_ofBoolListLE, List.length_cons]
  rcases Nat.lt_trichotomy j p with hlt | rfl | hgt
  · simp [show ¬p ≤ j by omega, show ¬p + 1 ≤ j by omega]
  · simp [hj]
  · obtain ⟨k, rfl⟩ : ∃ k, j = p + 1 + k := ⟨j - (p + 1), by omega⟩
    by_cases hk : k < bs.length
    · rw [if_pos (by omega), if_pos (by omega)]
      simp [show p + 1 + k - p = k + 1 by omega]
    · rw [if_neg (by omega), if_neg (by omega), if_neg (by omega)]

/-- From the width on nothing is written: the loop only compares the source bits with the sign extension. -/
theorem Reg.loadBitsLoop_beyond (dst : Reg) {p : Nat} (bs : List Bool) (h : dst.w ≤ p) :
    dst.loadBitsLoop p bs = dst.setOvf (bs.any (· != dst.extension)) := by
  induction bs generalizing p with
  | nil => simp [Reg.loadBitsLoop, Reg.setOvf]
  | cons b bs ih =>
    by_cases hb : b = dst.extension
    · simp [Reg.loadBitsLoop, Reg.loadBit, h.not_gt, hb, ih (p := p + 1) (by omega)]
    · simp [Reg.loadBitsLoop, Reg.loadBit, h.not_gt, bne_iff_ne.2 hb]

/-- The loop writes the source bits below the width, and latches overflow when one of the others differs from the sign
extension the written register has. -/
theorem Reg.loadBitsLoop_eq (dst : Reg) (p : Nat) (bs : List Bool) :
    dst.loadBitsLoop p bs =
      let out : Reg := { dst with bits := insertBits dst.bits (BitVec.ofBoolListLE bs) p }
      out.setOvf ((bs.drop (dst.w - p)).any (· != out.extension)) := by
  induction bs generalizing dst p with
  | nil =>
    have hnone : insertBits dst.bits (BitVec.ofBoolListLE []) p = dst.bits := by
      apply BitVec.eq_of_getLsbD_eq
      intro j hj
      rw [getLsbD_insertBits, if_neg (by simp; omega)]
    simp [Reg.loadBitsLoop, Reg.setOvf, hnone]
  | cons b bs ih =>
    by_cases h : p < dst.w
    · rw [Reg.loadBitsLoop, Reg.loadBit_inside dst b h]
      simp only [Bool.false_eq_true, if_false, ih, insertBits_cons]
      rw [show dst.w - p = dst.w - (p + 1) + 1 by omega, List.drop_succ_cons]
    · have hfar : insertBits dst.bits (BitVec.ofBoolListLE (b :: bs)) p = dst.bits := if_pos (by omega)
      rw [Reg.loadBitsLoop_beyond dst _ (by omega), hfar, Nat.sub_eq_zero_of_le (by omega), List.drop_zero]

/-! ### The closed form (R74) -/

/-- Writing a pattern is writing the list of its bits. -/
theorem insertBits_ofBoolListLE {w n : Nat} (dst : BitVec w) (src : BitVec n) (p : Nat) :
    insertBits dst (BitVec.ofBoolListLE ((List.range n).map src.getLsbD)) p = insertBits dst src p := by
  apply BitVec.eq_of_getLsbD_eq
  intro j hj
  simp only [getLsbD_insertBits, BitVec.getLsbD_ofBoolListLE, List.length_map, List.length_range]
  split
  · next h => simp [show j - p < n by omega]
  · rfl

/-- The comparison of R74 by bits: a source bit from k on differs from `e` exactly when the shifted source differs from
the pattern that repeats `e`. -/
theorem any_drop_bits_ne {n : Nat} (src : BitVec n) (k : Nat) (e : Bool) :
    (((List.range n).map src.getLsbD).drop k).any (· != e) =
      (src >>> k != if e then BitVec.allOnes n >>> k else 0) := by
  have hbit : ∀ i, (if e then BitVec.allOnes n >>> k else 0).getLsbD i = (e && decide (k + i < n)) := by
    cases e <;> simp
  rw [Bool.eq_iff_iff, ← not_iff_not]
  simp only [Bool.not_eq_true, bne_eq_false_iff_eq, List.any_eq_false, List.mem_drop_iff_getElem]
  constructor
  · intro hall
    apply BitVec.eq_of_getLsbD_eq
    intro i hi
    rw [hbit, BitVec.getLsbD_ushiftRight]
    by_cases hn : k + i < n
    · simpa [hn] using hall _ ⟨i, by simpa [Nat.add_comm] using hn, rfl⟩
    · simp [hn, BitVec.getLsbD_of_ge _ _ (Nat.le_of_not_lt hn)]
  · rintro heq x ⟨i, hn, rfl⟩
    have hi := congrArg (BitVec.getLsbD · i) heq
    simp only [hbit, BitVec.getLsbD_ushiftRight] at hi
    have : k + i < n := by simpa [Nat.add_comm] using hn
    rw [List.getElem_map, List.getElem_range, hi]
    simp [this]

/-- Settles O33: both write the bits below the width and compare the others with the sign extension. -/
theorem loadBitsIsTheLoop : Obligations.LoadBitsIsTheLoop := by
  intro dst n src p
  simp only [Reg.loadBitsLoop_eq, insertBits_ofBoolListLE, any_drop_bits_ne]
  rfl

/-! ### The commands (R75, R76, R78) -/

/-- A command whose two source operands are checked first raises NULL_REG when either slot is free (R22). -/
theorem State.operands_null {α : Type} {s : State} {i j : Slot} (h : s.reg i = none ∨ s.reg j = none)
    (f : Reg → Reg → Except Cause α) : (do f (← s.operand i) (← s.operand j)) = .error .nullReg := by
  cases hi : s.reg i with
  | none => simp [hi]
  | some r => simp [hi, h.resolve_left (by simp [hi])]

/-- Settles O34: the three checks of LOAD in order, and the bit copy, which is the loop of R74. -/
theorem loadCopiesBits : Obligations.LoadCopiesBits := by
  intro s rd ra pos hs
  refine ⟨rfl, fun hnull => State.command_of_error hs (State.operands_null hnull _), fun a d ha hd => ⟨?_, ?_, ?_⟩⟩
  · exact fun hsame => State.command_of_error hs (by simp [ha, hsame])
  · exact fun hne hmode => State.command_of_error hs (by simp [ha, hd, hne, hmode])
  · intro hne hmode
    rw [← loadBitsIsTheLoop]
    exact State.command_of_ok hs (by simp [ha, hd, hne, hmode])

/-- Settles O35: the two checks of LOADC in order; below the bit count the cut literal has the literal's bits. -/
theorem loadcCopiesLiteral : Obligations.LoadcCopiesLiteral := by
  intro s rd value pos bitcount hs
  refine ⟨rfl, rfl, fun hnull => State.command_of_error hs (by simp [hnull]), fun d hd => ⟨fun hcount => ?_, ?_⟩⟩
  · exact State.command_of_error hs (by simp [hd, show ¬(1 ≤ bitcount ∧ bitcount ≤ 64) by omega])
  · intro hpos hle
    have hlow : (List.range bitcount).map value.getLsbD = (List.range bitcount).map (value.setWidth bitcount).getLsbD :=
      List.map_congr_left fun j hj => by simp [List.mem_range.1 hj]
    rw [hlow, ← loadBitsIsTheLoop]
    exact State.command_of_ok hs (by simp [hd, hpos, hle])

/-- Settles O36: the two checks of EXTRACT in order, and the sample bit by bit. -/
theorem extractReadsField : Obligations.ExtractReadsField := by
  intro s ra rd pos hs
  refine ⟨rfl, fun hnull => State.command_of_error hs (State.operands_null hnull _),
    fun a d ha hd => ⟨fun hsame => ?_, fun hne => ?_⟩⟩
  · exact State.command_of_error hs (by simp [ha, hsame])
  · refine ⟨_, fun i hi => a.getLsbD_extractBits d pos i hi, ?_⟩
    exact State.command_of_ok (t := s.setReg rd (some (a.extractBits d pos))) hs (by simp [ha, hd, hne])

end Sys2Proof.Machine
end

section
/-! PROOFS. Scope: the engine's digit selection (R77, R100 to R104), from the bits of the shifted residual and of Q. -/

namespace Sys2Proof.Machine

/-! ### The samples (R77, R102) -/

/-- Every bit of a sample is the one `extract_bits` reads at its position (R77). -/
theorem Reg.getLsbD_extractBits_eq_bitAt (src smp : Reg) (p : Int) {j : Nat} (hj : j < smp.w) :
    (src.extractBits smp p).bits.getLsbD j = src.bitAt (p + j) :=
  src.getLsbD_extractBits smp p j hj

/-- A sample with the bits that `extract_bits` reads (R77). -/
theorem Reg.extractBits_of_bitAt {src smp : Reg} {p : Int} {x : BitVec smp.w}
    (h : ∀ j : Nat, j < smp.w → x.getLsbD j = src.bitAt (p + j)) : src.extractBits smp p = { smp with bits := x } := by
  have hbits : (src.extractBits smp p).bits = x := by
    apply BitVec.eq_of_getLsbD_eq
    intro j hj
    exact (src.getLsbD_extractBits_eq_bitAt smp p hj).trans (h j hj).symm
  rw [← hbits]
  rfl

/-- The samples P and S·, read `off` bits below the cursors: 0 when the loose bit is 1, else 1 (R102). -/
theorem samples_eq {c : Config} {i : Nat} {resp q : Reg} {off : Int} {p : BitVec (c.np + 2)} {ss : BitVec (c.ns + 1)}
    (hoff : off = if q.bitAt (c.sBase + c.m * i + c.ns) then 0 else 1)
    (hp : ∀ j : Nat, j < c.np + 2 → p.getLsbD j = resp.bitAt (c.pBase + c.m * i - off + j))
    (hs : ∀ j : Nat, j < c.ns + 1 → ss.getLsbD j = q.bitAt (c.sBase + c.m * i - off + j)) :
    samples c i resp q = (⟨c.np + 2, p, true, false, false⟩, ⟨c.ns + 1, ss, false, false, false⟩) := by
  have hloose : (q.extractBits (Reg.zero (c.ns + 1) false) (c.sBase + c.m * i)).bits.getLsbD c.ns =
      q.bitAt (c.sBase + c.m * i + c.ns) :=
    q.getLsbD_extractBits_eq_bitAt _ _ (Nat.lt_succ_self c.ns)
  have hresp := Reg.extractBits_of_bitAt (smp := Reg.zero (c.np + 2) true) hp
  rw [samples, hloose]
  cases hbit : q.bitAt (c.sBase + c.m * i + c.ns) with
  | true =>
    obtain rfl : off = 0 := by simpa [hbit] using hoff
    have hq := Reg.extractBits_of_bitAt (smp := Reg.zero (c.ns + 1) false) hs
    rw [sub_zero] at hresp hq
    rw [if_pos rfl, hresp, hq]
    rfl
  | false =>
    obtain rfl : off = 1 := by simpa [hbit] using hoff
    have hq := Reg.extractBits_of_bitAt
      (smp := q.extractBits (Reg.zero (c.ns + 1) false) (c.sBase + c.m * i)) hs
    rw [if_neg Bool.false_ne_true, hresp, hq]
    rfl

/-! ### The table (R103) -/

/-- The first override of iteration i for a row replaces it; with none the row stays (R103). -/
theorem overriddenRow_eq {c : Config} {i : Nat} {row row' : Int}
    (h : (row' = row ∧ ∀ o ∈ c.overrides, o.iteration = i → o.fromRow ≠ row) ∨
      ∃ before after, c.overrides = before ++ ⟨i, row, row'⟩ :: after ∧
        ∀ o ∈ before, o.iteration = i → o.fromRow ≠ row) :
    overriddenRow c i row = row' := by
  rcases h with ⟨rfl, hnone⟩ | ⟨before, after, hsplit, hfirst⟩
  · have hfind : (c.overrides.find? fun o => o.iteration == i && o.fromRow == row') = none :=
      List.find?_eq_none.2 fun o ho => by simpa using hnone o ho
    simp [overriddenRow, hfind]
  · have hfind : (c.overrides.find? fun o => o.iteration == i && o.fromRow == row) = some ⟨i, row, row'⟩ :=
      List.find?_eq_some_iff_append.2
        ⟨by simp, before, after, hsplit, fun o ho => by simpa [imp_iff_not_or] using hfirst o ho⟩
    simp [overriddenRow, hfind]

theorem tableEntry_inside (c : Config) (y : Fin c.trows) (x : Fin c.tcols) :
    tableEntry c y x = .ok c.table[y][x] := by
  rw [tableEntry, dif_pos (by omega)]
  rfl

theorem tableEntry_outside {c : Config} {row col : Int}
    (h : ¬(0 ≤ row ∧ row < c.trows ∧ 0 ≤ col ∧ col < c.tcols)) : tableEntry c row col = .error .tableIndex :=
  dif_neg (by omega)

/-- The lookup for samples P and S·: the entry at the overridden row, its sign inverted for a negative region of a
symmetric table (R103). -/
theorem tableDigit_of_samples {c : Config} {i : Nat} {resp q : Reg} {p : BitVec (c.np + 2)} {ss : BitVec (c.ns + 1)}
    {region col : Int}
    (hsamples : samples c i resp q = (⟨c.np + 2, p, true, false, false⟩, ⟨c.ns + 1, ss, false, false, false⟩))
    (hregion : region = p.toInt / 2 ^ c.fracP) (hcol : col = ss.toNat / 2 ^ c.fracS - c.colBase) :
    tableDigit c i resp q = do
      let d ← tableEntry c (overriddenRow c i (c.origin - if c.symmetric then |region| else region)) col
      return if c.symmetric = true ∧ region < 0 then -d else d := by
  have hval : Reg.val ⟨c.np + 2, p, true, false, false⟩ = p.toInt := Reg.val_signed rfl
  rw [tableDigit, hsamples]
  simp only [hval, ← hregion, ← hcol, Int.natCast_natAbs, apply_ite (c.origin - ·), Bool.and_eq_true,
    decide_eq_true_eq]

/-! ### The range check (R100, R104) -/

theorem selectDigit_of_ok {c : Config} {i : Nat} {resp q : Reg} {d : Int} (h : unchecked c i resp q = .ok d) :
    selectDigit c i resp q = if -(c.alpha : Int) ≤ d ∧ d ≤ c.beta then .ok d else .error .digitRange := by
  rw [selectDigit, h, ok_bind, require]
  split <;> rfl

theorem selectDigit_of_error {c : Config} {i : Nat} {resp q : Reg} {e : Cause} (h : unchecked c i resp q = .error e) :
    selectDigit c i resp q = .error e := by
  rw [selectDigit, h, error_bind]

theorem unchecked_above {c : Config} {i : Nat} {resp q : Reg} (h : c.z / c.m + 1 < i) :
    unchecked c i resp q = tableDigit c i resp q :=
  (if_neg h.not_gt).trans (if_neg h.ne')

/-- Settles O51: below, at and above delta, the digit before its range check is the one the rules give. -/
theorem selectionFollowsRules : Obligations.SelectionFollowsRules := by
  intro c i resp q
  refine ⟨fun hbelow => ?_, fun f d hat hf hd => ?_, ?_⟩
  · have hzero : unchecked c i resp q = .ok 0 := if_pos hbelow
    rw [selectDigit_of_ok hzero, if_pos (by omega)]
  · have hfirst : firstDigit c resp = d := by
      rw [firstDigit, Reg.extractBits_of_bitAt (smp := Reg.zero 3 false) hf, hd]
      rfl
    refine selectDigit_of_ok ?_
    rw [← hfirst]
    exact (if_neg hat.not_lt).trans (if_pos hat)
  · intro off region col row row' p ss habove hoff hp hs hregion hcol hrow hover
    have hrow' : overriddenRow c i (c.origin - if c.symmetric then |region| else region) = row' :=
      hrow ▸ overriddenRow_eq hover
    have hlookup := tableDigit_of_samples (samples_eq hoff hp hs) hregion hcol
    rw [hrow', ← unchecked_above habove] at hlookup
    refine ⟨fun hout => selectDigit_of_error ?_, fun y x d hy hx hd => selectDigit_of_ok ?_⟩
    · rw [hlookup, tableEntry_outside hout, error_bind]
    · rw [hlookup, hy, hx, tableEntry_inside, ok_bind, hd, return_eq_ok]

end Sys2Proof.Machine
end

section
/-! PROOFS. Scope: kernel add, subtract, multiply and integer square root (R79 to R83): what ADD, SUB, MUL and ISQRT
raise and complete with. -/

namespace Sys2Proof.Machine

/-! ### Add and subtract (R79 to R81) -/

/-- A result does not fit exactly when it is outside R11's range. -/
theorem Reg.not_fits_iff {r : Reg} (hw : 1 ≤ r.w) (v : Int) : (!r.fits v) = true ↔ ¬Range r.w r.signed v := by
  rw [range_iff hw, Bool.not_eq_true', Bool.eq_false_iff]
  rfl

theorem Reg.addAt_one (r a : Reg) (p : Nat) : r.addAt a 1 p = r.storeExact (r.val + a.val * 2 ^ p) := by
  rw [r.addAt_eq, one_mul]

theorem Reg.addAt_neg_one (r a : Reg) (p : Nat) : r.addAt a (-1) p = r.storeExact (r.val - a.val * 2 ^ p) := by
  rw [r.addAt_eq, neg_one_mul, Int.sub_eq_add_neg]

/-- Settles O37: the two checks of ADD in order, and the exact sum. -/
theorem addAddsAtPosition : Obligations.AddAddsAtPosition := by
  intro s rd ra pos hs
  refine ⟨rfl, fun hnull => State.command_of_error hs (State.operands_null hnull _),
    fun a r ha hr => ⟨fun hsame => ?_, fun hne => ?_⟩⟩
  · exact State.command_of_error hs (by simp [ha, hsame])
  · refine ⟨_, fun hw => Reg.not_fits_iff hw _, State.command_of_ok hs ?_⟩
    simp [ha, hr, hne, Reg.addAt_one, Reg.storeExact_eq]

/-- Settles O38: the two checks of SUB in order, and the exact difference. -/
theorem subSubtractsAtPosition : Obligations.SubSubtractsAtPosition := by
  intro s rd ra pos hs
  refine ⟨rfl, fun hnull => State.command_of_error hs (State.operands_null hnull _),
    fun a r ha hr => ⟨fun hsame => ?_, fun hne => ?_⟩⟩
  · exact State.command_of_error hs (by simp [ha, hsame])
  · refine ⟨_, fun hw => Reg.not_fits_iff hw _, State.command_of_ok hs ?_⟩
    simp [ha, hr, hne, Reg.addAt_neg_one, Reg.storeExact_eq]

/-! ### Multiply (R82) -/

/-- The least value of w signed bits, written without a subtraction in the exponent (R11). -/
theorem two_mul_eq_neg_two_pow_iff {w : Nat} (hw : 1 ≤ w) (v : Int) : 2 * v = -(2 ^ w) ↔ v = -(2 ^ (w - 1)) := by
  obtain ⟨k, rfl⟩ := Nat.exists_eq_add_of_le' hw
  rw [Nat.add_sub_cancel, pow_succ]
  omega

/-- The product as it is stored, with its two causes of overflow (R82). -/
theorem Reg.mulInto_eq (ovfAtMin : Bool) (r a b : Reg) :
    ∃ o : Bool,
      (1 ≤ r.w → (o = true ↔ ¬Range r.w r.signed (a.val * b.val) ∨
        (ovfAtMin = true ∧ r.signed = true ∧ a.val * b.val = -(2 ^ (r.w - 1))))) ∧
      Reg.mulInto ovfAtMin r a b = ⟨r.w, BitVec.ofInt r.w (a.val * b.val), r.signed, r.ovf || o, r.unf⟩ := by
  refine ⟨!r.fits (a.val * b.val) || (ovfAtMin && r.signed && decide (2 * (a.val * b.val) = -(2 ^ r.w : Int))),
    fun hw => ?_, ?_⟩
  · rw [Bool.or_eq_true, Reg.not_fits_iff hw, Bool.and_eq_true, Bool.and_eq_true, decide_eq_true_iff,
      two_mul_eq_neg_two_pow_iff hw, and_assoc]
  · simp [Reg.mulInto, Reg.storeExact_eq, Reg.setOvf, Bool.or_assoc]

/-- A command whose three source operands are checked first raises NULL_REG when any of the slots is free (R22). -/
theorem State.three_operands_null {α : Type} {s : State} {i j k : Slot}
    (h : s.reg i = none ∨ s.reg j = none ∨ s.reg k = none) (f : Reg → Reg → Reg → Except Cause α) :
    (do f (← s.operand i) (← s.operand j) (← s.operand k)) = .error .nullReg := by
  cases hi : s.reg i with
  | none => simp [hi]
  | some r =>
    rw [State.operand_some hi]
    exact State.operands_null (h.resolve_left (by simp [hi])) (f r)

/-- Settles O39: the three checks of MUL in order, and the exact product with both causes of overflow. -/
theorem mulMultiplies : Obligations.MulMultiplies := by
  intro s rd ra rb hs
  refine ⟨rfl, fun hnull => State.command_of_error hs (State.three_operands_null hnull _),
    fun a b r ha hb hr => ⟨fun hsame => ?_, fun hnea hneb hsigned hunsigned => ?_, fun hnea hneb hmode => ?_⟩⟩
  · have halias : ¬(rd ≠ ra ∧ rd ≠ rb) := by tauto
    exact State.command_of_error hs (by simp [ha, hb, hr, require_neg _ halias])
  · have hsign : ¬(a.signed = true ∨ b.signed = true → r.signed = true) :=
      fun h => by simp [h hsigned] at hunsigned
    exact State.command_of_error hs (by simp [ha, hb, hr, hnea, hneb, require_neg _ hsign])
  · have hsign : a.signed = true ∨ b.signed = true → r.signed = true := by
      rcases hmode with ⟨ha, hb⟩ | hr
      · simp [ha, hb]
      · exact fun _ => hr
    obtain ⟨o, ho, hmul⟩ := Reg.mulInto_eq s.cfg.mulOvfAtMin r a b
    exact ⟨o, ho, State.command_of_ok hs (by simp [ha, hb, hr, hnea, hneb, require_pos _ hsign, hmul])⟩

/-! ### Square root (R83) -/

/-- A register of the input's width holds the root. -/
theorem isqrt_lt_two_pow {v w : Nat} (h : v < 2 ^ w) : isqrt v < 2 ^ w :=
  ((Nat.le_mul_self _).trans (isqrt_bounds v).1).trans_lt h

/-- Settles O40: the three checks of ISQRT in order; the loop's root is the floor of the square root. -/
theorem isqrtIsFloorRoot : Obligations.IsqrtIsFloorRoot := by
  intro s rd ra hs
  refine ⟨rfl, fun hnull => State.command_of_error hs (by simp [hnull]),
    fun a ha => ⟨fun r hr => ?_, fun hfree hneg => ?_, fun hfree hpos => ?_⟩⟩
  · exact State.command_of_error hs (by simp [ha, hr])
  · exact State.command_of_error hs (by simp [ha, hfree, hneg])
  · obtain ⟨v, hv⟩ := Int.eq_ofNat_of_zero_le hpos
    have hlt : v < 2 ^ a.w := by exact_mod_cast hv ▸ a.val_bounds.2
    have hroot : (BitVec.ofInt a.w (isqrt v)).toNat = isqrt v := by
      rw [BitVec.ofInt_natCast, BitVec.toNat_ofNat, Nat.mod_eq_of_lt (isqrt_lt_two_pow hlt)]
    obtain ⟨hle, hgt⟩ := isqrt_bounds v
    refine ⟨BitVec.ofInt a.w (isqrt v), ?_, ?_, State.command_of_ok hs ?_⟩
    · rw [hroot, hv]
      exact_mod_cast hle
    · rw [hroot, hv]
      exact_mod_cast hgt
    · simp [ha, hfree, hv, Reg.store, Reg.zero]

end Sys2Proof.Machine
end

section
/-! PROOFS. Scope: digit streams (R84 to R86): what DIGITS and DREAD raise and complete with, and that the digits DIGITS
stores weigh back to the magnitude. -/

namespace Sys2Proof.Machine

/-! ### The digits of a magnitude (R84) -/

/-- The digit count is the least whose digits cover the width (R84, R85). -/
theorem digitCount_le_iff {w b n : Nat} (hb : 1 ≤ b) : digitCount w b ≤ n ↔ w ≤ n * b := by
  rw [digitCount, ← Nat.ceilDiv_eq_add_pred_div, ceilDiv_le_iff_le_mul hb, Nat.mul_comm]

theorem Reg.element_digitList (r : Reg) {b k : Nat} (hk : 1 ≤ k) (hle : k ≤ (r.digitList b).count) :
    (r.digitList b).element k = r.val.natAbs / 2 ^ (b * ((r.digitList b).count - k)) % 2 ^ b := by
  obtain ⟨j, rfl⟩ : ∃ j, k = j + 1 := ⟨k - 1, by omega⟩
  rw [r.digitList_count] at hle ⊢
  simp [DigitList.element, Reg.digitList, List.getD_eq_getElem?_getD, show j < digitCount r.w b by omega]

/-- Folded with radix 2^b, the first j of n digits are the number's quotient by the weight of the others. -/
theorem foldl_leading_digits {v b n : Nat} (hv : v < 2 ^ (b * n)) {j : Nat} (hj : j ≤ n) :
    ((List.range j).map fun i => v / 2 ^ (b * (n - (i + 1))) % 2 ^ b).foldl (fun acc d => acc * 2 ^ b + d) 0 =
      v / 2 ^ (b * (n - j)) := by
  induction j with
  | zero => simp [Nat.div_eq_of_lt hv]
  | succ j ih =>
    have hweight : 2 ^ (b * (n - j)) = 2 ^ (b * (n - (j + 1))) * 2 ^ b := by
      rw [← pow_add, ← Nat.mul_succ]
      congr 2
      omega
    rw [List.range_succ, List.map_append, List.foldl_append, ih (by omega), hweight, ← Nat.div_div_eq_div_mul]
    exact Nat.div_add_mod' _ _

/-- A register's magnitude is below 2^w, signed or not (R10). -/
theorem Reg.natAbs_val_lt (r : Reg) : r.val.natAbs < 2 ^ r.w := by
  have habs := r.absolute_toNat
  rw [← Int.natCast_natAbs, Nat.cast_inj] at habs
  exact habs ▸ ((Reg.zero r.w false).store r.val.natAbs).bits.isLt

/-- A digit list weighs back to the magnitude (R84). -/
theorem Reg.foldl_digitList (r : Reg) {b : Nat} (hb : 1 ≤ b) :
    (r.digitList b).digits.foldl (fun acc d => acc * 2 ^ b + d) 0 = r.val.natAbs := by
  have hcover : r.val.natAbs < 2 ^ (b * digitCount r.w b) := by
    obtain ⟨hw, -⟩ := digitCount_bounds r.w b hb
    exact r.natAbs_val_lt.trans_le (Nat.pow_le_pow_right (by omega) (Nat.mul_comm _ b ▸ hw))
  have hall := foldl_leading_digits hcover le_rfl
  rwa [Nat.sub_self, Nat.mul_zero, pow_zero, Nat.div_one] at hall

/-! ### DIGITS (R85) -/

/-- With no check failing, DIGITS replaces the buffer's list. -/
theorem exec_digits_of_fits {s : State} {ds : StreamNo} {ra : Slot} {bpd : Nat} {a : Reg} (hs : s.fsr = none)
    (ha : s.reg ra = some a) (hpos : 1 ≤ bpd) (hmax : bpd ≤ 63) (hfits : a.w ≤ s.cfg.maxDigits * bpd) :
    exec (.digits ds ra bpd) s = .next ((s.setStream ds (a.digitList bpd)).respond (okResponse 0)) :=
  State.command_of_ok hs (by simp [ha, hpos, hmax, (digitCount_le_iff hpos).2 hfits])

/-- Settles O41: the field check, the three checks of DIGITS in order, and the list it builds. -/
theorem digitsBuildsList : Obligations.DigitsBuildsList := by
  intro s ds ra bpd hs
  refine ⟨rfl, fun h x hop hrd => ?_, fun hnull => State.command_of_error hs (by simp [hnull]),
    fun a ha => ⟨fun hbad => ?_, fun hpos hmax hwide => ?_, fun hpos hmax hfits => ?_⟩⟩
  · obtain ⟨-, hbadField⟩ := illegalWordsFault s h x hs
    exact hbadField .digits hop.symm (.inr (.inr (.inr (.inl ⟨.inl rfl, hrd⟩))))
  · have hrange : ¬(1 ≤ bpd ∧ bpd ≤ 63) := by omega
    exact State.command_of_error hs (by simp [ha, require_neg _ hrange])
  · have hcount : ¬digitCount a.w bpd ≤ s.cfg.maxDigits := by
      rw [digitCount_le_iff hpos]
      omega
    exact State.command_of_error hs (by simp [ha, hpos, hmax, require_neg _ hcount])
  · obtain ⟨hle, hlt⟩ := digitCount_bounds a.w bpd hpos
    rw [← a.digitList_count] at hle hlt
    exact ⟨a.digitList bpd, exec_digits_of_fits hs ha hpos hmax hfits, hle, hlt, fun k => a.element_digitList⟩

/-- Settles O42: the list in the buffer is the magnitude's, whose digits weigh back to it. -/
theorem digitsReconstructMagnitude : Obligations.DigitsReconstructMagnitude := by
  intro s t ds ra bpd a hs ha hpos hmax hfits ht
  rw [exec_digits_of_fits hs ha hpos hmax hfits] at ht
  cases ht
  exact ⟨a.digitList bpd, by simp, a.foldl_digitList hpos⟩

/-! ### DREAD (R86) -/

@[simp] theorem DigitList.element_zero (l : DigitList) : l.element 0 = l.digits.length := rfl

theorem DigitList.element_succ {l : DigitList} {k d : Nat} (h : l.digits[k]? = some d) : l.element (k + 1) = d := by
  simp [DigitList.element, List.getD_eq_getElem?_getD, h]

/-- Settles O43: the field check, the two checks of DREAD in order, and the element it responds. -/
theorem dreadReadsElement : Obligations.DreadReadsElement := by
  intro s ds i hs
  refine ⟨rfl, fun h x hop hrd => ?_, fun hempty => State.command_of_error hs (by simp [hempty]),
    fun l hl => ⟨fun hpast => ?_, ?_, ?_⟩⟩
  · obtain ⟨-, hbadField⟩ := illegalWordsFault s h x hs
    exact hbadField .dread hop.symm (.inr (.inr (.inr (.inl ⟨.inr rfl, hrd⟩))))
  · exact State.command_of_error hs (by simp [hl, require_neg _ (Nat.not_le.2 hpast)])
  · rintro rfl
    exact State.command_of_ok hs (by simp [hl])
  · rintro k d rfl hd
    have hk : k < l.count := (List.getElem?_eq_some_iff.1 hd).1
    exact State.command_of_ok hs (by simp [hl, hk, DigitList.element_succ hd])

end Sys2Proof.Machine
end

section
/-! PROOFS. Scope: the iteration that the two engine modes share (R90, R91, R95 to R97): when ESTART and ESTEP complete
or fault, an active run under the invariant, and the recurrence of RES, ROOT and MC. -/

namespace Sys2Proof.Machine

/-! ### The commands that replace the engine (R89, R90) -/

section EngineCommand

variable {s : State} {o : Opcode} {x : Except Cause Engine} {e : Engine} {c : Cause}

/-- A core that is not FAULTED tells a response from a fault. -/
theorem State.respond_ne_takeFault (hs : s.fsr = none) (r : Response) (fop : BitVec 6) :
    { s with engine := e }.respond r ≠ s.takeFault fop c := fun h => by
  have hfsr := congrArg State.fsr h
  simp [hs] at hfsr

/-- A command whose rule gives a new engine completes with `e` exactly when `e` is that engine. -/
theorem State.command_engine_ok_iff (hs : s.fsr = none) :
    (s.command o do let e ← x; return ({ s with engine := e }, 0)) =
      .next ({ s with engine := e }.respond ⟨.ok, 0, 0⟩) ↔ x = .ok e := by
  cases x with
  | ok e' =>
    rw [ok_bind, return_eq_ok, State.command_ok hs]
    refine ⟨fun h => ?_, fun h => by cases h; rfl⟩
    exact congrArg Except.ok (congrArg State.engine (Host.Outcome.next.inj h))
  | error c =>
    rw [error_bind, State.command_error hs]
    exact ⟨fun h => absurd (Host.Outcome.next.inj h).symm (State.respond_ne_takeFault hs _ _), nofun⟩

/-- It takes the fault `c` exactly when its rule raises `c`. -/
theorem State.command_engine_fault_iff (hs : s.fsr = none) :
    (s.command o do let e ← x; return ({ s with engine := e }, 0)) = .next (s.takeFault o.code c) ↔
      x = .error c := by
  cases x with
  | ok e' =>
    rw [ok_bind, return_eq_ok, State.command_ok hs]
    exact ⟨fun h => absurd (Host.Outcome.next.inj h) (State.respond_ne_takeFault hs _ _), nofun⟩
  | error c' =>
    rw [error_bind, State.command_error hs]
    refine ⟨fun h => ?_, fun h => by cases h; rfl⟩
    have hfsr := congrArg State.fsr (Host.Outcome.next.inj h)
    simpa using hfsr

/-- ESTEP completes with the engine of the next iteration (R90). -/
theorem exec_estep_ok_iff (hs : s.fsr = none) :
    exec .estep s = .next ({ s with engine := e }.respond ⟨.ok, 0, 0⟩) ↔ s.engine.iterate s.cfg = .ok e :=
  State.command_engine_ok_iff hs

/-- ESTEP takes the fault that the next iteration raises (R90). -/
theorem exec_estep_fault_iff (hs : s.fsr = none) :
    exec .estep s = .next (s.takeFault 0x21 c) ↔ s.engine.iterate s.cfg = .error c :=
  State.command_engine_fault_iff (o := .estep) hs

/-- ESTART completes with the started engine (R89). -/
theorem exec_estart_ok_iff {ra rb rd : Slot} {mode : EngineMode} (hs : s.fsr = none) :
    exec (.estart ra rb rd mode) s = .next ({ s with engine := e }.respond ⟨.ok, 0, 0⟩) ↔
      s.startRun ra rb rd mode = .ok e :=
  State.command_engine_ok_iff hs

/-- ESTART takes the fault that its checks raise (R89). -/
theorem exec_estart_fault_iff {ra rb rd : Slot} {mode : EngineMode} (hs : s.fsr = none) :
    exec (.estart ra rb rd mode) s = .next (s.takeFault 0x20 c) ↔ s.startRun ra rb rd mode = .error c :=
  State.command_engine_fault_iff (o := .estart) hs

end EngineCommand

/-! ### An active run (R29, R30) -/

theorem Allocated.signed_eq {c : Config} {o : Option Reg} {r : Reg} {signed : Bool} {width : Option Nat}
    (h : Allocated c o signed width) (ho : o = some r) : r.signed = signed := by
  obtain ⟨_, rfl, -, hsigned, -⟩ := h
  cases ho
  exact hsigned

theorem Allocated.width_eq {c : Config} {o : Option Reg} {r : Reg} {signed : Bool} {w : Nat}
    (h : Allocated c o signed (some w)) (ho : o = some r) : r.w = w :=
  (ho ▸ h).w_eq

/-- An active engine is one that a run has been started on. -/
theorem Engine.Ok.runOk {c : Config} {e : Engine} (h : e.Ok c) (hactive : e.active = true) : RunOk c e := by
  rcases h with rfl | h
  · cases hactive
  · exact h

theorem RunOk.one_le_total {c : Config} {e : Engine} (h : RunOk c e) (hactive : e.active = true) : 1 ≤ e.total := by
  rcases h.phase with ⟨-, -, hlt⟩ | ⟨hidle, -⟩
  · omega
  · rw [hactive] at hidle; cases hidle

/-- A basic run's next iteration raises nothing (R90). -/
theorem RunOk.iterate_basic {c : Config} {e : Engine} (h : RunOk c e) (hactive : e.active = true)
    (hmode : e.mode = .basic) : ∃ e', e.iterate c = .ok e' := by
  obtain ⟨res, hres, -⟩ := h.res
  obtain ⟨root, hroot, -⟩ := h.root
  obtain ⟨mc, hmc, -⟩ := h.mc
  obtain ⟨sref, hsref, -⟩ := h.sref
  exact ⟨e.basicIteration c res root mc sref, by simp [Engine.iterate, hactive, hmode, hres, hroot, hmc, hsref]⟩

/-- A practical run's next iteration is the practical one on the allocated registers (R90, R99). -/
theorem RunOk.iterate_practical {c : Config} {e : Engine} (h : RunOk c e) (hactive : e.active = true)
    (hmode : e.mode = .practical) :
    ∃ res root mc sref p, e.mc = some mc ∧ e.practicalRegs = .ok p ∧
      e.iterate c = e.practicalIteration c res root mc sref p := by
  obtain ⟨res, hres, -⟩ := h.res
  obtain ⟨root, hroot, -⟩ := h.root
  obtain ⟨mc, hmc, -⟩ := h.mc
  obtain ⟨sref, hsref, -⟩ := h.sref
  have hpractical := h.practical
  simp only [PracticalOk, hmode] at hpractical
  obtain ⟨⟨resp, hresp, -⟩, ⟨q, hq, -⟩, ⟨qm, hqm, -⟩, ⟨d, hd, -⟩, ⟨dm, hdm, -⟩⟩ := hpractical
  have hp : e.practicalRegs = .ok ⟨resp, q, qm, d, dm⟩ := Engine.practicalRegs_eq_ok.2 ⟨hresp, hq, hqm, hd, hdm⟩
  refine ⟨res, root, mc, sref, _, hmc, hp, ?_⟩
  simp [Engine.iterate, hactive, hmode, hres, hroot, hmc, hsref, hp]

theorem RunOk.nextMultiplierDigit {c : Config} {e : Engine} (h : RunOk c e) :
    NextMultiplierDigit c e (e.multiplierDigit c (e.eiter + 1)) := by
  obtain ⟨hcount, -⟩ := h.multiplier
  exact nextMultiplierDigit_multiplierDigit hcount

/-- PP of the next iteration is exactly b·MC (R90). -/
theorem RunOk.val_partialProduct {c : Config} {e : Engine} (h : RunOk c e) (hactive : e.active = true) {mc : Reg}
    (hmc : e.mc = some mc) (i : Nat) : (e.partialProduct c i mc).val = e.multiplierDigit c i * mc.val := by
  obtain ⟨-, hdigits⟩ := h.multiplier
  exact partialProduct_val (h.one_le_total hactive) (h.mc.width_eq hmc) (h.mc.signed_eq hmc) hdigits

/-! ### The basic update, in either mode (R95 to R97) -/

/-- The basic update of the next iteration: ROOT and RES as exact stores of the terms of the recurrence (R96). -/
theorem RunOk.basicUpdate_stored {c : Config} {e : Engine} (h : RunOk c e) (hactive : e.active = true)
    {res root mc : Reg} (hres : e.res = some res) (hroot : e.root = some root) (hmc : e.mc = some mc) :
    let t := e.rootDigit (e.eiter + 1)
    let new := basicUpdate c e.total e.k t (e.partialProduct c (e.eiter + 1) mc) res root
    Stored root (root.val * 2 ^ c.m + t) new.2 ∧
      ResidualStep c e.k res (e.multiplierDigit c (e.eiter + 1) * mc.val)
        (t * (2 * (root.val * 2 ^ c.m % 2 ^ (c.m * e.total)) + t)) new.1 := by
  have ht := Engine.rootDigit_lt h.rootDigits (e.eiter + 1)
  have hI := h.one_le_total hactive
  have hw := h.root.width_eq hroot
  obtain ⟨hroot1, -⟩ := h.root.regOk hroot
  obtain ⟨hres1, -⟩ := h.res.regOk hres
  refine ⟨stored_appendRoot (h.root.signed_eq hroot) (hw ▸ Nat.le_mul_of_pos_right _ hI) hroot1 ht, ?_⟩
  rw [← h.val_partialProduct hactive hmc, ← linearQuadratic_val hw hI ht]
  exact residualStep c e.k res _ _ hres1

/-- A root append that latches no overflow has kept every bit of ROOT·2^m. -/
theorem Stored.mul_emod_of_appendRoot {root root' : Reg} {m t : Nat} (h : Stored root (root.val * 2 ^ m + t) root')
    (hunsigned : root.signed = false) (hw : 1 ≤ root.w) (ho : root'.ovf = false) :
    root.val * 2 ^ m % 2 ^ root.w = root.val * 2 ^ m := by
  have hlt := root'.val_bounds.2
  rw [h.val_eq hw ho, h.w_eq] at hlt
  have hpos : 0 ≤ root.val * 2 ^ m := by
    rw [Reg.val_unsigned hunsigned]
    positivity
  exact Int.emod_eq_of_lt hpos (by omega)

/-- `LSL` is an exact store (R72). -/
theorem Reg.stored_lsl (r : Reg) (n : Nat) (hw : 1 ≤ r.w) : Stored r (r.val * 2 ^ n) (r.lsl n) := by
  rw [r.lsl_eq]
  exact stored_storeExact r _ hw

/-- The phase of a run after one more iteration (R33, R92). -/
theorem RunOk.iterate_phase {c : Config} {e e' : Engine} (h : RunOk c e) (hi : e.iterate c = .ok e') :
    (e'.done = true ↔ e.eiter + 1 = e.total) ∧ (e'.active = true ↔ e.eiter + 1 < e.total) := by
  obtain ⟨heiter, htotal, -⟩ := Engine.iterate_progress hi
  rcases (h.iterate hi).phase with ⟨hactive, hdone, hlt⟩ | ⟨hactive, hdone, hend⟩
  · rw [heiter, htotal] at hlt
    simp [hactive, hdone, hlt, hlt.ne]
  · rw [heiter, htotal] at hend
    simp [hactive, hdone, hend]

/-- Settles O47: the basic update's RES, ROOT and MC are exact stores of the terms of the recurrence. -/
theorem estepBasicRecurrence : Obligations.EstepBasicRecurrence := by
  intro s hs hfsr hactive
  have hrun := hs.engine.runOk hactive
  refine ⟨fun hmode => ?_, fun e he => ?_⟩
  · obtain ⟨_, hok⟩ := hrun.iterate_basic hactive hmode
    exact ⟨_, (exec_estep_ok_iff hfsr).2 hok⟩
  rw [exec_estep_ok_iff hfsr] at he
  obtain ⟨heiter, htotal, hmode, -⟩ := Engine.iterate_progress he
  obtain ⟨res, root, mc, sref, hres, hroot, hmc, -, ⟨hres', hroot'⟩, hmc', hk, hbd, hsd, hwA, hsref', hbasic⟩ :=
    Engine.iterate_track he
  obtain ⟨hdone, hactive'⟩ := hrun.iterate_phase he
  have hpractical := (hrun.iterate he).practical
  obtain ⟨hstoredRoot, hstep⟩ := hrun.basicUpdate_stored hactive hres hroot hmc
  obtain ⟨hroot1, -⟩ := hrun.root.regOk hroot
  obtain ⟨hres1, -⟩ := hrun.res.regOk hres
  obtain ⟨hmc1, -⟩ := hrun.mc.regOk hmc
  have hstoredMc : e.done = false → Stored mc (mc.val * 2 ^ s.cfg.m)
      (if s.engine.eiter + 1 = s.engine.total then mc else mc.lsl s.cfg.m) := fun hd => by
    rw [if_neg fun hend => by rw [hdone.2 hend] at hd; cases hd]
    exact mc.stored_lsl _ hmc1
  refine ⟨res, root, mc, _, _, _, _, _, _, hres, hroot, hmc, hres', hroot', hmc', nextRootDigit_rootDigit _,
    Engine.rootDigit_lt hrun.rootDigits _, hrun.nextMultiplierDigit,
    fun hm => (hbasic hm).1, heiter, hdone, hactive', hmode, htotal, hk, hbd, hsd, hwA, hsref',
    fun hm => by simpa only [PracticalOk, hmode, hm] using hpractical, hstoredRoot, hstep,
    fun hd => if_pos (hdone.1 hd), hstoredMc, fun ho hd => (hstoredMc hd).val_eq hmc1 ho, rfl, fun ho => ?_⟩
  have hterm := hstoredRoot.mul_emod_of_appendRoot (hrun.root.signed_eq hroot) hroot1 ho
  rw [hrun.root.width_eq hroot] at hterm
  rw [hterm] at hstep
  exact ⟨hstoredRoot.val_eq hroot1 ho, hstep.bits_eq, hstep.val_eq hres1⟩

end Sys2Proof.Machine
end

section
/-! PROOFS. Scope: the practical iteration (R99 to R107): the selection decides whether it completes, and what it stores in
RESP and in the four registers of the on-the-fly conversion. -/

namespace Sys2Proof.Machine

/-! ### The selection decides a practical iteration (R90, R99, R100) -/

/-- RESP after the three steps of R99 with the digit x. -/
def nextResidual (c : Config) (total k : Nat) (pp : Reg) (p : Practical) (x : Int) : Reg :=
  ((p.resp.lsl (2 * c.m)).addAt pp 1 c.m).addAt (practicalQuadratic c total p x) (-1) k

/-- The practical update is the conversion and the residual of the digit that is selected from RESP shifted, with PP
added (R99). -/
theorem practicalUpdate_eq {c : Config} {total k i b : Nat} {pp mc : Reg} {p : Practical} (hpp : pp.val = b * mc.val) :
    practicalUpdate c total k i pp p = do
      let x ← selectDigit c i (shiftedResidual c p.resp mc b) p.q
      return ({ convert c total p x with resp := nextResidual c total k pp p x }, x) := by
  obtain ⟨o, ho⟩ := shiftedResidual_eq c (resp := p.resp) hpp
  rw [← selectDigit_ovf c i (shiftedResidual c p.resp mc b) p.q o, ← ho]
  rfl

/-- A practical iteration raises what the selection raises, and commits the practical registers of the digit selected. -/
theorem RunOk.iterate_select {c : Config} {e : Engine} {p : Practical} {mc : Reg} {b : Nat} (h : RunOk c e)
    (hactive : e.active = true) (hmode : e.mode = .practical) (hp : e.practicalRegs = .ok p) (hmc : e.mc = some mc)
    (hb : NextMultiplierDigit c e b) :
    ∃ next : Int → Engine,
      e.iterate c = (do
        let x ← selectDigit c (e.eiter + 1) (shiftedResidual c p.resp mc b) p.q
        return next x) ∧
      ∀ x, (next x).elastd = x ∧
        (next x).resp = some (nextResidual c e.total e.k (e.partialProduct c (e.eiter + 1) mc) p x) ∧
        (next x).q = some (convert c e.total p x).q ∧ (next x).qm = some (convert c e.total p x).qm ∧
        (next x).d = some (convert c e.total p x).d ∧ (next x).dm = some (convert c e.total p x).dm := by
  obtain ⟨res, root, mc', sref, p', hmc', hp', hi⟩ := h.iterate_practical hactive hmode
  cases hmc.symm.trans hmc'
  cases hp.symm.trans hp'
  cases hb.unique h.nextMultiplierDigit
  have hpp := h.val_partialProduct hactive hmc (e.eiter + 1)
  rw [hi, Engine.practicalIteration]
  simp only [practicalUpdate_eq hpp, bind_assoc, return_eq_ok, ok_bind]
  exact ⟨_, rfl, fun x => by simp only [Engine.finish_fields, and_self]⟩

/-- Settles O50: ESTEP answers as the selection does, which gives a digit or raises one of two causes. -/
theorem estepPracticalFaultsChangeNothing : Obligations.EstepPracticalFaultsChangeNothing := by
  intro s hs hfsr hactive hmode
  have hrun := hs.engine.runOk hactive
  obtain ⟨_, _, mc, _, p, hmc, hp, -⟩ := hrun.iterate_practical hactive hmode
  obtain ⟨hresp, hq, -⟩ := Engine.practicalRegs_eq_ok.1 hp
  have hb := hrun.nextMultiplierDigit
  obtain ⟨next, hi, hnext⟩ := hrun.iterate_select hactive hmode hp hmc hb
  refine ⟨p.resp, p.q, mc, _, hresp, hq, hmc, hb, ?_⟩
  have hfault : ∀ c, selectDigit s.cfg (s.engine.eiter + 1) (shiftedResidual s.cfg p.resp mc _) p.q = .error c →
      exec .estep s = .next (s.takeFault 0x21 c) := fun c hc => by
    rw [exec_estep_fault_iff hfsr, hi, hc, error_bind]
  rcases selectDigit_cases s.cfg (s.engine.eiter + 1) (shiftedResidual s.cfg p.resp mc _) p.q with
    ⟨x, hx, -⟩ | hc | hc
  · rw [hx, ok_bind, return_eq_ok] at hi
    obtain ⟨heiter, -⟩ := Engine.iterate_progress hi
    exact .inl ⟨x, next x, hx, (exec_estep_ok_iff hfsr).2 hi, heiter, (hnext x).1⟩
  · exact .inr ⟨_, .inl rfl, hc, hfault _ hc⟩
  · exact .inr ⟨_, .inr rfl, hc, hfault _ hc⟩

/-- Settles O48: below delta the selection gives digit 0, so ESTEP does not raise. -/
theorem estepEarlyPracticalSelectsZero : Obligations.EstepEarlyPracticalSelectsZero := by
  intro s hs hfsr hactive hmode hearly
  obtain ⟨resp, q, mc, b, -, -, -, -, hcases⟩ := estepPracticalFaultsChangeNothing s hs hfsr hactive hmode
  obtain ⟨hzero, -⟩ := selectionFollowsRules s.cfg (s.engine.eiter + 1) (shiftedResidual s.cfg resp mc b) q
  rcases hcases with ⟨x, e, hx, he, heiter, hlast⟩ | ⟨c, -, hc, -⟩
  · cases (hzero hearly).symm.trans hx
    exact ⟨e, he, heiter, hlast⟩
  · cases (hzero hearly).symm.trans hc

/-! ### The on-the-fly conversion (R105) -/

/-- The registers of a practical run, with the widths and the modes of R30. -/
structure Practical.Shaped (c : Config) (total : Nat) (p : Practical) : Prop where
  radix : 1 ≤ c.m
  total_pos : 1 ≤ total
  resp : 1 ≤ p.resp.w
  q : p.q.w = c.m * total + 1 ∧ p.q.signed = true
  qm : p.qm.w = c.m * total + 1 ∧ p.qm.signed = true
  d : p.d.w = c.m * total + 2 ∧ p.d.signed = true
  dm : p.dm.w = c.m * total + 2 ∧ p.dm.signed = true

theorem RunOk.shaped {c : Config} {e : Engine} {p : Practical} (h : RunOk c e) (hactive : e.active = true)
    (hmode : e.mode = .practical) (hp : e.practicalRegs = .ok p) : p.Shaped c e.total := by
  obtain ⟨hresp, hq, hqm, hd, hdm⟩ := Engine.practicalRegs_eq_ok.1 hp
  have hpractical := h.practical
  simp only [PracticalOk, hmode] at hpractical
  obtain ⟨oresp, oq, oqm, od, odm⟩ := hpractical
  obtain ⟨hresp1, -⟩ := oresp.regOk hresp
  exact ⟨h.radix.1, h.one_le_total hactive, hresp1, ⟨oq.width_eq hq, oq.signed_eq hq⟩,
    ⟨oqm.width_eq hqm, oqm.signed_eq hqm⟩, ⟨od.width_eq hd, od.signed_eq hd⟩, ⟨odm.width_eq hdm, odm.signed_eq hdm⟩⟩

/-- A temporary written back into a register of its mode leaves the temporary's value. -/
theorem Reg.val_writeBack {x t : Reg} (h : x.signed = t.signed) : (x.writeBack t).val = t.val := by
  simp only [Reg.val, Reg.writeBack, h]

/-- Writing an exact temporary that latches nothing back into its register. -/
theorem Reg.writeBack_store {x : Reg} {W : Nat} {v : Int} (hw : x.w = W) (hs : x.signed = true) :
    x.writeBack ((Reg.zero W true).store v) = ⟨x.w, BitVec.ofInt x.w v, true, x.ovf, x.unf⟩ := by
  subst hw
  simp [Reg.writeBack, hs]

/-- A signed value doubled, with a bit below, is exact in a register one bit wider. -/
theorem Reg.writeBack_doubled {x r t : Reg} {W : Nat} {y : Int} (hx : x.w = W) (hxs : x.signed = true)
    (hW : W = r.w + 1) (hr : 1 ≤ r.w) (hrs : r.signed = true) (h0 : 0 ≤ y) (h1 : y ≤ 1)
    (ht : t = (Reg.zero W true).store (r.val * 2 ^ 1 + y)) :
    x.writeBack t = ⟨x.w, BitVec.ofInt x.w (2 * r.val + y), true, x.ovf, x.unf⟩ ∧
      (x.writeBack t).val = 2 * r.val + y := by
  rw [ht, pow_one, mul_comm r.val]
  refine ⟨Reg.writeBack_store hx hxs, ?_⟩
  rw [Reg.val_writeBack hxs]
  refine Reg.val_store (inRange_signed.2 ?_)
  obtain ⟨n, hn⟩ := Nat.exists_eq_add_of_le' hr
  have hfits := r.fits_val
  rw [Reg.fits, hrs, inRange_signed, hn, pow_succ] at hfits
  change -(2 ^ W : Int) ≤ _ ∧ _ < (2 : Int) ^ W
  rw [hW, hn, pow_succ, pow_succ]
  omega

/-- The next roots have the width and the mode of Q and QM (R105). -/
theorem nextRoot_shape (c : Config) (total : Nat) (p : Practical) (x : Int) :
    (nextRoot c total p x).w = c.m * total + 1 ∧ (nextRoot c total p x).signed = true := by
  unfold nextRoot
  split <;> exact ⟨rfl, rfl⟩

/-- The next shadow root is the next root of the digit below (R105). -/
theorem nextShadow_eq_nextRoot (c : Config) (total : Nat) (p : Practical) (x : Int) :
    nextShadow c total p x = nextRoot c total p (x - 1) := by
  have htest : 0 ≤ x - 1 ↔ 0 < x := by omega
  simp only [nextShadow, nextRoot, htest, add_sub_assoc]

/-- From registers that hold Q, Q − 1, 2Q and 2Q − 1, either seed of R105 and R99 spells the same exact result: r·Q + x,
r·Q + x − 1 and 2·r·Q + x (R106). -/
theorem conversion_seeds {r q qm d dm : Int} (x : Int) (hqm : qm = q - 1) (hd : d = 2 * q) (hdm : dm = 2 * q - 1) :
    (if 0 ≤ x then q * r + x else qm * r + (r + x)) = q * r + x ∧
      (if 0 < x then q * r + (x - 1) else qm * r + (r + x - 1)) = q * r + x - 1 ∧
      (if 0 ≤ x then d * r + x else dm * r + (r + x)) = 2 * (q * r) + x := by
  subst hqm hd hdm
  refine ⟨?_, ?_, ?_⟩ <;> split <;> ring

namespace Practical.Shaped

variable {c : Config} {total : Nat} {p : Practical} {x : Int}

/-- The next root of a digit or of the one below is the exact [Q | x] or [QM | r + x] (R105). -/
theorem nextRoot_eq (h : p.Shaped c total) (h1 : -(2 ^ c.m : Int) ≤ x) (h2 : x < 2 ^ c.m) :
    nextRoot c total p x = (Reg.zero (c.m * total + 1) true).storeExact
      (if 0 ≤ x then p.q.val * 2 ^ c.m + x else p.qm.val * 2 ^ c.m + (2 ^ c.m + x)) := by
  have hm : c.m ≤ c.m * total := Nat.le_mul_of_pos_right _ h.total_pos
  obtain ⟨hqw, hqs⟩ := h.q
  obtain ⟨hqmw, hqms⟩ := h.qm
  unfold nextRoot
  split
  · exact appended_eq hqs (by omega) (by omega) (by omega) h2
  · exact appended_eq hqms (by omega) (by omega) (by omega) (by omega)

/-- U has the bits of [D | x] or [DM | r + x] (R99). -/
theorem doubledTerm_val (h : p.Shaped c total) (h1 : -(2 ^ c.m : Int) < x) (h2 : x < 2 ^ c.m) :
    (doubledTerm c total p x).val = (BitVec.ofInt (c.m * total + 3)
      (if 0 ≤ x then p.d.val * 2 ^ c.m + x else p.dm.val * 2 ^ c.m + (2 ^ c.m + x))).toInt := by
  have hm := h.radix
  obtain ⟨hdw, -⟩ := h.d
  obtain ⟨hdmw, -⟩ := h.dm
  have happended : ∀ {seed : Reg} {y : Int}, c.m * total + 3 ≤ seed.w + c.m → 0 ≤ y → y < 2 ^ c.m →
      (appended c.m (c.m * total + 3) seed y).val = (BitVec.ofInt (c.m * total + 3) (seed.val * 2 ^ c.m + y)).toInt :=
    fun hw hy0 hy1 => by rw [← appended_bits hw hy0 hy1]; exact Reg.val_signed rfl
  unfold doubledTerm
  split
  · exact happended (by omega) (by omega) h2
  · exact happended (by omega) (by omega) (by omega)

theorem convert_q_shape (h : p.Shaped c total) :
    (convert c total p x).q.w = c.m * total + 1 ∧ (convert c total p x).q.signed = true :=
  ⟨(nextRoot_shape c total p x).1, h.q.2⟩

/-- Q' is the exact next root, stored (R105). -/
theorem convert_q (h : p.Shaped c total) (h1 : -(2 ^ c.m : Int) < x) (h2 : x < 2 ^ c.m) :
    Stored p.q (if 0 ≤ x then p.q.val * 2 ^ c.m + x else p.qm.val * 2 ^ c.m + (2 ^ c.m + x))
      (convert c total p x).q := by
  obtain ⟨hw, hs⟩ := h.q
  change Stored _ _ (p.q.writeBack (nextRoot c total p x))
  rw [h.nextRoot_eq h1.le h2, ← hw]
  exact stored_writeBack _ hs (by omega)

/-- QM' is the exact next shadow root, stored (R105). -/
theorem convert_qm (h : p.Shaped c total) (h1 : -(2 ^ c.m : Int) < x) (h2 : x < 2 ^ c.m) :
    Stored p.qm (if 0 < x then p.q.val * 2 ^ c.m + (x - 1) else p.qm.val * 2 ^ c.m + (2 ^ c.m + x - 1))
      (convert c total p x).qm := by
  obtain ⟨hw, hs⟩ := h.qm
  have htest : 0 ≤ x - 1 ↔ 0 < x := by omega
  change Stored _ _ (p.qm.writeBack (nextShadow c total p x))
  rw [nextShadow_eq_nextRoot, h.nextRoot_eq (by omega) (by omega), ← hw]
  simp only [htest, add_sub_assoc]
  exact stored_writeBack _ hs (by omega)

/-- D' is twice Q', and latches nothing (R105). -/
theorem convert_d (h : p.Shaped c total) :
    (convert c total p x).d =
        ⟨p.d.w, BitVec.ofInt p.d.w (2 * (convert c total p x).q.val), true, p.d.ovf, p.d.unf⟩ ∧
      (convert c total p x).d.val = 2 * (convert c total p x).q.val := by
  obtain ⟨hw, hs⟩ := h.d
  obtain ⟨-, hqs⟩ := h.q
  obtain ⟨hrw, hrs⟩ := nextRoot_shape c total p x
  have hq : (convert c total p x).q.val = (nextRoot c total p x).val := Reg.val_writeBack (hqs.trans hrs.symm)
  have hW : c.m * total + 2 = (nextRoot c total p x).w + 1 := by rw [hrw]
  have hdouble := Reg.writeBack_doubled hw hs hW (by omega) hrs le_rfl zero_le_one
    ((doubled_eq hW).trans (by rw [add_zero]))
  rw [add_zero] at hdouble
  exact hq ▸ hdouble

/-- DM' is twice QM' plus 1, and latches nothing (R105). -/
theorem convert_dm (h : p.Shaped c total) :
    (convert c total p x).dm =
        ⟨p.dm.w, BitVec.ofInt p.dm.w (2 * (convert c total p x).qm.val + 1), true, p.dm.ovf, p.dm.unf⟩ ∧
      (convert c total p x).dm.val = 2 * (convert c total p x).qm.val + 1 := by
  obtain ⟨hw, hs⟩ := h.dm
  obtain ⟨-, hqs⟩ := h.qm
  obtain ⟨hrw, hrs⟩ := nextRoot_shape c total p (x - 1)
  rw [← nextShadow_eq_nextRoot] at hrw hrs
  have hq : (convert c total p x).qm.val = (nextShadow c total p x).val := Reg.val_writeBack (hqs.trans hrs.symm)
  have hW : c.m * total + 2 = (nextShadow c total p x).w + 1 := by rw [hrw]
  exact hq ▸ Reg.writeBack_doubled hw hs hW (by omega) hrs zero_le_one le_rfl (doubledShadow_eq hW)

/-- RESP after the three steps of R99. -/
theorem nextResidual_step (h : p.Shaped c total) (h1 : -(2 ^ c.m : Int) < x) (h2 : x < 2 ^ c.m) (k : Nat) (pp : Reg) :
    ResidualStep c k p.resp pp.val
      (x * (BitVec.ofInt (c.m * total + 3)
        (if 0 ≤ x then p.d.val * 2 ^ c.m + x else p.dm.val * 2 ^ c.m + (2 ^ c.m + x))).toInt)
      (nextResidual c total k pp p x) := by
  rw [← h.doubledTerm_val h1 h2, ← practicalQuadratic_val h1 h2]
  exact residualStep c k p.resp pp _ h.resp

/-- From registers that hold Q, Q − 1, 2Q and 2Q − 1, what the next roots and RESP store is said by Q alone (R106). -/
theorem stored_of_related (h : p.Shaped c total) (h1 : -(2 ^ c.m : Int) < x) (h2 : x < 2 ^ c.m) (k : Nat) (pp : Reg)
    (hqm : p.qm.val = p.q.val - 1) (hd : p.d.val = 2 * p.q.val) (hdm : p.dm.val = 2 * p.q.val - 1) :
    Stored p.q (p.q.val * 2 ^ c.m + x) (convert c total p x).q ∧
      Stored p.qm (p.q.val * 2 ^ c.m + x - 1) (convert c total p x).qm ∧
      ResidualStep c k p.resp pp.val
        (x * (BitVec.ofInt (c.m * total + 3) (2 * (p.q.val * 2 ^ c.m) + x)).toInt)
        (nextResidual c total k pp p x) := by
  obtain ⟨hq, hshadow, hU⟩ := conversion_seeds (r := 2 ^ c.m) x hqm hd hdm
  exact ⟨hq ▸ h.convert_q h1 h2, hshadow ▸ h.convert_qm h1 h2, hU ▸ h.nextResidual_step h1 h2 k pp⟩

end Practical.Shaped

/-- While the next root fits, so does U = 2·r·Q + x in its m·I + 3 bits (R106). -/
theorem toInt_doubledRoot {r : Reg} {m total : Nat} {v x : Int} (hw : r.w = m * total + 1) (hs : r.signed = true)
    (hI : 1 ≤ total) (hv : r.val = v + x) (h1 : -(2 ^ m : Int) < x) (h2 : x < 2 ^ m) :
    (BitVec.ofInt (m * total + 3) (2 * v + x)).toInt = 2 * v + x := by
  have hr := r.fits_val
  rw [Reg.fits, hs, inRange_signed, hw, hv, pow_succ] at hr
  have hpow : (2 : Int) ^ m ≤ 2 ^ (m * total) := pow_le_pow_right₀ (by norm_num) (Nat.le_mul_of_pos_right m hI)
  rw [BitVec.toInt_ofInt]
  refine Int.bmod_eq_of_le_mul_two ?_ ?_ <;> push_cast <;> rw [pow_add] <;> omega

theorem selectDigit_range {c : Config} {i : Nat} {resp q : Reg} {x : Int} (h : selectDigit c i resp q = .ok x) :
    -(c.alpha : Int) ≤ x ∧ x ≤ c.beta := by
  rcases selectDigit_cases c i resp q with ⟨_, hok, hrange⟩ | hc | hc
  · cases hok.symm.trans h
    exact hrange
  · cases hc.symm.trans h
  · cases hc.symm.trans h

/-- A selected digit has a magnitude below the radix (R89 check 2, R104). -/
theorem RunOk.digit_lt {c : Config} {e : Engine} {i : Nat} {resp q : Reg} {x : Int} (h : RunOk c e)
    (hmode : e.mode = .practical) (hsel : selectDigit c i resp q = .ok x) :
    -(2 ^ c.m : Int) < x ∧ x < 2 ^ c.m := by
  obtain ⟨halpha, hbeta⟩ := h.digitSet hmode
  obtain ⟨hlow, hhigh⟩ := selectDigit_range hsel
  zify at halpha hbeta
  omega

/-- Settles O49: the conversion's four exact stores and the residual's three, with the digit selected; under Q − 1, 2Q and
2Q − 1 the seeds of R105 and the term U of R99 say the same as Q. -/
theorem estepPracticalRecurrence : Obligations.EstepPracticalRecurrence := by
  intro s e resp q qm d dm resp' q' qm' d' dm' mc b x u next hs hfsr hactive hmode he hresp hq hqm hd hdm hmc hb
    hresp' hq' hqm' hd' hdm' hx hu hnext
  have hrun := hs.engine.runOk hactive
  have hp : s.engine.practicalRegs = .ok ⟨resp, q, qm, d, dm⟩ :=
    Engine.practicalRegs_eq_ok.2 ⟨hresp, hq, hqm, hd, hdm⟩
  have hshape := hrun.shaped hactive hmode hp
  obtain ⟨commit, hi, hcommit⟩ := hrun.iterate_select hactive hmode hp hmc hb
  rw [exec_estep_ok_iff hfsr, hi, bind_eq_ok] at he
  obtain ⟨x', hsel, he⟩ := he
  cases he
  obtain ⟨hlast, eresp, eq, eqm, ed, edm⟩ := hcommit x'
  obtain rfl : x = x' := hx.trans hlast
  cases hresp'.symm.trans eresp
  cases hq'.symm.trans eq
  cases hqm'.symm.trans eqm
  cases hd'.symm.trans ed
  cases hdm'.symm.trans edm
  obtain ⟨hlow, hhigh⟩ := hrun.digit_lt hmode hsel
  obtain ⟨hqw', hqs'⟩ := hshape.convert_q_shape (x := x)
  have hq1 : 1 ≤ q.w := hshape.q.1 ▸ Nat.le_add_left 1 _
  have hqm1 : 1 ≤ qm.w := hshape.qm.1 ▸ Nat.le_add_left 1 _
  obtain ⟨hdouble, hdoubleVal⟩ := hshape.convert_d (x := x)
  obtain ⟨hdoubleM, hdoubleMVal⟩ := hshape.convert_dm (x := x)
  have hpp : (s.engine.partialProduct s.cfg (s.engine.eiter + 1) mc).val = b * mc.val := by
    rw [hrun.val_partialProduct hactive hmc, hb.unique hrun.nextMultiplierDigit]
  obtain ⟨halpha, hbeta⟩ := selectDigit_range hsel
  refine ⟨hsel, halpha, hbeta, hshape.convert_q hlow hhigh,
    hshape.convert_qm hlow hhigh, hdouble, hdoubleVal, hdoubleM, hdoubleMVal,
    hu ▸ hpp ▸ hshape.nextResidual_step hlow hhigh _ _, fun hrelQm hrelD hrelDm => ?_⟩
  obtain ⟨hroot, hshadow, hstep⟩ := hshape.stored_of_related hlow hhigh s.engine.k _ hrelQm hrelD hrelDm
  refine ⟨hroot, hshadow, fun ho => ?_, fun ho hom => ?_⟩
  · have hval := hroot.val_eq hq1 ho
    rw [hpp, toInt_doubledRoot hqw' hqs' hshape.total_pos hval hlow hhigh] at hstep
    exact ⟨hval, hnext ▸ hstep.bits_eq, fun hor => hnext ▸ hstep.val_eq hshape.resp hor⟩
  · have hval := hroot.val_eq hq1 ho
    have hvalm := hshadow.val_eq hqm1 hom
    constructor <;> omega

end Sys2Proof.Machine
end

section
/-! PROOFS. Scope: starting a run (R89): the checks of ESTART in order, and the engine it leaves. -/

namespace Sys2Proof.Machine

/-! ### The checks of ESTART -/

/-- A command whose rule first checks `p` takes the fault of that check if it fails, and goes on if it does not (R15). -/
theorem State.command_require {s : State} (hs : s.fsr = none) {o : Opcode} {p failed : Prop} [Decidable p]
    [Decidable failed] {c : Cause} {f : Unit → Except Cause (State × Word)} {t : Answer} (hfailed : failed ↔ ¬p)
    (hbody : p → s.command o (f ()) = t) :
    s.command o (require p c >>= f) = if failed then .next (s.takeFault o.code c) else t := by
  by_cases hp : p
  · rw [if_neg fun h => hfailed.1 h hp, require_pos c hp, ok_bind, hbody hp]
  · rw [if_pos (hfailed.2 hp), require_neg c hp, error_bind, State.command_error hs]

/-- With its operands found, ESTART is a command whose rule is the checks and then the started engine (R89). -/
theorem exec_estart_of_operands {s : State} {ra rb rd : Slot} {mode : EngineMode} {a b d : Reg} (ha : s.reg ra = some a)
    (hb : s.reg rb = some b) (hd : s.reg rd = some d) :
    exec (.estart ra rb rd mode) s = s.command .estart do
      startChecks s.cfg mode a b d
      return ({ s with engine := startEngine s.cfg mode a b d }, 0) := by
  change execEstart ra rb rd mode s = _
  simp only [execEstart, State.startRun, State.operand_some ha, State.operand_some hb, State.operand_some hd, ok_bind,
    bind_assoc, return_eq_ok]

/-- Settles O44: each check of R89 that passes leaves the rule with the checks after it. -/
theorem estartChecksInOrder : Obligations.EstartChecksInOrder := by
  intro s ra rb rd mode hs
  refine ⟨by cases mode <;> rfl, fun h x hop himm8 => ?_, fun hnull => ?_,
    fun a b d total wrt wrp k ha hb hd htotal hk hwrt hwrp => ?_⟩
  · obtain ⟨-, hbadField⟩ := illegalWordsFault s h x hs
    exact hbadField .estart hop.symm (.inr (.inr (.inr (.inr (.inl ⟨.inl rfl, himm8⟩)))))
  · exact (exec_estart_fault_iff hs).2 (State.three_operands_null hnull _)
  · have hI : s.cfg.iterations mode = total := by rw [htotal]; cases mode <;> rfl
    have hK : s.cfg.alignment total = k := hk.symm
    rw [exec_estart_of_operands ha hb hd]
    simp only [startChecks, bind_assoc, hI, hK]
    -- One line per check, in R89's order: the statement's failing condition is the check's negation.
    refine State.command_require hs (by omega) fun _ => ?_
    refine State.command_require hs ?_ fun _ => ?_
    · rw [Classical.not_imp, Config.delta]
      exact and_congr_right fun _ => by omega
    refine State.command_require hs (by omega) fun _ => ?_
    refine State.command_require hs (by rw [Classical.not_imp, Nat.not_le]) fun _ => ?_
    refine State.command_require hs (by simp only [← Bool.not_eq_true]; tauto) fun _ => ?_
    refine State.command_require hs Iff.rfl fun _ => ?_
    refine State.command_require hs Classical.not_imp.symm fun _ => ?_
    refine State.command_require hs (Int.not_le).symm fun _ => ?_
    refine State.command_require hs ?_ fun _ => State.command_ok hs _ _ _
    simp only [widestRegister_le hI (congrArg Int.toNat hK) hwrt.symm hwrp.symm, Classical.not_and_iff_not_or_not,
      Classical.not_imp, Nat.not_le, or_assoc]

/-! ### The engine that ESTART leaves -/

/-- SZ holds S·2^Z (R89). -/
theorem paddedRoot_val (c : Config) {d : Reg} (hd : d.signed = false) :
    (paddedRoot c d).val = (d.bits.toNat * 2 ^ c.z : Nat) := by
  push_cast
  rw [← Reg.val_unsigned hd]
  refine Reg.val_of_bits (Reg.loadBits_zero_bits _ false d le_rfl) (inRange_unsigned.2 ⟨?_, ?_⟩)
  · rw [Reg.val_unsigned hd]
    positivity
  · change _ < (2 : Int) ^ (d.w + c.z)
    rw [pow_add]
    exact mul_lt_mul_of_pos_right d.val_bounds.2 (by positivity)

/-- The first digit of a list that has one. -/
theorem DigitList.getElem?_zero {l : DigitList} (h : 1 ≤ l.count) : l.digits[0]? = some (l.element 1) := by
  obtain ⟨digits⟩ := l
  cases digits with
  | nil => cases h
  | cons x xs => rfl

/-- The leading digit of a magnitude is no larger than it. -/
theorem Reg.element_one_le (r : Reg) {b : Nat} (h : 1 ≤ (r.digitList b).count) :
    (r.digitList b).element 1 ≤ r.val.natAbs := by
  rw [r.element_digitList le_rfl h]
  exact (Nat.mod_le _ _).trans (Nat.div_le_self _ _)

theorem Reg.natAbs_val_unsigned {r : Reg} (h : r.signed = false) : r.val.natAbs = r.bits.toNat := by
  rw [Reg.val_unsigned h, Int.natAbs_natCast]

/-- The product of b_1 and A fits a signed register wider than A and B together. -/
theorem inRange_firstProduct {a b : Reg} {b1 W : Nat} (ha : a.signed = false) (hb : b1 < 2 ^ b.w)
    (hW : a.w + b.w < W) : inRange W true (b1 * a.val) = true := by
  have hmul : b1 * a.bits.toNat < 2 ^ b.w * 2 ^ a.w := Nat.mul_lt_mul'' hb a.bits.isLt
  have hpow : 2 ^ (a.w + b.w + 1) ≤ 2 ^ W := Nat.pow_le_pow_right (by norm_num) hW
  rw [inRange_signed, Reg.val_unsigned ha]
  zify at hmul hpow
  rw [pow_succ, pow_add] at hpow
  constructor <;> nlinarith

/-- An exact result stored in a new signed register, in R11's words; `fits` is a condition under which it fits. -/
theorem Reg.exists_zero_storeExact {W : Nat} {v : Int} {fits : Prop} (h : fits → inRange W true v = true) :
    ∃ o : Bool, some ((Reg.zero W true).storeExact v) = some ⟨W, BitVec.ofInt W v, true, o, false⟩ ∧
      (1 ≤ W → (o = true ↔ ¬Range W true v)) ∧ (fits → o = false) :=
  ⟨!inRange W true v, rfl, fun hw => by rw [range_iff hw, Bool.not_eq_true', Bool.not_eq_true],
    fun hf => by rw [h hf, Bool.not_true]⟩

theorem Reg.zero_store_neg_one (W : Nat) :
    (Reg.zero W true).store (-1) = ⟨W, BitVec.allOnes W, true, false, false⟩ := by
  have hbits : BitVec.ofInt W (-1) = BitVec.allOnes W := by
    rw [BitVec.ofInt_neg, ← BitVec.neg_one_eq_allOnes]
    rfl
  rw [Reg.store, Reg.zero, hbits]

theorem startEngine_esr (c : Config) (mode : EngineMode) (a b d : Reg) :
    (startEngine c mode a b d).esr = if mode = .practical then 5 else 1 := by
  simp only [Engine.esr, startEngine]
  cases mode <;> decide

/-- MC starts as A (R89). -/
theorem val_widened {a : Reg} {W : Nat} (ha : a.signed = false) (hW : a.w ≤ W) :
    ((Reg.zero W false).store a.val).val = a.val := by
  refine Reg.val_store (inRange_unsigned.2 ⟨?_, a.val_bounds.2.trans_le (pow_le_pow_right₀ (by norm_num) hW)⟩)
  rw [Reg.val_unsigned ha]
  positivity

/-- Settles O45: no check raises, and each item of the engine is what R89 makes it. -/
theorem estartInitialisesEngine : Obligations.EstartInitialisesEngine := by
  intro s ra rb rd mode a b d total k wrt wrp hs ha hb hd h
  obtain ⟨hm, -, hn⟩ := h.radix
  obtain ⟨hau, hbu, hdu⟩ := h.unsigned
  have hcount : (b.digitList s.cfg.m).count = s.cfg.n := (b.digitList_count s.cfg.m).trans h.multiplier
  have hfirst : 1 ≤ (b.digitList s.cfg.m).count := hcount ▸ hn
  have hb1 : (b.digitList s.cfg.m).element 1 < 2 ^ b.w :=
    (b.element_one_le hfirst).trans_lt (Reg.natAbs_val_unsigned hbu ▸ b.bits.isLt)
  have hstart := (exec_estart_ok_iff hs).2 (h.startRun_eq ha hb hd)
  obtain rfl := h.iterations_eq
  obtain rfl : (s.cfg.alignment (s.cfg.iterations mode)).toNat = k := by rw [h.alignment_eq]; rfl
  obtain rfl := h.resWidth_eq
  obtain rfl := h.respWidth_eq
  refine ⟨_, _, hstart, startEngine_esr _ _ _ _ _, rfl, rfl, rfl, rfl, rfl, hcount, b.digitList_lt _,
    (b.foldl_digitList hm).trans (Reg.natAbs_val_unsigned hbu), (paddedRoot s.cfg d).digitList_count _,
    (paddedRoot s.cfg d).digitList_lt _, ?_, DigitList.getElem?_zero hfirst, ?_, rfl,
    ⟨_, rfl, rfl, val_widened hau (Nat.le_add_right _ _), rfl, rfl, rfl⟩, rfl, ?_, ?_⟩
  · exact ((paddedRoot s.cfg d).foldl_digitList hm).trans (by rw [paddedRoot_val s.cfg hdu, Int.natAbs_natCast])
  · refine Reg.exists_zero_storeExact fun hnone => inRange_firstProduct hau hb1 ?_
    rw [Config.resWidth, hnone, Option.getD_none]
    omega
  · rintro rfl
    exact ⟨rfl, rfl, rfl, rfl, rfl⟩
  · rintro rfl
    refine ⟨Reg.exists_zero_storeExact fun hnone => inRange_firstProduct hau hb1 ?_, rfl,
      congrArg some (Reg.zero_store_neg_one _), rfl, congrArg some (Reg.zero_store_neg_one _)⟩
    rw [Config.respWidth, hnone, Option.getD_none]
    omega

end Sys2Proof.Machine
end

section
/-! PROOFS. Scope: the end of a run and the commands around it (R90, R92 to R94): the report of the last iteration, ERUN as
ESTART and ESTEPs, an ESTEP with no run, and EGET. -/

namespace Sys2Proof.Machine

/-! ### The last iteration (R92) -/

theorem Engine.finish_last {c : Config} {e : Engine} {i : Nat} {digit : Int} {mc : Reg} {report : Report}
    (h : i = e.total) : (Engine.finish c e i digit mc report).report = report := by
  rw [Engine.finish, if_pos h]

/-- The last iteration of a basic run reports RES and ROOT (R92). -/
theorem Engine.iterate_report_basic {c : Config} {e e' : Engine} {res root sref : Reg} (h : e.iterate c = .ok e')
    (hlast : e.eiter + 1 = e.total) (hmode : e.mode = .basic) (hres : e'.res = some res) (hroot : e'.root = some root)
    (hsref : e'.sref = some sref) : e'.report = terminalReport c res root sref (false, false) := by
  simp only [Engine.iterate, hmode, bind_eq_ok, allocated_eq_ok, return_eq_ok, Except.ok.injEq] at h
  obtain ⟨_, -, _, -, _, -, _, -, _, hs, rfl⟩ := h
  simp only [Engine.basicIteration, Engine.finish_fields, hs, Option.some.injEq] at hres hroot hsref
  subst hres hroot hsref
  exact Engine.finish_last hlast

/-- The last iteration of a practical run reports RESP and Q, and RES and ROOT as its theoretical track (R92, R95). -/
theorem Engine.iterate_report_practical {c : Config} {e e' : Engine} {tres troot res root sref : Reg}
    (h : e.iterate c = .ok e') (hlast : e.eiter + 1 = e.total) (hmode : e.mode = .practical)
    (htres : e'.res = some tres) (htroot : e'.root = some troot) (hsref : e'.sref = some sref)
    (hres : e'.resp = some res) (hroot : e'.q = some root) :
    e'.report = terminalReport c res root sref (e.theoryOk c tres troot sref) := by
  simp only [Engine.iterate, hmode, bind_eq_ok, allocated_eq_ok, Engine.practicalIteration, return_eq_ok,
    Except.ok.injEq] at h
  obtain ⟨_, -, _, -, _, -, _, -, _, hs, _, -, _, -, rfl⟩ := h
  simp only [Engine.finish_fields, hs, Option.some.injEq] at htres htroot hsref hres hroot
  subst htres htroot hsref hres hroot
  exact Engine.finish_last hlast

/-- A one-bit field of a decided condition, by its weight. -/
theorem toNat_decide_mul (p : Prop) [Decidable p] (n : Nat) : (decide p).toNat * n = if p then n else 0 := by
  split <;> simp [*]

end Sys2Proof.Machine

namespace Sys2Proof

open Machine

/-- Settles O55: the report of either mode, read through the fields of ESR. -/
theorem terminalReport : Obligations.TerminalReport := by
  intro s e tres troot sref hs hfsr hactive hlast he htres htroot hsref
  rw [exec_estep_ok_iff hfsr] at he
  obtain ⟨-, -, hmode, -, hend, -⟩ := Engine.iterate_progress he
  obtain ⟨hactive', hdone'⟩ := hend hlast
  refine ⟨hactive', hdone', fun hbasic => ?_, fun hpractical res root hres hroot => ?_⟩
  · have hreport := Engine.iterate_report_basic he hlast hbasic htres htroot hsref
    rw [Engine.esr_toNat, hactive', hdone', hmode, hbasic, hreport]
    simp [Machine.terminalReport, trackOk, toNat_decide_mul]
  · have hreport := Engine.iterate_report_practical he hlast hpractical htres htroot hsref hres hroot
    rw [Engine.esr_toNat, hactive', hdone', hmode, hpractical, hreport]
    simp [Machine.terminalReport, trackOk, Engine.theoryOk, ← Bool.decide_and, toNat_decide_mul]

end Sys2Proof

namespace Sys2Proof.Machine

/-! ### ERUN (R93) -/

/-- A run that is over stays as it is. -/
theorem Engine.runToEnd_idle {c : Config} {e : Engine} (fuel : Nat) (h : e.active = false) :
    Engine.runToEnd c fuel e = (e, none) := by
  cases fuel with
  | zero => rfl
  | succ fuel => simp [Engine.runToEnd, h]

/-- With fuel left, a run goes on from the next iteration, as far as that completes. -/
theorem Engine.runToEnd_ok {c : Config} {e e' : Engine} (fuel : Nat) (h : e.iterate c = .ok e') :
    Engine.runToEnd c (fuel + 1) e = Engine.runToEnd c fuel e' := by
  obtain ⟨-, -, -, hactive, -⟩ := Engine.iterate_progress h
  simp [Engine.runToEnd, hactive, h]

/-- With fuel left, a run ends where its next iteration raises. -/
theorem Engine.runToEnd_error {c : Config} {e : Engine} {cause : Cause} (fuel : Nat) (hactive : e.active = true)
    (h : e.iterate c = .error cause) : Engine.runToEnd c (fuel + 1) e = (e, some cause) := by
  simp [Engine.runToEnd, hactive, h]

/-- After j iterations that complete, EITER has advanced by j, and the run goes on with j less of fuel. -/
theorem Engine.runToEnd_of_iterates {c : Config} {es : Nat → Engine} {j : Nat}
    (h : ∀ k, k < j → (es k).iterate c = .ok (es (k + 1))) (fuel : Nat) :
    Engine.runToEnd c (j + fuel) (es 0) = Engine.runToEnd c fuel (es j) := by
  induction j generalizing fuel with
  | zero => rw [Nat.zero_add]
  | succ j ih =>
    rw [Nat.add_right_comm, Nat.add_assoc, ih fun k hk => h k (by omega)]
    exact Engine.runToEnd_ok fuel (h j (by omega))

/-- Iterations that complete advance EITER by one each, and keep what the invariant says of a run. -/
theorem RunOk.iterates {c : Config} {es : Nat → Engine} {j : Nat} (h0 : RunOk c (es 0))
    (h : ∀ k, k < j → (es k).iterate c = .ok (es (k + 1))) :
    RunOk c (es j) ∧ (es j).eiter = (es 0).eiter + j ∧ (es j).total = (es 0).total := by
  induction j with
  | zero => exact ⟨h0, rfl, rfl⟩
  | succ j ih =>
    obtain ⟨hrun, heiter, htotal⟩ := ih fun k hk => h k (by omega)
    have hi := h j (by omega)
    obtain ⟨heiter', htotal', -⟩ := Engine.iterate_progress hi
    exact ⟨hrun.iterate hi, by omega, htotal'.trans htotal⟩

/-- ERUN completes with the engine of its whole run (R93). -/
theorem exec_erun_ok {s : State} {ra rb rd : Slot} {mode : EngineMode} {e e' : Engine} (hs : s.fsr = none)
    (hstart : s.startRun ra rb rd mode = .ok e) (hrun : Engine.runToEnd s.cfg e.total e = (e', none)) :
    exec (.erun ra rb rd mode) s = .next ({ s with engine := e' }.respond ⟨.ok, 0, 0⟩) := by
  change execErun ra rb rd mode s = _
  simp only [execErun, State.unlessFaulted_running hs, hstart, hrun]
  rfl

/-- ERUN takes the fault of the iteration that raises, the ones before it committed (R93, R112). -/
theorem exec_erun_fault {s : State} {ra rb rd : Slot} {mode : EngineMode} {e e' : Engine} {c : Cause}
    (hs : s.fsr = none) (hstart : s.startRun ra rb rd mode = .ok e)
    (hrun : Engine.runToEnd s.cfg e.total e = (e', some c)) :
    exec (.erun ra rb rd mode) s = .next ({ s with engine := e' }.takeFault 0x22 c) := by
  change execErun ra rb rd mode s = _
  simp only [execErun, State.unlessFaulted_running hs, hstart, hrun]
  rfl

/-- ERUN takes the fault that ESTART would take (R93). -/
theorem exec_erun_start_fault {s : State} {ra rb rd : Slot} {mode : EngineMode} {c : Cause}
    (hs : s.fsr = none) (hstart : s.startRun ra rb rd mode = .error c) :
    exec (.erun ra rb rd mode) s = .next (s.takeFault 0x22 c) := by
  change execErun ra rb rd mode s = _
  simp only [execErun, State.unlessFaulted_running hs, hstart]
  rfl

/-- Settles O54: the j iterations that complete take j of the fuel I, which an active run has not used up. -/
theorem erunIsEstartThenEsteps : Obligations.ErunIsEstartThenEsteps := by
  intro s ra rb rd mode hs
  refine ⟨by cases mode <;> rfl, fun h x hop himm8 => ?_, fun c hc => ?_, fun es j hinv hstart hsteps => ?_⟩
  · obtain ⟨-, hbadField⟩ := illegalWordsFault s h x hs
    exact hbadField .erun hop.symm (.inr (.inr (.inr (.inr (.inl ⟨.inr rfl, himm8⟩)))))
  · exact exec_erun_start_fault hs ((exec_estart_fault_iff hs).1 hc)
  · rw [exec_estart_ok_iff hs] at hstart
    have hiter : ∀ k, k < j → (es k).iterate s.cfg = .ok (es (k + 1)) := fun k hk =>
      (exec_estep_ok_iff (s := { s with engine := es k }) hs).1 (hsteps k hk)
    have hrun0 := hinv.startRun hstart
    have hzero : (es 0).eiter = 0 := by
      simp only [State.startRun, bind_eq_ok, return_eq_ok, Except.ok.injEq] at hstart
      obtain ⟨_, -, _, -, _, -, _, -, hes⟩ := hstart
      exact hes ▸ rfl
    obtain ⟨hrun, heiter, htotal⟩ := hrun0.iterates hiter
    refine ⟨fun hidle => exec_erun_ok hs hstart ?_, fun c hactive hc => exec_erun_fault hs hstart ?_⟩
    · have hle : j ≤ (es 0).total := by rcases hrun.phase with ⟨-, -, h⟩ | ⟨-, -, h⟩ <;> omega
      obtain ⟨fuel, hf⟩ := Nat.exists_eq_add_of_le hle
      rw [hf, Engine.runToEnd_of_iterates hiter, Engine.runToEnd_idle _ hidle]
    · have hlt : j < (es 0).total := by
        rcases hrun.phase with ⟨-, -, h⟩ | ⟨hidle, -⟩
        · omega
        · rw [hactive] at hidle; cases hidle
      have hi := (exec_estep_fault_iff (s := { s with engine := es j }) hs).1 hc
      obtain ⟨fuel, hf⟩ := Nat.exists_eq_add_of_lt hlt
      rw [hf, Nat.add_assoc, Engine.runToEnd_of_iterates hiter, Engine.runToEnd_error fuel hactive hi]

/-- With fuel for the iterations left, a basic run ends. -/
theorem RunOk.runToEnd_basic {c : Config} {fuel : Nat} {e : Engine} (h : RunOk c e) (hmode : e.mode = .basic)
    (hfuel : e.total ≤ e.eiter + fuel) :
    ∃ e', Engine.runToEnd c fuel e = (e', none) ∧ e'.active = false ∧ e'.total = e.total := by
  induction fuel generalizing e with
  | zero =>
    refine ⟨e, rfl, ?_, rfl⟩
    rcases h.phase with ⟨-, -, hlt⟩ | ⟨hidle, -⟩
    · omega
    · exact hidle
  | succ fuel ih =>
    cases hactive : e.active with
    | false => exact ⟨e, Engine.runToEnd_idle _ hactive, hactive, rfl⟩
    | true =>
      obtain ⟨_, hi⟩ := h.iterate_basic hactive hmode
      obtain ⟨heiter, htotal, hmode', -⟩ := Engine.iterate_progress hi
      obtain ⟨e', hrun, hidle, htotal'⟩ := ih (h.iterate hi) (hmode'.trans hmode) (by omega)
      exact ⟨e', (Engine.runToEnd_ok fuel hi).trans hrun, hidle, htotal'.trans htotal⟩

/-- Settles O53: the fuel I is enough for the run, and the invariant of a run that is over gives its count. -/
theorem erunBasicCompletes : Obligations.ErunBasicCompletes := by
  intro s ra rb rd a b d total k wrt wrp hinv hs ha hb hd h
  have hstart := h.startRun_eq ha hb hd
  have hrun := hinv.startRun hstart
  obtain ⟨e, he, hidle, htotal⟩ :=
    hrun.runToEnd_basic (fuel := (startEngine s.cfg .basic a b d).total) rfl le_add_self
  refine ⟨e, exec_erun_ok hs hstart he, hidle, ?_⟩
  have hend := hrun.runToEnd (startEngine s.cfg .basic a b d).total
  rw [he] at hend
  rcases hend.phase with ⟨hactive, -⟩ | ⟨-, hdone, heiter⟩
  · simp [hidle] at hactive
  · exact ⟨hdone, heiter.trans htotal, heiter.symm⟩

/-! ### ESTEP with no run, and EGET (R90, R94) -/

/-- Settles O46: the first check of an iteration is that a run is active. -/
theorem estepWithoutRunFaults : Obligations.EstepWithoutRunFaults :=
  ⟨rfl, fun s hs hidle => (exec_estep_fault_iff hs).2 (by simp [Engine.iterate, hidle])⟩

/-- Settles O57: the checks of EGET in order, and the copy. -/
theorem egetCopiesEngineRegister : Obligations.EgetCopiesEngineRegister := by
  intro s rd sel hs
  refine ⟨by cases sel <;> rfl, rfl, fun h x hop himm8 => ?_, fun r hr => State.command_of_error hs (by simp [hr]),
    fun hfree hnull => State.command_of_error hs (by simp [hfree, hnull]),
    fun r hfree hr => State.command_of_ok hs (by simp [hfree, hr])⟩
  obtain ⟨-, hbadField⟩ := illegalWordsFault s h x hs
  exact hbadField .eget hop.symm (.inr (.inr (.inr (.inr (.inr (.inl ⟨rfl, himm8⟩))))))

end Sys2Proof.Machine
end

section
/-! PROOFS. Scope: the convergence of a basic run (R98): on A = s1², B = s2² and S = s1·s2 the residual ends at 0 and
the root at S·2^Z, with no exact result out of range on the way. -/

namespace Sys2Proof.Machine

/-! ### The digits of a number consumed so far (R84, R90, R95) -/

/-- The number that the first `i` of the `count` digits of `v` spell, radix 2^m; digits past the last are zeros. -/
def leadingDigits (m v count i : Nat) : Nat := v * 2 ^ (m * i) / 2 ^ (m * count)

section LeadingDigits

variable {m v count i : Nat}

theorem leadingDigits_all (m v count : Nat) : leadingDigits m v count count = v :=
  Nat.mul_div_cancel v (by positivity)

theorem leadingDigits_none (h : v < 2 ^ (m * count)) : leadingDigits m v count 0 = 0 :=
  Nat.div_eq_of_lt (by simpa using h)

/-- One more digit is appended below the digits before it. -/
theorem leadingDigits_succ (m v count i : Nat) :
    leadingDigits m v count i * 2 ^ m + leadingDigits m v count (i + 1) % 2 ^ m = leadingDigits m v count (i + 1) := by
  have hdiv : leadingDigits m v count (i + 1) / 2 ^ m = leadingDigits m v count i := by
    rw [leadingDigits, leadingDigits, Nat.div_div_eq_div_mul, Nat.mul_succ, pow_add, ← mul_assoc,
      Nat.mul_div_mul_right _ _ (by positivity)]
  rw [← hdiv]
  exact Nat.div_add_mod' _ _

theorem leadingDigits_le (hi : i ≤ count) : leadingDigits m v count i ≤ v := by
  refine Nat.div_le_of_le_mul ?_
  rw [mul_comm]
  gcongr
  norm_num

/-- Up to the last digit, the leading digits are a quotient by the weight of the others. -/
theorem leadingDigits_eq_div (hi : i ≤ count) : leadingDigits m v count i = v / 2 ^ (m * (count - i)) := by
  obtain ⟨k, rfl⟩ := Nat.exists_eq_add_of_le hi
  rw [leadingDigits, Nat.add_sub_cancel_left, mul_add, pow_add, mul_comm (2 ^ (m * i)),
    Nat.mul_div_mul_right _ _ (by positivity)]

/-- Past the last digit only zeros follow. -/
theorem leadingDigits_mod_of_lt (hi : count < i) : leadingDigits m v count i % 2 ^ m = 0 := by
  obtain ⟨k, rfl⟩ := Nat.exists_eq_add_of_lt hi
  rw [leadingDigits, show v * 2 ^ (m * (count + k + 1)) = v * 2 ^ (m * k) * 2 ^ m * 2 ^ (m * count) by ring,
    Nat.mul_div_cancel _ (by positivity), Nat.mul_mod_left]

/-- The digits of a list are those of the magnitude (R84). -/
theorem Reg.element_digitList_eq_leadingDigits (r : Reg) (hi : 1 ≤ i) (hle : i ≤ (r.digitList m).count) :
    (r.digitList m).element i = leadingDigits m r.val.natAbs (r.digitList m).count i % 2 ^ m := by
  rw [r.element_digitList hi hle, leadingDigits_eq_div hle]

end LeadingDigits

/-! ### Exact results that fit (R11, R12) -/

/-- An engine register is allocated, holds `v` and has latched no flag. -/
def Holds (o : Option Reg) (v : Int) : Prop := ∃ r, o = some r ∧ r.val = v ∧ r.ovf = false ∧ r.unf = false

/-- What a register is found to hold, of a register that is known. -/
theorem Holds.of_eq {r : Reg} {v : Int} (h : Holds (some r) v) : r.val = v ∧ r.ovf = false ∧ r.unf = false := by
  obtain ⟨_, hr, h⟩ := h
  cases hr
  exact h

/-- An exact result in range leaves a register with clear flags holding it. -/
theorem Stored.holds {x x' : Reg} {v : Int} (h : Stored x v x') (hw : 1 ≤ x.w) (ho : x.ovf = false)
    (hu : x.unf = false) (hv : Range x.w x.signed v) : Holds (some x') v := by
  have ho' : x'.ovf = false := by
    rw [← Bool.not_eq_true, h.2]
    simp [ho, hv]
  exact ⟨x', rfl, h.val_eq hw ho', ho', h.unf_eq.trans hu⟩

/-- A residual whose three exact results are in range holds the last of them. -/
theorem ResidualStep.holds {c : Config} {k : Nat} {x x' : Reg} {pp lq v1 v2 v3 : Int}
    (h : ResidualStep c k x pp lq x') (hw : 1 ≤ x.w) (ho : x.ovf = false) (hu : x.unf = false)
    (e1 : x.val * 2 ^ (2 * c.m) = v1) (e2 : v1 + pp * 2 ^ c.m = v2) (e3 : v2 - lq * 2 ^ k = v3)
    (r1 : Range x.w x.signed v1) (r2 : Range x.w x.signed v2) (r3 : Range x.w x.signed v3) : Holds (some x') v3 := by
  obtain ⟨x1, x2, h1, h2, h3⟩ := h
  have w1 := h1.w_eq
  have w2 := h2.w_eq.trans w1
  have s1 := h1.signed_eq
  have s2 := h2.signed_eq.trans s1
  obtain ⟨val1, ovf1, unf1⟩ := (h1.holds hw ho hu (e1 ▸ r1)).of_eq
  rw [val1, e1, e2] at h2
  obtain ⟨val2, ovf2, unf2⟩ := (h2.holds (w1 ▸ hw) ovf1 unf1 (w1 ▸ s1 ▸ r2)).of_eq
  rw [val2, e3] at h3
  exact h3.holds (w2 ▸ hw) ovf2 unf2 (w2 ▸ s2 ▸ r3)

/-- A difference of two numbers below 2^M is in the range of a signed register of M + 1 bits. -/
theorem range_sub {M : Nat} {p q : Nat} (hp : p < 2 ^ M) (hq : q < 2 ^ M) : Range (1 + M) true (p - q) := by
  rw [Range, if_pos rfl, Nat.add_sub_cancel_left]
  zify at hp hq
  omega

/-! ### The residual of a run on squares (R97, R98) -/

/-- What R98's operands and R89's constants are to each other: A·B = S², A and S below 2^(n·m), the root padded
with the guard bits in I digits, and K aligning its square with the product of the operands. -/
structure Seeds (c : Config) (a b s total k : Nat) : Prop where
  product : a * b = s * s
  root_lt : s < 2 ^ (c.n * c.m)
  a_lt : a < 2 ^ (c.n * c.m)
  digits : c.n ≤ total
  padded : c.n * c.m + c.z ≤ c.m * total
  aligned : k + 2 * c.z = c.m * (2 * total + 1 - c.n)

/-- The residual A·x·r^i − y²·2^K, for digits x of B and y of the root consumed (R97). -/
def residualAt (c : Config) (a k i x y : Nat) : Int := (a * x * 2 ^ (c.m * i) : Nat) - (y * y * 2 ^ k : Nat)

/-- The residual after `i` iterations, from the first i + 1 digits of B and the first i of S·2^Z (R97). -/
def residualAfter (c : Config) (a b s total k i : Nat) : Int :=
  residualAt c a k i (leadingDigits c.m b c.n (i + 1)) (leadingDigits c.m (s * 2 ^ c.z) total i)

namespace Seeds

variable {c : Config} {a b s total k i x y : Nat}

theorem paddedRoot_lt (h : Seeds c a b s total k) : s * 2 ^ c.z < 2 ^ (c.m * total) :=
  calc s * 2 ^ c.z < 2 ^ (c.n * c.m) * 2 ^ c.z := Nat.mul_lt_mul_of_pos_right h.root_lt (by positivity)
    _ = 2 ^ (c.n * c.m + c.z) := (pow_add ..).symm
    _ ≤ 2 ^ (c.m * total) := Nat.pow_le_pow_right (by norm_num) h.padded

theorem square_lt (h : Seeds c a b s total k) :
    s * s * 2 ^ (c.m * (2 * total + 1 - c.n)) < 2 ^ (c.m * (2 * total + 1 - c.n) + 2 * (c.n * c.m)) :=
  calc s * s * 2 ^ (c.m * (2 * total + 1 - c.n))
      < 2 ^ (c.n * c.m) * 2 ^ (c.n * c.m) * 2 ^ (c.m * (2 * total + 1 - c.n)) :=
        Nat.mul_lt_mul_of_pos_right (Nat.mul_lt_mul'' h.root_lt h.root_lt) (by positivity)
    _ = _ := by ring

/-- The part of the product is at most A·B·r^(2·I+1−n), which is S²·r^(2·I+1−n). -/
theorem product_le (h : Seeds c a b s total k) (hi : i ≤ total) (hx : x ≤ leadingDigits c.m b c.n (i + 1)) :
    a * x * 2 ^ (c.m * i) ≤ s * s * 2 ^ (c.m * (2 * total + 1 - c.n)) := by
  have hn := h.digits
  have hweight : x * 2 ^ (c.m * c.n) ≤ b * 2 ^ (c.m * (i + 1)) :=
    (Nat.mul_le_mul_right _ hx).trans (Nat.div_mul_le_self _ _)
  have hexp : c.m * (i + 1) + c.m * i ≤ c.m * (2 * total + 1 - c.n) + c.m * c.n := by
    rw [← mul_add, ← mul_add]
    exact Nat.mul_le_mul_left _ (by omega)
  refine Nat.le_of_mul_le_mul_right ?_ (Nat.two_pow_pos (c.m * c.n))
  calc a * x * 2 ^ (c.m * i) * 2 ^ (c.m * c.n) = a * (x * 2 ^ (c.m * c.n)) * 2 ^ (c.m * i) := by ring
    _ ≤ a * (b * 2 ^ (c.m * (i + 1))) * 2 ^ (c.m * i) := by gcongr
    _ = s * s * 2 ^ (c.m * (i + 1) + c.m * i) := by rw [← h.product]; ring
    _ ≤ s * s * 2 ^ (c.m * (2 * total + 1 - c.n) + c.m * c.n) := by gcongr; norm_num
    _ = s * s * 2 ^ (c.m * (2 * total + 1 - c.n)) * 2 ^ (c.m * c.n) := by ring

/-- The square of the part of the root is at most (S·2^Z)²·2^K, which is the same. -/
theorem rootSquare_le (h : Seeds c a b s total k) (hi : i ≤ total)
    (hy : y ≤ leadingDigits c.m (s * 2 ^ c.z) total i) :
    y * y * 2 ^ k ≤ s * s * 2 ^ (c.m * (2 * total + 1 - c.n)) := by
  have hle : y ≤ s * 2 ^ c.z := hy.trans (leadingDigits_le hi)
  calc y * y * 2 ^ k ≤ s * 2 ^ c.z * (s * 2 ^ c.z) * 2 ^ k := by gcongr
    _ = s * s * 2 ^ (k + 2 * c.z) := by ring
    _ = _ := by rw [h.aligned]

/-- Every residual and every partial result on the way to one fits the default width (R30, R98). -/
theorem range_residualAt (h : Seeds c a b s total k) (hi : i ≤ total) (hx : x ≤ leadingDigits c.m b c.n (i + 1))
    (hy : y ≤ leadingDigits c.m (s * 2 ^ c.z) total i) :
    Range (1 + (c.m * (2 * total + 1 - c.n) + 2 * (c.n * c.m))) true (residualAt c a k i x y) :=
  range_sub ((h.product_le hi hx).trans_lt h.square_lt) ((h.rootSquare_le hi hy).trans_lt h.square_lt)

/-- The residual of a run on squares ends at 0 (R98). -/
theorem residualAfter_total (h : Seeds c a b s total k) : residualAfter c a b s total k total = 0 := by
  obtain ⟨j, hj⟩ := Nat.exists_eq_add_of_le h.digits
  have hall : leadingDigits c.m b c.n (total + 1) = b * 2 ^ (c.m * (j + 1)) := by
    rw [leadingDigits, hj, show b * 2 ^ (c.m * (c.n + j + 1)) = b * 2 ^ (c.m * (j + 1)) * 2 ^ (c.m * c.n) by ring,
      Nat.mul_div_cancel _ (by positivity)]
  have hsub : 2 * total + 1 - c.n = (j + 1) + total := by omega
  rw [residualAfter, residualAt, hall, leadingDigits_all, sub_eq_zero, Nat.cast_inj]
  calc a * (b * 2 ^ (c.m * (j + 1))) * 2 ^ (c.m * total) = a * b * 2 ^ (c.m * ((j + 1) + total)) := by ring
    _ = s * s * 2 ^ (k + 2 * c.z) := by rw [h.product, h.aligned, hsub]
    _ = s * 2 ^ c.z * (s * 2 ^ c.z) * 2 ^ k := by ring

end Seeds

/-! ### A basic run on squares (R96 to R98) -/

/-- The state of a basic run on A·B = S² after EITER iterations (R97): the digits to come are those of B and of S·2^Z,
and RES, ROOT, MC and SREF hold their exact values. A run that is over reports RES and ROOT (R92). -/
structure Converging (c : Config) (a b s : Nat) (e : Engine) : Prop where
  seeds : Seeds c a b s e.total e.k
  run : RunOk c e
  basic : e.mode = .basic
  operandWidth : e.wA = c.n * c.m
  multiplierDigits : ∀ i, e.multiplierDigit c i = leadingDigits c.m b c.n (i + 1) % 2 ^ c.m
  rootDigits : ∀ i, 1 ≤ i → i ≤ e.total → e.rootDigit i = leadingDigits c.m (s * 2 ^ c.z) e.total i % 2 ^ c.m
  resWidth : ∀ r, e.res = some r → r.w = 1 + (c.m * (2 * e.total + 1 - c.n) + 2 * (c.n * c.m))
  res : Holds e.res (residualAfter c a b s e.total e.k e.eiter)
  root : Holds e.root (leadingDigits c.m (s * 2 ^ c.z) e.total e.eiter)
  mc : e.active = true → Holds e.mc (a * 2 ^ (c.m * e.eiter) : Nat)
  sref : Holds e.sref s
  reported : e.done = true → ∀ res root sref, e.res = some res → e.root = some root → e.sref = some sref →
    e.report = terminalReport c res root sref (false, false)

namespace Converging

variable {c : Config} {a b s : Nat} {e e' : Engine}

/-- The next root is the exact ROOT·r + t, which ROOT's width holds (R96). -/
theorem nextRoot_holds (h : Converging c a b s e) (hlt : e.eiter < e.total) {root root' : Reg}
    (hroot : e.root = some root)
    (hstored : Stored root (root.val * 2 ^ c.m + e.rootDigit (e.eiter + 1)) root') :
    Holds (some root') (leadingDigits c.m (s * 2 ^ c.z) e.total (e.eiter + 1)) := by
  obtain ⟨hval, hovf, hunf⟩ := (hroot ▸ h.root).of_eq
  have hnext : root.val * 2 ^ c.m + e.rootDigit (e.eiter + 1) =
      leadingDigits c.m (s * 2 ^ c.z) e.total (e.eiter + 1) := by
    rw [hval, h.rootDigits _ (by omega) hlt]
    exact_mod_cast leadingDigits_succ ..
  obtain ⟨hroot1, -⟩ := h.run.root.regOk hroot
  rw [hnext] at hstored
  refine hstored.holds hroot1 hovf hunf ((range_iff hroot1).2 ?_)
  rw [h.run.root.signed_eq hroot, h.run.root.width_eq hroot, inRange_unsigned]
  exact ⟨by positivity, by exact_mod_cast (leadingDigits_le hlt).trans_lt h.seeds.paddedRoot_lt⟩

/-- The next residual is the recurrence of R97, whose three results RES's default width holds (R96, R98). -/
theorem nextResidual_holds (h : Converging c a b s e) (hlt : e.eiter < e.total) (hactive : e.active = true)
    {res root mc res' : Reg} (hres : e.res = some res) (hroot : e.root = some root) (hmc : e.mc = some mc)
    (hstep : ResidualStep c e.k res (e.multiplierDigit c (e.eiter + 1) * mc.val)
      (e.rootDigit (e.eiter + 1) * (2 * (root.val * 2 ^ c.m) + e.rootDigit (e.eiter + 1))) res') :
    Holds (some res') (residualAfter c a b s e.total e.k (e.eiter + 1)) := by
  obtain ⟨resVal, resOvf, resUnf⟩ := (hres ▸ h.res).of_eq
  obtain ⟨rootVal, -⟩ := (hroot ▸ h.root).of_eq
  obtain ⟨mcVal, -⟩ := (hmc ▸ h.mc hactive).of_eq
  obtain ⟨hres1, -⟩ := h.run.res.regOk hres
  have hx := leadingDigits_succ c.m b c.n (e.eiter + 1)
  have hy := leadingDigits_succ c.m (s * 2 ^ c.z) e.total e.eiter
  rw [← h.multiplierDigits] at hx
  rw [← h.rootDigits _ (by omega) hlt] at hy
  have range := fun x y => h.seeds.range_residualAt (x := x) (y := y) (show e.eiter + 1 ≤ e.total from hlt)
  rw [← h.resWidth res hres, ← h.run.res.signed_eq hres] at range
  rw [residualAfter] at resVal ⊢
  generalize leadingDigits c.m b c.n (e.eiter + 1) = x at *
  generalize leadingDigits c.m (s * 2 ^ c.z) e.total e.eiter = y at *
  refine hstep.holds hres1 resOvf resUnf (v1 := residualAt c a e.k (e.eiter + 1) (x * 2 ^ c.m) (y * 2 ^ c.m))
    (v2 := residualAt c a e.k (e.eiter + 1) (leadingDigits c.m b c.n (e.eiter + 1 + 1)) (y * 2 ^ c.m))
    ?_ ?_ ?_ (range _ _ (by omega) (by omega)) (range _ _ le_rfl (by omega)) (range _ _ le_rfl le_rfl)
  · rw [resVal, residualAt, residualAt]
    push_cast
    ring
  · rw [mcVal, ← hx, residualAt, residualAt]
    push_cast
    ring
  · rw [rootVal, ← hy, residualAt, residualAt]
    push_cast
    ring

/-- The next MC is A·r^(EITER+1), which MC's width holds while an iteration is left (R90, R91). -/
theorem nextMultiplicand_holds (h : Converging c a b s e) (hlt : e.eiter + 1 < e.total) (hactive : e.active = true)
    {mc : Reg} (hmc : e.mc = some mc) : Holds (some (mc.lsl c.m)) (a * 2 ^ (c.m * (e.eiter + 1)) : Nat) := by
  obtain ⟨hval, hovf, hunf⟩ := (hmc ▸ h.mc hactive).of_eq
  obtain ⟨hmc1, -⟩ := h.run.mc.regOk hmc
  have hnext : mc.val * 2 ^ c.m = (a * 2 ^ (c.m * (e.eiter + 1)) : Nat) := by
    rw [hval]
    push_cast
    ring
  have hstored := mc.stored_lsl c.m hmc1
  rw [hnext] at hstored
  refine hstored.holds hmc1 hovf hunf ((range_iff hmc1).2 ?_)
  rw [h.run.mc.signed_eq hmc, h.run.mc.width_eq hmc, h.operandWidth, inRange_unsigned]
  refine ⟨by positivity, ?_⟩
  norm_cast
  calc a * 2 ^ (c.m * (e.eiter + 1)) < 2 ^ (c.n * c.m) * 2 ^ (c.m * (e.eiter + 1)) :=
        Nat.mul_lt_mul_of_pos_right h.seeds.a_lt (by positivity)
    _ = 2 ^ (c.n * c.m + c.m * (e.eiter + 1)) := (pow_add ..).symm
    _ ≤ 2 ^ (c.n * c.m + c.m * (e.total - 1)) := by
        gcongr
        · norm_num
        · omega

/-- Every iteration keeps the run on its course (R97). -/
theorem iterate (h : Converging c a b s e) (hi : e.iterate c = .ok e') : Converging c a b s e' := by
  obtain ⟨heiter, htotal, hmode, hactive, -⟩ := Engine.iterate_progress hi
  obtain ⟨res, root, mc, sref, hres, hroot, hmc, -, ⟨hres', hroot'⟩, hmc', hk, hbd, hsd, hwA, hsref', -⟩ :=
    Engine.iterate_track hi
  obtain ⟨hdone', hactive'⟩ := h.run.iterate_phase hi
  obtain ⟨hstoredRoot, hstep⟩ := h.run.basicUpdate_stored hactive hres hroot hmc
  have hlt : e.eiter < e.total := by
    rcases h.run.phase with ⟨-, -, hlt⟩ | ⟨hidle, -⟩
    · exact hlt
    · simp [hactive] at hidle
  have hnextRoot := h.nextRoot_holds hlt hroot hstoredRoot
  obtain ⟨hroot1, -⟩ := h.run.root.regOk hroot
  obtain ⟨-, hnextOvf, -⟩ := hnextRoot.of_eq
  have hterm := hstoredRoot.mul_emod_of_appendRoot (h.run.root.signed_eq hroot) hroot1 hnextOvf
  rw [h.run.root.width_eq hroot] at hterm
  rw [hterm] at hstep
  exact
    { seeds := htotal ▸ hk ▸ h.seeds
      run := h.run.iterate hi
      basic := hmode.trans h.basic
      operandWidth := hwA.trans h.operandWidth
      multiplierDigits := fun i => by
        rw [← h.multiplierDigits, Engine.multiplierDigit, Engine.multiplierDigit, hbd]
      rootDigits := fun i h1 hle => by
        rw [htotal] at hle ⊢
        rw [← h.rootDigits i h1 hle, Engine.rootDigit, Engine.rootDigit, hsd, htotal]
      resWidth := fun r hr => by
        rw [hres', Option.some.injEq] at hr
        rw [htotal, ← h.resWidth res hres, ← hr]
        exact hstep.w_eq
      res := by
        rw [hres', htotal, hk, heiter]
        exact h.nextResidual_holds hlt hactive hres hroot hmc hstep
      root := by
        rw [hroot', htotal, heiter]
        exact hnextRoot
      mc := fun hgoes => by
        have hmore := hactive'.1 hgoes
        rw [hmc', heiter, if_neg hmore.ne]
        exact h.nextMultiplicand_holds hmore hactive hmc
      sref := hsref' ▸ h.sref
      reported := fun hend _ _ _ => Engine.iterate_report_basic hi (hdone'.1 hend) h.basic }

/-- However far the run gets, it stays on its course (R93). -/
theorem runToEnd (fuel : Nat) (h : Converging c a b s e) : Converging c a b s (Engine.runToEnd c fuel e).1 := by
  induction fuel generalizing e with
  | zero => exact h
  | succ fuel ih =>
    rw [Engine.runToEnd]
    split
    · split
      · next e' hi => exact ih (h.iterate hi)
      · exact h
    · exact h

/-- A run that is over holds RES = 0 and ROOT = S·2^Z and reports both criteria and no overflow (R92, R98). -/
theorem of_idle (h : Converging c a b s e) (hidle : e.active = false) :
    Holds e.res 0 ∧ Holds e.root (s * 2 ^ c.z : Nat) ∧ e.esr = 0x1A := by
  obtain ⟨hdone, heiter⟩ : e.done = true ∧ e.eiter = e.total := by
    rcases h.run.phase with ⟨hactive, -⟩ | ⟨-, hover⟩
    · simp [hidle] at hactive
    · exact hover
  have hres := h.res
  have hroot := h.root
  rw [heiter, h.seeds.residualAfter_total] at hres
  rw [heiter, leadingDigits_all] at hroot
  refine ⟨hres, hroot, ?_⟩
  obtain ⟨res, res_eq, resVal, resOvf, resUnf⟩ := hres
  obtain ⟨root, root_eq, rootVal, -⟩ := hroot
  obtain ⟨sref, sref_eq, srefVal, -⟩ := h.sref
  have hreport := h.reported hdone res root sref res_eq root_eq sref_eq
  apply BitVec.eq_of_toNat_eq
  rw [Engine.esr_toNat, hidle, hdone, h.basic, hreport]
  simp [terminalReport, trackOk, resVal, resOvf, resUnf, rootVal, srefVal]

/-- ERUN takes a run that starts on its course to its end (R93, R98). -/
theorem exec_erun {st : State} {ra rb rd : Slot} (h : Converging st.cfg a b s e) (hs : st.fsr = none)
    (hstart : st.startRun ra rb rd .basic = .ok e) :
    ∃ e', exec (.erun ra rb rd .basic) st = .next ({ st with engine := e' }.respond ⟨.ok, 0, 0⟩) ∧
      Holds e'.res 0 ∧ Holds e'.root (s * 2 ^ st.cfg.z : Nat) ∧ e'.esr = 0x1A := by
  obtain ⟨e', he, hidle, -⟩ := h.run.runToEnd_basic (fuel := e.total) h.basic le_add_self
  have hend := h.runToEnd e.total
  rw [he] at hend
  exact ⟨e', exec_erun_ok hs hstart he, hend.of_idle hidle⟩

end Converging

/-! ### Starting a basic run on squares (R89, R98) -/

/-- The engine that ESTART leaves in basic mode is within the bounds of R30 and R33, whatever the parameters that no
check of R89 looks at. -/
theorem StartOk.runOk_basic {c : Config} {a b d : Reg} {total k wrt wrp : Nat}
    (h : StartOk c .basic a b d total k wrt wrp) (ha : 1 ≤ a.w) (hd : 1 ≤ d.w) (hwrt : 1 ≤ wrt) :
    RunOk c (startEngine c .basic a b d) := by
  obtain ⟨hm1, hm32, hn⟩ := h.radix
  obtain ⟨hres, hlq, -, hmc, hsref⟩ := h.width
  obtain rfl := h.iterations_eq
  obtain rfl := h.resWidth_eq
  have htotal : 1 ≤ c.iterations .basic := Nat.le_add_right_of_le hn
  exact
    { radix := ⟨hm1, hm32⟩
      digitSet := nofun
      total_eq := rfl
      k_eq := Int.toNat_of_nonneg (by rw [h.alignment_eq]; positivity)
      phase := .inl ⟨rfl, rfl, htotal⟩
      multiplier := ⟨(b.digitList_count c.m).trans h.multiplier, b.digitList_lt c.m⟩
      rootDigits := (paddedRoot c d).digitList_lt c.m
      res := .of_width hwrt hres rfl nofun
      root := .of_width (Nat.mul_pos hm1 htotal) (by change c.m * c.iterations .basic ≤ _; omega) rfl
        fun _ => Option.some.inj
      mc := .of_width (Nat.le_add_right_of_le ha) hmc rfl fun _ => Option.some.inj
      sref := .of_width hd (by change d.w ≤ _; omega) rfl nofun
      practical := ⟨rfl, rfl, rfl, rfl, rfl⟩
      unreported := fun _ => rfl }

/-- The multiplier digits of a started run are those of B, and zeros after them (R89, R90). -/
theorem startEngine_multiplierDigit {c : Config} {mode : EngineMode} {a b d : Reg} (hb : b.signed = false)
    (hcount : digitCount b.w c.m = c.n) (i : Nat) :
    (startEngine c mode a b d).multiplierDigit c i = leadingDigits c.m b.bits.toNat c.n (i + 1) % 2 ^ c.m := by
  have hlist := (b.digitList_count c.m).trans hcount
  rw [Engine.multiplierDigit]
  split
  · next hle =>
    refine (b.element_digitList_eq_leadingDigits (Nat.le_add_left 1 i) (hlist ▸ hle)).trans ?_
    rw [hlist, Reg.natAbs_val_unsigned hb]
  · next hlt => rw [leadingDigits_mod_of_lt (by omega)]

/-- The root digits of a started run are those of S·2^Z when these are I digits (R89, R95). -/
theorem startEngine_rootDigit {c : Config} {mode : EngineMode} {a b d : Reg} (hd : d.signed = false)
    (hcount : digitCount (d.w + c.z) c.m = c.iterations mode) {i : Nat} (h1 : 1 ≤ i) (hle : i ≤ c.iterations mode) :
    (startEngine c mode a b d).rootDigit i =
      leadingDigits c.m (d.bits.toNat * 2 ^ c.z) (c.iterations mode) i % 2 ^ c.m := by
  have hlist : ((paddedRoot c d).digitList c.m).count = c.iterations mode :=
    ((paddedRoot c d).digitList_count c.m).trans hcount
  have hj : (i : Int) - (((startEngine c mode a b d).total : Int) - (startEngine c mode a b d).sd.count) = i := by
    change (i : Int) - ((c.iterations mode : Int) - ((paddedRoot c d).digitList c.m).count) = i
    omega
  rw [Engine.rootDigit, hj, if_pos ⟨by omega, by change (i : Int) ≤ ((paddedRoot c d).digitList c.m).count; omega⟩]
  refine ((paddedRoot c d).element_digitList_eq_leadingDigits h1 (hlist ▸ hle)).trans ?_
  rw [hlist, paddedRoot_val c hd, Int.natAbs_natCast]

/-- A run started on A·B = S² is on its course (R89, R97). -/
theorem StartOk.converging {c : Config} {a b d : Reg} {total k wrt wrp : Nat}
    (h : StartOk c .basic a b d total k wrt wrp)
    (hseeds : Seeds c a.bits.toNat b.bits.toNat d.bits.toNat total k) (ha : a.w = c.n * c.m) (hb : b.w = c.n * c.m)
    (hd : d.w = c.n * c.m) (hwrt : wrt = 1 + (c.m * (2 * total + 1 - c.n) + 2 * (c.n * c.m))) :
    Converging c a.bits.toNat b.bits.toNat d.bits.toNat (startEngine c .basic a b d) := by
  obtain ⟨hm, -, hn⟩ := h.radix
  obtain ⟨hau, hbu, hdu⟩ := h.unsigned
  have hwidth : 1 ≤ c.n * c.m := Nat.mul_pos hn hm
  have hrun := h.runOk_basic (ha ▸ hwidth) (hd ▸ hwidth) (by omega)
  have hmultiplier := startEngine_multiplierDigit (mode := .basic) (a := a) (d := d) hbu h.multiplier
  have hrootDigit := fun i => startEngine_rootDigit (a := a) (b := b) hdu
    ((h.root rfl).trans h.iterations_eq.symm) (i := i)
  obtain rfl := h.iterations_eq
  obtain rfl : (c.alignment (c.iterations .basic)).toNat = k := by rw [h.alignment_eq]; rfl
  obtain rfl := h.resWidth_eq
  have hroot0 := leadingDigits_none hseeds.paddedRoot_lt
  have hfirst : leadingDigits c.m b.bits.toNat c.n 1 = (b.digitList c.m).element 1 := by
    have hb0 : leadingDigits c.m b.bits.toNat c.n 0 = 0 :=
      leadingDigits_none (by rw [mul_comm, ← hb]; exact b.bits.isLt)
    rw [← leadingDigits_succ, hb0, zero_mul, zero_add, ← hmultiplier 0]
    exact if_pos hn
  have hresidual : (b.digitList c.m).element 1 * a.val =
      residualAfter c a.bits.toNat b.bits.toNat d.bits.toNat (c.iterations .basic)
        (c.alignment (c.iterations .basic)).toNat 0 := by
    rw [residualAfter, residualAt, hroot0, hfirst, Reg.val_unsigned hau]
    push_cast
    ring
  exact
    { seeds := hseeds
      run := hrun
      basic := rfl
      operandWidth := ha
      multiplierDigits := hmultiplier
      rootDigits := hrootDigit
      resWidth := fun r hr => by
        cases hr
        exact hwrt
      res := by
        have hrange := hseeds.range_residualAt (Nat.zero_le _) (Nat.le_refl _) (Nat.le_refl _)
        rw [← hwrt] at hrange
        change Holds (some (Reg.storeExact _ ((b.digitList c.m).element 1 * a.val))) _
        rw [hresidual]
        exact (stored_storeExact (Reg.zero _ true) _ (hrun.res.regOk rfl).1).holds (hrun.res.regOk rfl).1 rfl rfl hrange
      root := ⟨_, rfl, by rw [Reg.val_zero]; exact (congrArg Nat.cast hroot0).symm, rfl, rfl⟩
      mc := fun _ => ⟨_, rfl, by
        rw [val_widened hau (Nat.le_add_right _ _), Reg.val_unsigned hau]
        exact congrArg Nat.cast (mul_one _).symm, rfl, rfl⟩
      sref := ⟨_, rfl, Reg.val_unsigned rfl, rfl, rfl⟩
      reported := nofun }

/-- n digits more for n·bpd bits more (R84). -/
theorem digitCount_mul_add {bpd : Nat} (h : 1 ≤ bpd) (n w : Nat) :
    digitCount (n * bpd + w) bpd = n + digitCount w bpd := by
  rw [digitCount, digitCount, show n * bpd + w + bpd - 1 = w + bpd - 1 + n * bpd by omega, Nat.add_mul_div_right _ _ h,
    Nat.add_comm]

theorem digitCount_mul {bpd : Nat} (h : 1 ≤ bpd) (n : Nat) : digitCount (n * bpd) bpd = n := by
  have hzero : digitCount 0 bpd = 0 := Nat.div_eq_of_lt (by omega)
  simpa [hzero] using digitCount_mul_add h n 0

section Constants

variable {c : Config} {total : Nat} (hm : 1 ≤ c.m) (htotal : total = c.n + (c.z + c.m - 1) / c.m)

include hm htotal

/-- The I digits of a basic run hold an operand of n digits and the guard bits (R8). -/
theorem padded_le_basic : c.n * c.m + c.z ≤ c.m * total := by
  obtain ⟨hguard, -⟩ := digitCount_bounds c.z c.m hm
  rw [htotal, mul_add, mul_comm c.m, mul_comm c.m]
  exact Nat.add_le_add_left hguard _

/-- K of a basic run is not negative (R88). -/
theorem exists_alignment_basic : ∃ k, k + 2 * c.z = c.m * (2 * total + 1 - c.n) := by
  have hpadded := padded_le_basic hm htotal
  have hdigits : c.n ≤ total := htotal ▸ Nat.le_add_right _ _
  have hsplit : 2 * total + 1 - c.n + c.n = 2 * total + 1 := by omega
  have hmul := congrArg (c.m * ·) hsplit
  simp only [mul_add, mul_left_comm c.m 2 total, mul_comm c.m c.n] at hmul
  exact ⟨_, Nat.sub_add_cancel (by omega)⟩

end Constants

/-- Settles O56: a run started on A·B = S² is on its course, and stays on it until it is over. -/
theorem basicRunConverges : Obligations.BasicRunConverges := by
  intro s ra rb rd s1 s2 total a b d hs hm hm32 hn heven hT htotal hWT hLQ hPP hSZ _ _ ha hb hd hau hbu hdu hwa hwb hwd
    hA hB hS
  have hdigits : s.cfg.n ≤ total := htotal ▸ Nat.le_add_right _ _
  obtain ⟨k, hk⟩ := exists_alignment_basic hm htotal
  have hstartOk : StartOk s.cfg .basic a b d total k
      (1 + (s.cfg.m * (2 * total + 1 - s.cfg.n) + 2 * (s.cfg.n * s.cfg.m))) (s.cfg.respWidth total k a.w b.w) :=
    { iterations := htotal
      radix := ⟨hm, hm32, hn⟩
      practical := nofun
      even := heven
      guard := nofun
      unsigned := ⟨hau, hbu, hdu⟩
      multiplier := hwb ▸ digitCount_mul hm s.cfg.n
      root := fun _ => hwd ▸ htotal ▸ digitCount_mul_add hm s.cfg.n s.cfg.z
      aligned := by zify [show s.cfg.n ≤ 2 * total + 1 by omega] at hk; linarith
      residual := by
        rw [hT, Option.getD_none, hwa, hwb, hwd]
        omega
      residualP := rfl
      width := by
        rw [hwa, hwd]
        have hle : s.cfg.m * (total - 1) ≤ s.cfg.m * total := Nat.mul_le_mul_left _ (Nat.sub_le _ _)
        omega
      widthP := nofun }
  have hseeds : Seeds s.cfg a.bits.toNat b.bits.toNat d.bits.toNat total k :=
    { product := by rw [hA, hB, hS]; ring
      root_lt := hwd ▸ d.bits.isLt
      a_lt := hwa ▸ a.bits.isLt
      digits := hdigits
      padded := padded_le_basic hm htotal
      aligned := hk }
  obtain ⟨e, he, ⟨res, hres, hresVal, hresOvf, hresUnf⟩, ⟨root, hroot, hrootVal, hrootOvf, hrootUnf⟩, hesr⟩ :=
    (hstartOk.converging hseeds hwa hwb hwd rfl).exec_erun hs (hstartOk.startRun_eq ha hb hd)
  refine ⟨e, res, root, he, hesr, hres, hroot, hresVal, hresOvf, hresUnf, ?_, hrootOvf, hrootUnf⟩
  rw [hrootVal, hS]
  push_cast
  rfl

end Sys2Proof.Machine
end

section
/-! PROOFS. Scope: the sign symmetry of the practical table (R103). -/

namespace Sys2Proof.Machine

/-- The lookup in a symmetric table: the row is that of the region's magnitude, and a negative region inverts the
entry's sign (R103). -/
theorem tableDigit_of_symmetric {c : Config} {i : Nat} {resp q : Reg} {region : Int} (hsym : c.symmetric = true)
    (hregion : (samples c i resp q).1.val / 2 ^ c.fracP = region) :
    tableDigit c i resp q = do
      let d ← tableEntry c (overriddenRow c i (c.origin - |region|))
        ((samples c i resp q).2.bits.toNat / 2 ^ c.fracS - c.colBase)
      return if region < 0 then -d else d := by
  simp only [tableDigit, hregion, hsym, if_true, Bool.true_and, decide_eq_true_eq, Int.natCast_natAbs]

/-- In a symmetric table the lookup of region −g is that of region g > 0 at the same root estimate with its digit
negated. The two regions share one row, so an override moves both lookups alike. -/
theorem tableDigit_mirror {c : Config} {i : Nat} {resp resp' q q' : Reg} {g : Int} (hsym : c.symmetric = true)
    (hg : 0 < g) (hpos : (samples c i resp q).1.val / 2 ^ c.fracP = g)
    (hneg : (samples c i resp' q').1.val / 2 ^ c.fracP = -g)
    (hest : (samples c i resp q).2 = (samples c i resp' q').2) :
    tableDigit c i resp' q' = (tableDigit c i resp q).map Neg.neg := by
  rw [tableDigit_of_symmetric hsym hpos, tableDigit_of_symmetric hsym hneg, abs_neg, hest]
  generalize tableEntry c _ _ = entry
  cases entry with
  | error e => rfl
  | ok d => simp only [ok_bind, return_eq_ok, if_pos (neg_lt_zero.2 hg), if_neg hg.not_gt, Except.map]

/-- Settles O52: both outcomes are read off the mirrored lookup, which holds whether or not the shared row is
overridden. -/
theorem symmetricTableMirrors : Obligations.SymmetricTableMirrors := by
  intro c i resp resp' q q' g hsym hg _ hpos hneg hest
  have hmirror := tableDigit_mirror hsym hg hpos hneg hest
  refine ⟨fun v hv => ?_, fun herr => ?_⟩
  · rw [hmirror, hv, Except.map]
  · rw [hmirror, herr, Except.map]

end Sys2Proof.Machine
end

section
/-! PROOFS. Scope: the system command, faults, reset and hazards (R109, R111, R112, R123, R124, R129): what the FAULTED
state answers, what a fault changes, when the core waits, and that every command but RAND ends. -/

namespace Sys2Proof.Machine

/-! ### The shape of a command -/

/-- Every command but RAND, ERUN and RDCSR is built by `command` from a rule of its own (R15). -/
theorem exec_eq_command (i : Instr) (s : State) :
    (∃ body, exec i s = s.command i.opcode body) ∨ (∃ rd, i = .rand rd) ∨
      (∃ ra rb rd mode, i = .erun ra rb rd mode) ∨ ∃ c, i = .rdcsr c := by
  cases i
  case rand rd => exact .inr (.inl ⟨rd, rfl⟩)
  case erun ra rb rd mode => exact .inr (.inr (.inl ⟨ra, rb, rd, mode, rfl⟩))
  case rdcsr c => exact .inr (.inr (.inr ⟨c, rfl⟩))
  all_goals exact .inl ⟨_, rfl⟩

/-! ### The FAULTED state (R109, R111, R112) -/

/-- In the FAULTED state a command other than RDCSR is refused. -/
theorem exec_faulted {i : Instr} {s : State} {f : FaultRecord} (hs : s.fsr = some f) (hi : ∀ c, i ≠ .rdcsr c) :
    exec i s = .next (s.respond refusedResponse) := by
  rcases exec_eq_command i s with ⟨body, hbody⟩ | ⟨rd, rfl⟩ | ⟨ra, rb, rd, mode, rfl⟩ | ⟨c, rfl⟩
  · rw [hbody, State.command_faulted hs]
  · exact s.unlessFaulted_faulted hs _
  · exact s.unlessFaulted_faulted hs _
  · exact absurd rfl (hi c)

/-- In the FAULTED state words that are no instruction are refused. -/
theorem runCommand_faulted_of_decode_error {w x : Word} {e : DecodeError} {s : State} {f : FaultRecord}
    (hs : s.fsr = some f) (h : decode w x = .error e) : runCommand w x s = .next (s.respond refusedResponse) := by
  simp only [runCommand, h]
  exact s.unlessFaulted_faulted hs _

/-- Settles O9: RDCSR alone is not refused, decoded or not. -/
theorem faultedRefusesAllButRdcsr : Obligations.FaultedRefusesAllButRdcsr :=
  fun _ _ hs => ⟨fun _ => exec_faulted hs, fun _ => rfl, fun _ _ _ => runCommand_faulted_of_decode_error hs⟩

/-- Settles O58: an IMM8 above 4 is a field out of range (R54), raised or refused like that of any other command. -/
theorem rdcsrReadsCsr : Obligations.RdcsrReadsCsr := by
  intro s c
  refine ⟨by cases c <;> rfl, rfl, fun h x hop himm8 => ⟨fun hs => ?_, fun hs => ?_⟩, BitVec.toNat_ofNat _ _,
    BitVec.toNat_ofNat _ _, BitVec.toInt_ofInt_eq_self (w := 64) (by norm_num)⟩
  · obtain ⟨-, hbadField⟩ := illegalWordsFault s h x hs
    exact hbadField .rdcsr hop.symm (by simp [himm8])
  · obtain ⟨f, hf⟩ := Option.ne_none_iff_exists'.1 hs
    exact runCommand_faulted_of_decode_error hf
      (decode_eq_badField (o := .rdcsr) hop.symm fun _ => operands_eq_none x (by simp [himm8]))

/-- In the FAULTED state the words of a command leave FSR as it was. -/
theorem runCommand_faulted_fsr {w x : Word} {s t : State} {f : FaultRecord} (hs : s.fsr = some f)
    (h : runCommand w x s = .next t) : t.fsr = some f := by
  rcases runCommand_cases h with ⟨i, -, hexec⟩ | ⟨e, hdecode, -⟩
  · obtain ⟨-, -, hfaulted, -⟩ := (exec_ends hexec).effect
    obtain ⟨r, rfl⟩ := hfaulted (by simp [hs])
    exact hs
  · rw [runCommand_faulted_of_decode_error hs hdecode] at h
    cases h
    exact hs

/-- Settles O8: waiting and every command, decoded or rejected, keep FSR. -/
theorem onlyResetLeavesFaulted : Obligations.OnlyResetLeavesFaulted := by
  intro s t f hs h
  rcases step_cases h with rfl | ⟨rest, hinput, -⟩ | ⟨w, x, u, hfetch, hrun⟩
  · exact .inl hs
  · exact .inr ⟨rest, hinput⟩
  · obtain ⟨rest, rfl⟩ := fetch_command_eq hfetch
    exact .inl (runCommand_faulted_fsr (s := { s with input := rest }) hs hrun)

/-! ### What a fault changes (R112) -/

/-- The last response tells a fault from a completion. -/
theorem State.takeFault_ne_respond_ok (s u : State) (fop : BitVec 6) (c : Cause) (v : Word) :
    s.takeFault fop c ≠ u.respond (okResponse v) := fun h => by
  have hlast := congrArg (fun t : State => t.responses.getLast?) h
  simp [okResponse] at hlast

/-- A command that takes a running core to the FAULTED state does not end with the response OK. -/
theorem Ends.ne_respond_ok {i : Instr} {s t : State} (h : Ends i s t) (hs : s.fsr = none) (ht : t.fsr ≠ none)
    (u : State) (v : Word) : t ≠ u.respond (okResponse v) := by
  cases h with
  | refused hf => exact absurd hs hf
  | answered _ => exact absurd hs ht
  | completed _ hu =>
    obtain ⟨-, -, -, hfsr⟩ := hu.fields
    exact absurd (hfsr.trans hs) ht
  | faulted c => exact State.takeFault_ne_respond_ok _ u _ c v

/-- A command that takes a running core to the FAULTED state does so from the state it found, except that ERUN may have
changed the engine (R93, R112). -/
theorem exec_fault_eq {i : Instr} {s t : State} (hs : s.fsr = none) (h : exec i s = .next t) (ht : t.fsr ≠ none) :
    ∃ c, t = s.takeFault i.opcode.code c ∨
      i.opcode = .erun ∧ ∃ e, t = ({ s with engine := e } : State).takeFault i.opcode.code c := by
  have hne := (exec_ends h).ne_respond_ok hs ht
  rcases exec_eq_command i s with ⟨body, hbody⟩ | ⟨rd, rfl⟩ | ⟨ra, rb, rd, mode, rfl⟩ | ⟨csr, rfl⟩
  · rw [hbody] at h
    rcases State.command_cases h with ⟨hf, -⟩ | ⟨-, u, v, -, rfl⟩ | ⟨-, c, -, rfl⟩
    · exact absurd hs hf
    · exact absurd rfl (hne u v)
    · exact ⟨c, .inl rfl⟩
  · rcases execRand_cases h with ⟨hf, -⟩ | ⟨-, -, rfl⟩ | ⟨-, r, b, u, -, -, rfl⟩
    · exact absurd hs hf
    · exact ⟨_, .inl rfl⟩
    · exact absurd rfl (hne _ 0)
  · rcases execErun_cases h with ⟨hf, -⟩ | ⟨-, c, -, rfl⟩ | ⟨-, e, e', -, ⟨-, rfl⟩ | ⟨c, -, rfl⟩⟩
    · exact absurd hs hf
    · exact ⟨c, .inl rfl⟩
    · exact absurd rfl (hne _ 0)
    · exact ⟨c, .inr ⟨rfl, e', rfl⟩⟩
  · cases h
    exact absurd rfl (hne s _)

/-- Settles O10: FSR and the response are those of the fault entry, from whichever engine it was taken. -/
theorem faultHasNoOtherEffect : Obligations.FaultHasNoOtherEffect := by
  intro i s t hs h ht
  obtain ⟨c, rfl | ⟨hi, e, rfl⟩⟩ := exec_fault_eq hs h ht
  · exact ⟨c, rfl, rfl, .inl rfl⟩
  · exact ⟨c, rfl, rfl, .inr ⟨hi, rfl⟩⟩

/-! ### Waiting (R123, R124) -/

/-- Settles O6: what `fetch` finds on each of the three channels. -/
theorem coreWaitsForCommand : Obligations.CoreWaitsForCommand := by
  refine fun s => ⟨fun hinput => ?_, fun h hinput htwo => ?_, fun h rest hinput htwo => ?_⟩
  · simp only [step, fetch, hinput]
  · simp only [step, fetch, hinput, htwo, if_true]
  · simp only [step, fetch, hinput, htwo, if_true]

/-! ### Every command ends but RAND (R64, R129) -/

/-- A rejected draw has no 1 bit, or a single one in a signed register of width 2 or more. -/
theorem State.bits_of_rejected_draw {s : State} {w : Nat} {signed : Bool} {j : Nat}
    (h : accepted signed ((s.skipBits (j * w)).drawPattern w) = false) :
    (∀ k, k < w → s.sourceBit (j * w + k) = false) ∨
      (signed = true ∧ 2 ≤ w ∧ (List.range w).countP (fun k => s.sourceBit (j * w + k)) = 1) := by
  rw [← Bool.not_eq_true, State.accepted_draw, not_and_or, not_not] at h
  exact h.imp_left fun hzero k hk => Bool.eq_false_of_not_eq_true fun hone => hzero ⟨k, hk, hone⟩

/-- When rejection sampling runs dry, it has rejected every draw that begins in the listed bits or right after them. A
draw of width 0 has no bits. -/
theorem State.rejected_of_randomPattern_eq_none {s : State} {w : Nat} {signed : Bool}
    (h : s.randomPattern w signed = none) {n : Nat} (hn : n * w ≤ s.randomBits.length) :
    (∀ k, k < w → s.sourceBit (n * w + k) = false) ∨
      (signed = true ∧ 2 ≤ w ∧ (List.range w).countP (fun k => s.sourceBit (n * w + k)) = 1) := by
  rcases Nat.eq_zero_or_pos w with rfl | hw
  · exact .inl nofun
  rcases s.randomPattern_cases w signed with ⟨i, hi, -⟩ | ⟨-, hrejected⟩
  · rw [h] at hi
    cases hi
  · exact State.bits_of_rejected_draw (hrejected n ((Nat.le_mul_of_pos_right n hw).trans hn))

/-- RAND answers a next state, unless it samples for an allocated register of a running core and runs dry. -/
theorem execRand_next_or_hang (rd : Slot) (s : State) :
    (∃ t, execRand rd s = .next t) ∨
      ∃ r, s.fsr = none ∧ s.reg rd = some r ∧ execRand rd s = .fault .randomSourceHang ∧
        s.randomPattern r.w r.signed = none := by
  cases hs : s.fsr with
  | some f => exact .inl ⟨_, s.unlessFaulted_faulted hs _⟩
  | none =>
    cases hr : s.reg rd with
    | none => exact .inl ⟨_, execRand_of_free hs hr⟩
    | some r =>
      cases hp : s.randomPattern r.w r.signed with
      | some p => exact .inl ⟨_, execRand_of_randomPattern hs hr hp⟩
      | none =>
        refine .inr ⟨r, rfl, rfl, ?_, hp⟩
        rw [execRand, State.unlessFaulted_running hs]
        simp only [hr, hp]

/-- ERUN always answers a next state: where its start raises, where its run ends and where an iteration raises (R93). -/
theorem execErun_next (ra rb rd : Slot) (mode : EngineMode) (s : State) :
    ∃ t, execErun ra rb rd mode s = .next t := by
  cases hs : s.fsr with
  | some f => exact ⟨_, s.unlessFaulted_faulted hs _⟩
  | none =>
    rw [execErun, State.unlessFaulted_running hs]
    cases s.startRun ra rb rd mode with
    | error c => exact ⟨_, rfl⟩
    | ok e =>
      simp only
      split <;> exact ⟨_, rfl⟩

/-- Settles O12: the frame of a command always answers, so does ERUN's loop, and RAND is left. -/
theorem everyCommandAnswers : Obligations.EveryCommandAnswers := by
  intro i s
  rcases exec_eq_command i s with ⟨body, hbody⟩ | ⟨rd, rfl⟩ | ⟨ra, rb, rd, mode, rfl⟩ | ⟨c, rfl⟩
  · exact .inl (hbody ▸ s.command_next i.opcode body)
  · refine (execRand_next_or_hang rd s).imp_right ?_
    rintro ⟨r, hs, hr, hhang, hdry⟩
    exact ⟨rd, r, rfl, hs, hr, hhang, fun _ => State.rejected_of_randomPattern_eq_none hdry⟩
  · exact .inl (execErun_next ra rb rd mode s)
  · exact .inl ⟨_, rfl⟩

end Sys2Proof.Machine
end
